-- ==== Sys2Proof/Word.lean ====
section
/-! DEFINITION. The word and byte types of the block (00_scope.md R10, R11) and the queue index. -/
namespace Sys2Proof

/-- A word is 32 bits (00_scope.md R10). -/
abbrev Word := BitVec 32

/-- Bytes are 8 bits in every space (20_memory.md R60). -/
abbrev Byte := BitVec 8

/-- `Bytes[n]` of 00_scope.md R11: a byte sequence indexed from 0. -/
abbrev Bytes := List Byte

end Sys2Proof
end

