-- ==== Sys2Proof/Machine/Bytes.lean ====
section
/-! DEFINITION. The byte-order helpers of 00_scope.md R11. -/
namespace Sys2Proof

/-- `le32`: the word whose least significant byte is the first of `b` (00_scope.md R11, 20_memory.md R68). -/
def le32 (b : Bytes) : Word :=
  b.getD 3 0 ++ b.getD 2 0 ++ b.getD 1 0 ++ b.getD 0 0

/-- `bytes_le(v, 4)` of a word: its four bytes, least significant first (00_scope.md R11, 47_mmio.md R317). -/
def wordBytes (v : Word) : Bytes :=
  [v.extractLsb' 0 8, v.extractLsb' 8 8, v.extractLsb' 16 8, v.extractLsb' 24 8]

/-- `nat_le`: the number whose least significant byte is the first of the sequence (00_scope.md R11). -/
def natLe : Bytes → Nat
  | [] => 0
  | b :: bs => b.toNat + 256 * natLe bs

/-- `bytes_le(v, n)`: the `n` lowest bytes of `v`, least significant first, zero padded (00_scope.md R11). -/
def bytesLe (v : Nat) : Nat → Bytes
  | 0 => []
  | n + 1 => BitVec.ofNat 8 v :: bytesLe (v / 256) n

end Sys2Proof
end

