-- ==== Sys2Proof/Config.lean ====
section
/-! DEFINITION. What an implementation fixes: the parameters of 00_scope.md R5 to R9 at the values the spec takes, and
the constants the spec leaves OPEN or free, which are opaque so that nothing can be proved of their value. -/
namespace Sys2Proof

/-! Geometry, 00_scope.md R5. -/

/-- `N_QUEUES`. -/
abbrev Config.nQueues : Nat := 5
/-- `SLOT_COUNT`. -/
abbrev Config.slotCount : Nat := 128
/-- `SLOT_SIZE`, bytes. -/
abbrev Config.slotSize : Nat := 32
/-- `LSB_SIZE = SLOT_COUNT * SLOT_SIZE`, bytes. -/
abbrev Config.lsbSize : Nat := 4096
/-- `DESC_SIZE`, bytes. -/
abbrev Config.descSize : Nat := 32
/-- `ZLIB_CHUNK`, bytes. -/
abbrev Config.zlibChunk : Nat := 4096
/-- `Q_REGION_SIZE`, bytes. -/
abbrev Config.qRegionSize : Nat := 0x1000

/-! Register map, 00_scope.md R6: the spec's adopted values (92_eei_decisions.md D2, D3; log entry 10). -/

abbrev Config.globalBase : Nat := 0x0000
abbrev Config.globalSize : Nat := 0x1000
abbrev Config.qBase : Nat := 0x1000
abbrev Config.qStride : Nat := 0x1000
abbrev Config.cfgBase : Nat := 0x6000
abbrev Config.cfgSize : Nat := 0x1000
abbrev Config.windowSize : Nat := 0x7000
abbrev Config.regCtrl : BitVec 12 := 0x000
abbrev Config.regTail : BitVec 12 := 0x004
abbrev Config.regHead : BitVec 12 := 0x008
abbrev Config.regStatus : BitVec 12 := 0x100

/-! Bit and code parameters, 00_scope.md R7 and 30_encoding.md R108 to R113 (log entry 10). -/

/-- `CTRL_RUN`, bit 0 of `control`. -/
abbrev Config.ctrlRun : Word := 0x1
/-- `CTRL_HALT`, bit 1 of `control`. -/
abbrev Config.ctrlHalt : Word := 0x2
/-- `STATUS_SUCCESS`. -/
abbrev Config.statusSuccess : Word := 0

abbrev Config.engAes : BitVec 4 := 0
abbrev Config.engXts : BitVec 4 := 1
abbrev Config.engDes3 : BitVec 4 := 2
abbrev Config.engSha : BitVec 4 := 3
abbrev Config.engRsa : BitVec 4 := 4
abbrev Config.engPassthru : BitVec 4 := 5
abbrev Config.engZlib : BitVec 4 := 6
abbrev Config.engEcc : BitVec 4 := 7

/-- Hash-type code of SHA-256 (R110). -/
abbrev Config.typeSha256 : BitVec 4 := 3
/-- Hash-type code of SHA-384 (R110). -/
abbrev Config.typeSha384 : BitVec 4 := 4
/-- Byteswap code NOOP (R111). -/
abbrev Config.swapNoop : BitVec 2 := 0
/-- Byteswap code "256-bit" (R111). -/
abbrev Config.swap256 : BitVec 2 := 2
/-- Bitwise code NOOP (R112). -/
abbrev Config.bitwiseNoop : BitVec 3 := 0
/-- RSA mode of plain modular exponentiation (R113). -/
abbrev Config.rsaModePlain : BitVec 3 := 0

/-! Behaviour parameters, 00_scope.md R8. -/

/-- `DRAIN_ON_CTRL_WRITE` at the spec's value (46_queue.md R290, 90_conflicts.md C1; log entry 11). -/
abbrev Config.drainOnCtrlWrite : Bool := false
/-- `PT_SWAP256_WHOLE` at the spec's value (44_passthru.md R244, 90_conflicts.md C2; log entry 12). -/
abbrev Config.ptSwap256Whole : Bool := true
/-- What an unlisted byte of guest memory reads as. DESIGN CHOICE, unsafe: log entry 2. The spec gives guest memory no
reset content. The same definition serves the scratch store, whose `LSB_RESET` is all zero by default (log entry 3). -/
abbrev Config.unlistedByte : Byte := 0

/-- One past the highest guest physical address (20_memory.md R62, R66: 48-bit addresses, no grant past `2^48`). -/
abbrev Config.guestLimit : Nat := 0x1000000000000

/-! Free values: nothing constrains them. -/

/-- The platform's answer to the mapping request numbered `call` (20_memory.md R66): free, log entry 1. -/
opaque Config.guestMapAnswer (call addr len : Nat) (writable : Bool) : Nat

/-- `CFG_READY_OFFSET / 4`: OPEN (92_eei_decisions.md D4: a multiple of 4 below `CFG_SIZE`), log entry 6. -/
opaque Config.cfgReadyIndex : Fin 1024

/-- `CFG_READY_OFFSET` (00_scope.md R6). -/
def Config.cfgReadyOffset : Nat := 4 * Config.cfgReadyIndex.val

/-- `CFG_READY_VALUE`: OPEN (00_scope.md R6, 92_eei_decisions.md D4), log entry 6. -/
opaque Config.cfgReadyValue : Word

/-- The container formats a compressed stream can have (45_zlib.md R263; `other` for any the spec does not name). -/
inductive Container where
  | zlib
  | raw
  | other
deriving DecidableEq, Repr, Inhabited

/-- Which container `INFLATE` accepts: not fixed by the spec (45_zlib.md R263, 92_eei_decisions.md D31), log entry 7. -/
opaque Config.inflateContainer : Container

/-- What `INFLATE` produces from an input that is not one well-formed stream of the accepted container: any byte
string (45_zlib.md R263, 93_implementation_defined.md U10), cut to the buffer by its user; log entry 7. -/
opaque Config.inflateFree (input : Bytes) (cap : Nat) : Bytes

/-- The digest SHA-256 gives a message of `2^61` bytes or more, which FIPS 180-4 does not define and 00_scope.md R9 leaves
to the primitive; log entry 9. -/
opaque Config.sha256Overlong (msg : Bytes) : BitVec 256

/-- The digest SHA-384 gives a message of `2^125` bytes or more; log entry 9. -/
opaque Config.sha384Overlong (msg : Bytes) : BitVec 384

end Sys2Proof
end

