-- ==== Sys2Proof/Syntax.lean ====
section
/-! DEFINITION. The descriptor record, the MMIO access and the instructions: one constructor of `Instr` per row of
spec/opcode_table.json, in the table's order. -/
namespace Sys2Proof

/-- A queue index, `0 .. N_QUEUES - 1` (10_state.md R21). -/
abbrev QId := Fin Config.nQueues

/-- The memory types of 30_encoding.md R109: codes 0, 1, 2 and the unnamed code 3. -/
inductive MemType where
  | system
  | scratch
  | loc
  | unnamed
deriving DecidableEq, Repr

/-- The decoded descriptor (30_encoding.md R101 to R105, R118): every field, none of them interpreted. Words 4 and 5
have two readings, which share their storage (R104): `w4` is `dst_lo` and `sha_len_lo`, `w5` is `sha_len_hi` and holds
`dst_hi`, `dst_mem` and the destination's `fixed`; Machine/Operands.lean gives both readings. -/
structure Desc where
  soc : Bool
  ioc : Bool
  init : Bool
  eom : Bool
  function : BitVec 15
  engine : BitVec 4
  prot : Bool
  length : Word
  srcLo : Word
  srcHi : BitVec 16
  srcMem : MemType
  ctxId : BitVec 8
  fixedSrc : Bool
  w4 : Word
  w5 : Word
  keyLo : Word
  keyHi : BitVec 16
  keyMem : MemType
deriving DecidableEq, Repr

/-- One MMIO access as the host issues it (47_mmio.md R300, R317): a read names its offset and size; a write carries its
bytes in offset order, and its size is their number. -/
inductive Access where
  | read (offset size : Nat)
  | write (offset : Nat) (data : Bytes)
deriving DecidableEq, Repr

/-- The instructions: the rows of spec/opcode_table.json. Descriptor rows carry the whole decoded descriptor, of which
the row fixes some fields (Sys2Proof/WellFormed.lean). MMIO rows carry the operands the table names. -/
inductive Instr where
  /-- AES (41_decode_dispatch.md R186). -/
  | aes (d : Desc)
  /-- XTS_AES_128 (R187). -/
  | xtsAes128 (d : Desc)
  /-- DES3 (R188). -/
  | des3 (d : Desc)
  /-- SHA256 (42_hash.md R200). -/
  | sha256 (d : Desc)
  /-- SHA384 (42_hash.md R200). -/
  | sha384 (d : Desc)
  /-- SHA_UNSUPPORTED (42_hash.md R208). -/
  | shaUnsupported (d : Desc)
  /-- RSA_2048 (43_rsa.md R220). -/
  | rsa2048 (d : Desc)
  /-- RSA_4096 (43_rsa.md R220). -/
  | rsa4096 (d : Desc)
  /-- RSA_SKIP (43_rsa.md R227). -/
  | rsaSkip (d : Desc)
  /-- PT_BITWISE_UNIMPL (44_passthru.md R246). -/
  | ptBitwiseUnimpl (d : Desc)
  /-- PT_COPY (44_passthru.md R243). -/
  | ptCopy (d : Desc)
  /-- PT_SWAP256 (44_passthru.md R244). -/
  | ptSwap256 (d : Desc)
  /-- PT_SWAP_UNIMPL (44_passthru.md R245). -/
  | ptSwapUnimpl (d : Desc)
  /-- ZLIB_INFLATE (45_zlib.md R260). -/
  | zlibInflate (d : Desc)
  /-- ZLIB_UNIMPL (45_zlib.md R264). -/
  | zlibUnimpl (d : Desc)
  /-- ECC (41_decode_dispatch.md R189). -/
  | ecc (d : Desc)
  /-- UNKNOWN_ENGINE (41_decode_dispatch.md R193). -/
  | unknownEngine (d : Desc)
  /-- MMIO_BAD_ACCESS (47_mmio.md R301): a read or a write of a wrong size or alignment; a write's value is dropped. -/
  | mmioBadAccess (isWrite : Bool) (offset size : Nat)
  /-- GLOBAL_RD (47_mmio.md R303), with the offset inside the region. -/
  | globalRd (offset : BitVec 12)
  /-- GLOBAL_WR (47_mmio.md R302). -/
  | globalWr (offset : BitVec 12) (value : Word)
  /-- CTRL_RD (47_mmio.md R305). -/
  | ctrlRd (q : QId)
  /-- CTRL_WR (47_mmio.md R306). -/
  | ctrlWr (q : QId) (value : Word)
  /-- TAIL_RD (47_mmio.md R307). -/
  | tailRd (q : QId)
  /-- TAIL_WR (47_mmio.md R308). -/
  | tailWr (q : QId) (value : Word)
  /-- HEAD_RD (47_mmio.md R309). -/
  | headRd (q : QId)
  /-- HEAD_WR (47_mmio.md R310). -/
  | headWr (q : QId) (value : Word)
  /-- STATUS_RD (47_mmio.md R311). -/
  | statusRd (q : QId)
  /-- STATUS_WR (47_mmio.md R312). -/
  | statusWr (q : QId) (value : Word)
  /-- QUEUE_UNKNOWN_REG (47_mmio.md R315): a read (`none`) or a write of a value at an offset of a queue region that
  holds no register. -/
  | queueUnknownReg (q : QId) (reg : BitVec 12) (value : Option Word)
  /-- CFG_RD (47_mmio.md R313), with the offset inside the region. -/
  | cfgRd (offset : BitVec 12)
  /-- CFG_WR (47_mmio.md R314). -/
  | cfgWr (offset : BitVec 12) (value : Word)
deriving DecidableEq, Repr

/-- What an instruction is decoded from: the 32 bytes of a descriptor (30_encoding.md R100), or an MMIO access
(47_mmio.md R300). -/
inductive Encoded where
  | descriptor (bytes : Bytes)
  | access (a : Access)
deriving DecidableEq, Repr

end Sys2Proof
end

