-- ==== Sys2Proof/Machine/Operands.lean ====
section
/-! DEFINITION. The operand forms: the assembled addresses of a descriptor, both readings of its words 4 and 5, the
sub-fields of `function` (30_encoding.md R104 to R109), and the shape of an MMIO access (47_mmio.md R301). -/
namespace Sys2Proof

/-- A memory type from its 2-bit code (30_encoding.md R109). -/
def memTypeOfCode (c : BitVec 2) : MemType :=
  if c = 0 then .system else if c = 1 then .scratch else if c = 2 then .loc else .unnamed

/-- The 2-bit code of a memory type (30_encoding.md R109). -/
def memTypeCode : MemType → BitVec 2
  | .system => 0
  | .scratch => 1
  | .loc => 2
  | .unnamed => 3

/-- `src = src_hi ++ src_lo`, 48 bits (30_encoding.md R105). -/
def Desc.src (d : Desc) : BitVec 48 := d.srcHi ++ d.srcLo

/-- `dst_lo = W4[31:0]` (30_encoding.md R104). -/
def Desc.dstLo (d : Desc) : Word := d.w4

/-- `dst_hi = W5[15:0]` (30_encoding.md R104). -/
def Desc.dstHi (d : Desc) : BitVec 16 := d.w5.extractLsb' 0 16

/-- `dst_mem = W5[17:16]` (30_encoding.md R104). -/
def Desc.dstMem (d : Desc) : MemType := memTypeOfCode (d.w5.extractLsb' 16 2)

/-- The destination's `fixed = W5[31]` (30_encoding.md R104); no engine reads it (R115). -/
def Desc.fixedDst (d : Desc) : Bool := d.w5.getLsbD 31

/-- `sha_len_lo = W4[31:0]` (30_encoding.md R104); no engine reads it (R115). -/
def Desc.shaLenLo (d : Desc) : Word := d.w4

/-- `sha_len_hi = W5[31:0]` (30_encoding.md R104); no engine reads it (R115). -/
def Desc.shaLenHi (d : Desc) : Word := d.w5

/-- `dst = dst_hi ++ dst_lo`, 48 bits (30_encoding.md R105). -/
def Desc.dst (d : Desc) : BitVec 48 := d.dstHi ++ d.dstLo

/-- `key = key_hi ++ key_lo`, 48 bits (30_encoding.md R105). -/
def Desc.key (d : Desc) : BitVec 48 := d.keyHi ++ d.keyLo

/-- `sha_type = function[13:10]` (30_encoding.md R106). -/
def Desc.shaType (d : Desc) : BitVec 4 := d.function.extractLsb' 10 4

/-- RSA `mode = function[2:0]` (30_encoding.md R107). -/
def Desc.rsaMode (d : Desc) : BitVec 3 := d.function.extractLsb' 0 3

/-- RSA `size = function[14:3]`, bytes (30_encoding.md R107). -/
def Desc.rsaSize (d : Desc) : BitVec 12 := d.function.extractLsb' 3 12

/-- PASSTHRU `byteswap = function[1:0]` (30_encoding.md R107). -/
def Desc.byteswap (d : Desc) : BitVec 2 := d.function.extractLsb' 0 2

/-- PASSTHRU `bitwise = function[4:2]` (30_encoding.md R107). -/
def Desc.bitwise (d : Desc) : BitVec 3 := d.function.extractLsb' 2 3

/-! ### Packing: the sub-fields of `function` and the destination's word from their fields (30_encoding.md R121) -/

/-- `function = sha_type<<10` for SHA (30_encoding.md R121). -/
def packShaFunction (shaType : BitVec 4) : BitVec 15 := 0#1 ++ shaType ++ 0#10

/-- `function = mode | size<<3` for RSA (30_encoding.md R121). -/
def packRsaFunction (mode : BitVec 3) (size : BitVec 12) : BitVec 15 := size ++ mode

/-- `function = byteswap | bitwise<<2` for PASSTHRU (30_encoding.md R121). -/
def packPassthruFunction (byteswap : BitVec 2) (bitwise : BitVec 3) : BitVec 15 := 0#10 ++ bitwise ++ byteswap

/-- `W5 = dst_hi | dst_mem<<16 | fixed_dst<<31`, bits 30:18 zero (30_encoding.md R121). -/
def packDstWord (dstHi : BitVec 16) (dstMem : MemType) (fixedDst : Bool) : Word :=
  BitVec.ofBool fixedDst ++ 0#13 ++ memTypeCode dstMem ++ dstHi

/-- `function` packed from the sub-fields the engine has, 0 for an engine with none (30_encoding.md R121). -/
def Desc.packedFunction (d : Desc) : BitVec 15 :=
  if d.engine = Config.engSha then packShaFunction d.shaType
  else if d.engine = Config.engRsa then packRsaFunction d.rsaMode d.rsaSize
  else if d.engine = Config.engPassthru then packPassthruFunction d.byteswap d.bitwise
  else 0

/-- Word 5 packed from the fields of the reading the engine has: `sha_len_hi` for SHA, the destination for every other
engine (30_encoding.md R104, R121). -/
def Desc.packedW5 (d : Desc) : Word :=
  if d.engine = Config.engSha then d.shaLenHi else packDstWord d.dstHi d.dstMem d.fixedDst

/-- The descriptor with `function` and word 5 packed, so that every bit its engine ignores in them is zero. -/
def Desc.packed (d : Desc) : Desc := { d with function := d.packedFunction, w5 := d.packedW5 }

/-- An MMIO access that acts: 4 bytes at a 4-aligned offset (47_mmio.md R301, 20_memory.md R69). -/
def conforming (offset size : Nat) : Bool := size == 4 && offset % 4 == 0

/-- The registers of a queue region (10_state.md R40). -/
def isQueueReg (r : BitVec 12) : Bool :=
  r == Config.regCtrl || r == Config.regTail || r == Config.regHead || r == Config.regStatus

/-- The offset is that of a whole 4-byte word. -/
def wordAligned (r : BitVec 12) : Bool := r.toNat % 4 == 0

/-- The descriptor's row is RSA_2048: mode 0, size 256 and length 512 (30_encoding.md R119). -/
def Desc.isRsa2048 (d : Desc) : Bool :=
  d.rsaMode == Config.rsaModePlain && d.rsaSize == 256 && d.length == 512

/-- The descriptor's row is RSA_4096: mode 0, size 512 and length 1024 (30_encoding.md R119). -/
def Desc.isRsa4096 (d : Desc) : Bool :=
  d.rsaMode == Config.rsaModePlain && d.rsaSize == 512 && d.length == 1024

end Sys2Proof
end

