-- ==== Sys2Proof/WellFormed.lean ====
section
/-! DEFINITION. When a term of `Instr` is an instruction: the descriptor's fields are those of the row (the `match`,
`mask` and `constraint` of spec/opcode_table.json, 30_encoding.md R119), and an access's operands are those the row
can have (47_mmio.md R300, R301). -/
namespace Sys2Proof

/-- The row's own conditions on the fields. -/
def Instr.wellFormed : Instr → Bool
  | .aes d => d.engine == Config.engAes
  | .xtsAes128 d => d.engine == Config.engXts
  | .des3 d => d.engine == Config.engDes3
  | .sha256 d => d.engine == Config.engSha && d.shaType == Config.typeSha256
  | .sha384 d => d.engine == Config.engSha && d.shaType == Config.typeSha384
  | .shaUnsupported d =>
    d.engine == Config.engSha && d.shaType != Config.typeSha256 && d.shaType != Config.typeSha384
  | .rsa2048 d => d.engine == Config.engRsa && d.isRsa2048
  | .rsa4096 d => d.engine == Config.engRsa && d.isRsa4096
  | .rsaSkip d => d.engine == Config.engRsa && !d.isRsa2048 && !d.isRsa4096
  | .ptBitwiseUnimpl d => d.engine == Config.engPassthru && d.bitwise != Config.bitwiseNoop
  | .ptCopy d =>
    d.engine == Config.engPassthru && d.bitwise == Config.bitwiseNoop && d.byteswap == Config.swapNoop
  | .ptSwap256 d =>
    d.engine == Config.engPassthru && d.bitwise == Config.bitwiseNoop && d.byteswap == Config.swap256
  | .ptSwapUnimpl d =>
    d.engine == Config.engPassthru && d.bitwise == Config.bitwiseNoop &&
      d.byteswap != Config.swapNoop && d.byteswap != Config.swap256
  | .zlibInflate d => d.engine == Config.engZlib && d.init && d.eom
  | .zlibUnimpl d => d.engine == Config.engZlib && !(d.init && d.eom)
  | .ecc d => d.engine == Config.engEcc
  | .unknownEngine d => d.engine.getLsbD 3
  | .mmioBadAccess _ offset size => decide (offset + size ≤ Config.windowSize) && !conforming offset size
  | .globalRd offset => wordAligned offset
  | .globalWr offset _ => wordAligned offset
  | .ctrlRd _ => true
  | .ctrlWr _ _ => true
  | .tailRd _ => true
  | .tailWr _ _ => true
  | .headRd _ => true
  | .headWr _ _ => true
  | .statusRd _ => true
  | .statusWr _ _ => true
  | .queueUnknownReg _ r _ => wordAligned r && !isQueueReg r
  | .cfgRd offset => wordAligned offset
  | .cfgWr offset _ => wordAligned offset

end Sys2Proof
end

