-- ==== Sys2Proof/Decode.lean ====
section
/-! DEFINITION. The decoder and the encoder. A descriptor is decoded field by field and then given its row
(30_encoding.md R101 to R119); an MMIO access is routed by its offset (47_mmio.md R300, R301). -/
namespace Sys2Proof

/-- Why a term of `Encoded` is no instruction. -/
inductive DecodeError where
  /-- A descriptor is 32 bytes (30_encoding.md R100). -/
  | descriptorLength (n : Nat)
  /-- The access does not lie in the window (20_memory.md R61). -/
  | outsideWindow (offset size : Nat)
  /-- The offset is mapped to no region (47_mmio.md R316). -/
  | unmapped (offset : Nat)
deriving DecidableEq, Repr

/-! ### Descriptors -/

/-- Word `i` of a descriptor, read little-endian (30_encoding.md R100). -/
def descWord (raw : Bytes) (i : Nat) : Word := le32 (raw.drop (4 * i))

/-- The fields of eight words (30_encoding.md R101 to R105); reserved bits are dropped (R114). -/
def descOfWords (w0 w1 w2 w3 w4 w5 w6 w7 : Word) : Desc :=
  { soc := w0.getLsbD 0
    ioc := w0.getLsbD 1
    init := w0.getLsbD 3
    eom := w0.getLsbD 4
    function := w0.extractLsb' 5 15
    engine := w0.extractLsb' 20 4
    prot := w0.getLsbD 24
    length := w1
    srcLo := w2
    srcHi := w3.extractLsb' 0 16
    srcMem := memTypeOfCode (w3.extractLsb' 16 2)
    ctxId := w3.extractLsb' 18 8
    fixedSrc := w3.getLsbD 31
    w4 := w4
    w5 := w5
    keyLo := w6
    keyHi := w7.extractLsb' 0 16
    keyMem := memTypeOfCode (w7.extractLsb' 16 2) }

/-- `Decode` of 41_decode_dispatch.md R180: total on any bytes, no diagnostic. -/
def decodeDesc (raw : Bytes) : Desc :=
  descOfWords (descWord raw 0) (descWord raw 1) (descWord raw 2) (descWord raw 3)
    (descWord raw 4) (descWord raw 5) (descWord raw 6) (descWord raw 7)

/-- The row of a descriptor: by `engine` first, then by the engine's own selection (30_encoding.md R119). -/
def classify (d : Desc) : Instr :=
  if d.engine = Config.engAes then .aes d
  else if d.engine = Config.engXts then .xtsAes128 d
  else if d.engine = Config.engDes3 then .des3 d
  else if d.engine = Config.engSha then
    if d.shaType = Config.typeSha256 then .sha256 d
    else if d.shaType = Config.typeSha384 then .sha384 d
    else .shaUnsupported d
  else if d.engine = Config.engRsa then
    if d.isRsa2048 then .rsa2048 d
    else if d.isRsa4096 then .rsa4096 d
    else .rsaSkip d
  else if d.engine = Config.engPassthru then
    if d.bitwise ≠ Config.bitwiseNoop then .ptBitwiseUnimpl d
    else if d.byteswap = Config.swapNoop then .ptCopy d
    else if d.byteswap = Config.swap256 then .ptSwap256 d
    else .ptSwapUnimpl d
  else if d.engine = Config.engZlib then
    if d.init && d.eom then .zlibInflate d else .zlibUnimpl d
  else if d.engine = Config.engEcc then .ecc d
  else .unknownEngine d

/-! ### MMIO accesses -/

/-- The size of an access in bytes. -/
def Access.size : Access → Nat
  | .read _ size => size
  | .write _ data => data.length

/-- The window offset of an access. -/
def Access.offset : Access → Nat
  | .read offset _ => offset
  | .write offset _ => offset

/-- Whether an access is a write. -/
def Access.isWrite : Access → Bool
  | .read _ _ => false
  | .write _ _ => true

/-- Where an offset of the window lies (47_mmio.md R300). -/
inductive Route where
  | globalRegion (offset : BitVec 12)
  | queue (q : QId) (reg : BitVec 12)
  | config (offset : BitVec 12)
  | unmapped
deriving DecidableEq, Repr

/-- `Route(offset)` of 47_mmio.md R300. -/
def route (offset : Nat) : Route :=
  if Config.globalBase ≤ offset ∧ offset < Config.globalBase + Config.globalSize then
    .globalRegion (BitVec.ofNat 12 (offset - Config.globalBase))
  else if Config.qBase ≤ offset ∧ offset < Config.qBase + Config.nQueues * Config.qStride then
    if (offset - Config.qBase) % Config.qStride < Config.qRegionSize then
      .queue (Fin.ofNat Config.nQueues ((offset - Config.qBase) / Config.qStride))
        (BitVec.ofNat 12 ((offset - Config.qBase) % Config.qStride))
    else .unmapped
  else if Config.cfgBase ≤ offset ∧ offset < Config.cfgBase + Config.cfgSize then
    .config (BitVec.ofNat 12 (offset - Config.cfgBase))
  else .unmapped

/-- A conforming read, by its route (47_mmio.md R318). -/
def decodeRead (offset : Nat) : Except DecodeError Instr :=
  match route offset with
  | .globalRegion o => .ok (.globalRd o)
  | .queue q r =>
    if r = Config.regCtrl then .ok (.ctrlRd q)
    else if r = Config.regTail then .ok (.tailRd q)
    else if r = Config.regHead then .ok (.headRd q)
    else if r = Config.regStatus then .ok (.statusRd q)
    else .ok (.queueUnknownReg q r none)
  | .config o => .ok (.cfgRd o)
  | .unmapped => .error (.unmapped offset)

/-- A conforming write of `v`, by its route (47_mmio.md R318). -/
def decodeWrite (offset : Nat) (v : Word) : Except DecodeError Instr :=
  match route offset with
  | .globalRegion o => .ok (.globalWr o v)
  | .queue q r =>
    if r = Config.regCtrl then .ok (.ctrlWr q v)
    else if r = Config.regTail then .ok (.tailWr q v)
    else if r = Config.regHead then .ok (.headWr q v)
    else if r = Config.regStatus then .ok (.statusWr q v)
    else .ok (.queueUnknownReg q r (some v))
  | .config o => .ok (.cfgWr o v)
  | .unmapped => .error (.unmapped offset)

/-- The instruction of an access: size and alignment before routing (47_mmio.md R301, R318, 60_exceptions.md R345). -/
def decodeAccess (a : Access) : Except DecodeError Instr :=
  if a.offset + a.size > Config.windowSize then .error (.outsideWindow a.offset a.size)
  else if !conforming a.offset a.size then .ok (.mmioBadAccess a.isWrite a.offset a.size)
  else match a with
    | .read offset _ => decodeRead offset
    | .write offset data => decodeWrite offset (le32 data)

/-- The decoder: total on any bytes and any access, rejecting by name. -/
def decode : Encoded → Except DecodeError Instr
  | .descriptor bytes =>
    if bytes.length = Config.descSize then .ok (classify (decodeDesc bytes))
    else .error (.descriptorLength bytes.length)
  | .access a => decodeAccess a

/-! ### The encoder -/

/-- The eight words of a descriptor (30_encoding.md R101 to R105): `function` and words 4 and 5 as the record holds them,
the other reserved bits zero. -/
def descWords (d : Desc) : List Word :=
  [ 0#7 ++ BitVec.ofBool d.prot ++ d.engine ++ d.function ++ BitVec.ofBool d.eom ++ BitVec.ofBool d.init ++
      0#1 ++ BitVec.ofBool d.ioc ++ BitVec.ofBool d.soc,
    d.length,
    d.srcLo,
    BitVec.ofBool d.fixedSrc ++ 0#5 ++ d.ctxId ++ memTypeCode d.srcMem ++ d.srcHi,
    d.w4,
    d.w5,
    d.keyLo,
    0#14 ++ memTypeCode d.keyMem ++ d.keyHi ]

/-- The 32 bytes of a descriptor, each word least significant byte first: the decoder's inverse, which keeps every bit the
record holds (30_encoding.md R118; log entry 19). -/
def encodeDesc (d : Desc) : Bytes := (descWords d).flatMap wordBytes

/-- The encoding function of 30_encoding.md R121: the 32 bytes of a descriptor from its fields, `function` packed from the
engine's sub-fields, word 5 from the destination's fields (from `sha_len_hi` for SHA), reserved bits zero. -/
def assembleDesc (d : Desc) : Bytes := encodeDesc d.packed

/-- The window offset of register `r` of queue `q` (47_mmio.md R305). -/
def queueRegOffset (q : QId) (r : BitVec 12) : Nat := Config.qBase + q.val * Config.qStride + r.toNat

/-- A 4-byte read at `offset`. -/
def read32 (offset : Nat) : Encoded := .access (.read offset 4)

/-- A 4-byte write of `v` at `offset` (47_mmio.md R317). -/
def write32 (offset : Nat) (v : Word) : Encoded := .access (.write offset (wordBytes v))

/-- The encoder: the descriptor's bytes, or the access. -/
def encode : Instr → Encoded
  | .aes d => .descriptor (encodeDesc d)
  | .xtsAes128 d => .descriptor (encodeDesc d)
  | .des3 d => .descriptor (encodeDesc d)
  | .sha256 d => .descriptor (encodeDesc d)
  | .sha384 d => .descriptor (encodeDesc d)
  | .shaUnsupported d => .descriptor (encodeDesc d)
  | .rsa2048 d => .descriptor (encodeDesc d)
  | .rsa4096 d => .descriptor (encodeDesc d)
  | .rsaSkip d => .descriptor (encodeDesc d)
  | .ptBitwiseUnimpl d => .descriptor (encodeDesc d)
  | .ptCopy d => .descriptor (encodeDesc d)
  | .ptSwap256 d => .descriptor (encodeDesc d)
  | .ptSwapUnimpl d => .descriptor (encodeDesc d)
  | .zlibInflate d => .descriptor (encodeDesc d)
  | .zlibUnimpl d => .descriptor (encodeDesc d)
  | .ecc d => .descriptor (encodeDesc d)
  | .unknownEngine d => .descriptor (encodeDesc d)
  | .mmioBadAccess false offset size => .access (.read offset size)
  | .mmioBadAccess true offset size => .access (.write offset (List.replicate size 0))
  | .globalRd o => read32 (Config.globalBase + o.toNat)
  | .globalWr o v => write32 (Config.globalBase + o.toNat) v
  | .ctrlRd q => read32 (queueRegOffset q Config.regCtrl)
  | .ctrlWr q v => write32 (queueRegOffset q Config.regCtrl) v
  | .tailRd q => read32 (queueRegOffset q Config.regTail)
  | .tailWr q v => write32 (queueRegOffset q Config.regTail) v
  | .headRd q => read32 (queueRegOffset q Config.regHead)
  | .headWr q v => write32 (queueRegOffset q Config.regHead) v
  | .statusRd q => read32 (queueRegOffset q Config.regStatus)
  | .statusWr q v => write32 (queueRegOffset q Config.regStatus) v
  | .queueUnknownReg q r none => read32 (queueRegOffset q r)
  | .queueUnknownReg q r (some v) => write32 (queueRegOffset q r) v
  | .cfgRd o => read32 (Config.cfgBase + o.toNat)
  | .cfgWr o v => write32 (Config.cfgBase + o.toNat) v

/-! ### The opcode table -/

/-- One descriptor row of spec/opcode_table.json: `match` and `mask` over W0, and the constraint on W0 and W1. -/
structure OpcodeRow where
  mnemonic : String
  pattern : Word
  mask : Word
  constraint : Word → Word → Bool

/-- A row holds of a descriptor whose first two words are `w0` and `w1` (30_encoding.md R119). -/
def OpcodeRow.holds (r : OpcodeRow) (w0 w1 : Word) : Bool :=
  w0 &&& r.mask == r.pattern && r.constraint w0 w1

/-- A row with no constraint. -/
def plainRow (mnemonic : String) (pattern mask : Word) : OpcodeRow := ⟨mnemonic, pattern, mask, fun _ _ => true⟩

/-- The 17 descriptor rows of spec/opcode_table.json, in decode order (30_encoding.md R119). -/
def opcodeTable : List OpcodeRow :=
  [ plainRow "AES" 0x00000000 0x00F00000,
    plainRow "XTS_AES_128" 0x00100000 0x00F00000,
    plainRow "DES3" 0x00200000 0x00F00000,
    plainRow "SHA256" 0x00318000 0x00F78000,
    plainRow "SHA384" 0x00320000 0x00F78000,
    ⟨"SHA_UNSUPPORTED", 0x00300000, 0x00F00000,
      fun w0 _ => w0.extractLsb' 15 4 != 3#4 && w0.extractLsb' 15 4 != 4#4⟩,
    ⟨"RSA_2048", 0x00410000, 0x00FFFFE0, fun _ w1 => w1 == 512#32⟩,
    ⟨"RSA_4096", 0x00420000, 0x00FFFFE0, fun _ w1 => w1 == 1024#32⟩,
    plainRow "RSA_SKIP" 0x00400000 0x00F00000,
    ⟨"PT_BITWISE_UNIMPL", 0x00500000, 0x00F00000, fun w0 _ => w0.extractLsb' 7 3 != 0#3⟩,
    plainRow "PT_COPY" 0x00500000 0x00F003E0,
    plainRow "PT_SWAP256" 0x00500040 0x00F003E0,
    plainRow "PT_SWAP_UNIMPL" 0x00500020 0x00F003A0,
    plainRow "ZLIB_INFLATE" 0x00600018 0x00F00018,
    plainRow "ZLIB_UNIMPL" 0x00600000 0x00F00000,
    plainRow "ECC" 0x00700000 0x00F00000,
    plainRow "UNKNOWN_ENGINE" 0x00800000 0x00800000 ]

/-- An instruction's row in spec/opcode_table.json. -/
def Instr.mnemonic : Instr → String
  | .aes _ => "AES"
  | .xtsAes128 _ => "XTS_AES_128"
  | .des3 _ => "DES3"
  | .sha256 _ => "SHA256"
  | .sha384 _ => "SHA384"
  | .shaUnsupported _ => "SHA_UNSUPPORTED"
  | .rsa2048 _ => "RSA_2048"
  | .rsa4096 _ => "RSA_4096"
  | .rsaSkip _ => "RSA_SKIP"
  | .ptBitwiseUnimpl _ => "PT_BITWISE_UNIMPL"
  | .ptCopy _ => "PT_COPY"
  | .ptSwap256 _ => "PT_SWAP256"
  | .ptSwapUnimpl _ => "PT_SWAP_UNIMPL"
  | .zlibInflate _ => "ZLIB_INFLATE"
  | .zlibUnimpl _ => "ZLIB_UNIMPL"
  | .ecc _ => "ECC"
  | .unknownEngine _ => "UNKNOWN_ENGINE"
  | .mmioBadAccess _ _ _ => "MMIO_BAD_ACCESS"
  | .globalRd _ => "GLOBAL_RD"
  | .globalWr _ _ => "GLOBAL_WR"
  | .ctrlRd _ => "CTRL_RD"
  | .ctrlWr _ _ => "CTRL_WR"
  | .tailRd _ => "TAIL_RD"
  | .tailWr _ _ => "TAIL_WR"
  | .headRd _ => "HEAD_RD"
  | .headWr _ _ => "HEAD_WR"
  | .statusRd _ => "STATUS_RD"
  | .statusWr _ _ => "STATUS_WR"
  | .queueUnknownReg _ _ _ => "QUEUE_UNKNOWN_REG"
  | .cfgRd _ => "CFG_RD"
  | .cfgWr _ _ => "CFG_WR"

/-! ### The opcode table's numbering -/

/-- The 32 bytes of a descriptor whose bits are `w`, bit 0 the least significant bit of word 0, bits from `nbits` on
zero. -/
def tableDescBytes (nbits w : Nat) : Bytes := bytesLe (w % 2 ^ nbits) Config.descSize

/-- What the decoder reads from a table word. A descriptor row fixes bits 23:20, so it needs more than 16 bits; a word
of at most 16 bits is taken as the offset of an MMIO row, read with 4 bytes (log entry 18). -/
def decodeTableWord (nbits w : Nat) : Option Instr :=
  if nbits ≤ 16 then (decode (read32 (w % 2 ^ nbits))).toOption
  else (decode (.descriptor (tableDescBytes nbits w))).toOption

end Sys2Proof
end

