-- ==== Sys2Proof/Machine/Flags.lean ====
section
/-! DEFINITION. The flags of the block: bits 0 and 1 of a queue's `control` (10_state.md R22, R27, R28), and the whole
update a drain's completion makes of the word (46_queue.md R286). No descriptor sets a condition code (R28). -/
namespace Sys2Proof.Machine

/-- `run`, bit 0: the run request. -/
def runBit (control : Word) : Bool := control.getLsbD 0

/-- `halt`, bit 1: halted. Nothing in the block reads it (10_state.md R28). -/
def haltBit (control : Word) : Bool := control.getLsbD 1

/-- What a drain's completion makes of `control`: run cleared, halt set, bits 31:2 kept (46_queue.md R286). -/
def completedControl (control : Word) : Word := (control &&& 0xFFFFFFFE) ||| 0x00000002

/-- The queue states of 10_state.md R27, as functions of `control`; `Draining` is never seen between two accesses. -/
inductive QueuePhase where
  | running
  | halted
  | idle
deriving DecidableEq, Repr

/-- The state a queue is in by its `control` (10_state.md R27). -/
def queuePhase (control : Word) : QueuePhase :=
  if runBit control then .running else if haltBit control then .halted else .idle

end Sys2Proof.Machine
end

