-- ==== Sys2Proof/Machine/State.lean ====
section
/-! DEFINITION. The state of one engine instance (10_state.md R20), the platform's state it reaches (guest memory), the
model's own fields that stand for a step's parameters and outputs, and the state after reset (10_state.md R41). -/
namespace Sys2Proof.Machine

/-- The machine's stops. No instruction raises one: "There are no fatal error paths" (60_exceptions.md R340). -/
inductive Fault where
  /-- An access that does not lie in the MMIO window. Raised by `step` for such an access of the host, which the platform
  never delivers (20_memory.md R61, 92_eei_decisions.md D36). Safe. -/
  | accessOutsideWindow (offset size : Nat)
deriving DecidableEq, Repr

/-- The model's refusals. -/
inductive Refusal where
  /-- The instruction has no meaning in the model yet; raised by a refused arm of `exec` alone. Safe. -/
  | notModelled (mnemonic : String)
deriving DecidableEq, Repr

/-- Memory by bytes: addresses strictly rising, no entry equal to `Config.unlistedByte`, which every unlisted address
reads as. -/
abbrev Mem := List Host.Cell

/-- A queue's registers and its constant index (10_state.md R20 to R26). -/
structure Queue where
  control : Word
  tail : Word
  head : Word
  status : Word
  id : Nat
deriving DecidableEq, Repr

/-- The hash types that have a context (10_state.md R33). -/
inductive HashType where
  | sha256
  | sha384
deriving DecidableEq, Repr

/-- The hash streaming context: its type and every byte fed so far (10_state.md R33). -/
structure HashCtx where
  type : HashType
  msg : Bytes
deriving DecidableEq, Repr

/-- The decompression context: an inflate state, by the input fed to it so far (10_state.md R35). -/
structure InflateCtx where
  fed : Bytes
deriving DecidableEq, Repr

/-- The direction of an access that a diagnostic records, with a write's value (60_exceptions.md R341). -/
inductive BusDir where
  | read
  | write (value : Word)
deriving DecidableEq, Repr

/-- The reasons of `UnimplementedFunction`, with the offending value (60_exceptions.md R344). -/
inductive UnimplReason where
  | shaType (t : BitVec 4)
  | ptBitwise (code : BitVec 3)
  | ptByteswap (code : BitVec 2)
  | ptUnalignedSwap (length : Word)
  | zlibStreaming (init eom : Bool)
  | rsaModulusZero
deriving DecidableEq, Repr

/-- The diagnostics of 60_exceptions.md R341, in the order of their codes. -/
inductive DiagEvent where
  | unimplementedEngine (engine : BitVec 4)
  | unknownEngine (engine : BitVec 4)
  | unimplementedFunction (reason : UnimplReason)
  | guestMemoryError (addr requested granted : Nat)
  | scratchBounds (offset length : Nat)
  | unsupportedMemType (mt : MemType)
  | badMmioAccess (offset size : Nat) (isWrite : Bool)
  | partialOutput (addr requested granted : Nat)
  | globalControlAccess (offset : Nat) (dir : BusDir)
  | unknownRegister (offset : Nat) (dir : BusDir)
deriving DecidableEq, Repr

/-- One entry of `DIAG`: the event and the queue id where there is one (60_exceptions.md R341). -/
structure DiagEntry where
  queue : Option Nat
  event : DiagEvent
deriving DecidableEq, Repr

/-- What reaches the block from outside between two steps: an MMIO access, a device reset (00_scope.md R18), or a byte
the platform stores in guest memory (R18: the content of guest memory before an access is a parameter of the step). -/
inductive HostEvent where
  | access (a : Access)
  | reset
  | guestStore (addr : BitVec 48) (value : Byte)
deriving DecidableEq, Repr

/-- The state. The first five fields are the block's (10_state.md R20), `gm` is the platform's guest memory, the others
are the model's own (INVENTORY.md). -/
structure State where
  /-- `Q[0 .. N_QUEUES-1]` (R21). -/
  queues : Vector Queue Config.nQueues
  /-- The scratch store `LSB`, by byte offset (R30). -/
  lsb : Mem
  /-- `HCTX` (R33). -/
  hctx : Option HashCtx
  /-- `ZCTX` (R35). -/
  zctx : Option InflateCtx
  /-- `DIAG`, oldest first (R37). -/
  diag : List DiagEntry
  /-- `GM`, guest memory (20_memory.md R62). -/
  gm : Mem
  /-- The platform's next answers to mapping requests (20_memory.md R66). -/
  mapAnswers : List Nat
  /-- How many mapping requests have been made. -/
  mapCalls : Nat
  /-- The queue whose drain is in progress; none between accesses (10_state.md R27). -/
  draining : Option QId
  /-- The coming events, oldest first. -/
  host : List HostEvent
  /-- The bytes the last access returned, in offset order; none for a write (47_mmio.md R317). -/
  busData : Bytes
deriving DecidableEq, Repr

/-- A queue after reset (10_state.md R22 to R26). -/
def Queue.reset (id : Nat) : Queue :=
  { control := Config.ctrlHalt, tail := 0, head := 0, status := Config.statusSuccess, id := id }

/-- `LSB_RESET`: all zero by the spec's default (00_scope.md R8; log entry 3). -/
def Mem.lsbReset : Mem := []

/-- The state after reset (10_state.md R41, 70_reset_and_hazards.md R380); the model's own fields are empty, and guest
memory lists nothing (log entries 1, 2, 4, 5). -/
def State.reset : State :=
  { queues := Vector.ofFn fun q => Queue.reset q.val
    lsb := Mem.lsbReset
    hctx := none
    zctx := none
    diag := []
    gm := []
    mapAnswers := []
    mapCalls := 0
    draining := none
    host := []
    busData := [] }

end Sys2Proof.Machine
end

