-- ==== Sys2Proof/Machine/Ops.lean ====
section
/-! DEFINITION. The named operations: memory by bytes, queue registers, diagnostics (the block's only exceptions,
00_scope.md R14, 60_exceptions.md R340, R356), the guest-memory capability (20_memory.md R66) and the memory-access shim
(40_shim_scratch.md R150 to R159). -/
namespace Sys2Proof.Machine

/-! ### Memory by bytes -/

/-- The byte at address `a`; an unlisted address reads as `Config.unlistedByte`. -/
def Mem.get : Mem → Nat → Byte
  | [], _ => Config.unlistedByte
  | (k, v) :: rest, a => if k = a then v else Mem.get rest a

/-- The memory in front of which `(a, b)` is put, unless `b` is what an unlisted address reads as. -/
def Mem.cons (a : Nat) (b : Byte) (m : Mem) : Mem := if b = Config.unlistedByte then m else (a, b) :: m

/-- Write byte `b` at address `a`, keeping the canonical form. -/
def Mem.set : Mem → Nat → Byte → Mem
  | [], a, b => Mem.cons a b []
  | (k, v) :: rest, a, b =>
    if a < k then Mem.cons a b ((k, v) :: rest)
    else if k = a then Mem.cons a b rest
    else (k, v) :: Mem.set rest a b

/-- The canonical form below a bound: addresses strictly rising from `low` on and below `limit`, no entry equal to what
an unlisted address reads as. -/
def Mem.wfFrom (limit : Nat) : Nat → Mem → Bool
  | _, [] => true
  | low, (k, v) :: rest => decide (low ≤ k ∧ k < limit ∧ v ≠ Config.unlistedByte) && Mem.wfFrom limit (k + 1) rest

/-- The canonical form of a memory of `limit` bytes. -/
def Mem.wf (limit : Nat) (m : Mem) : Bool := Mem.wfFrom limit 0 m

/-- `m[a +: n]` (00_scope.md R11, R12). -/
def Mem.read (m : Mem) (a : Nat) : Nat → Bytes
  | 0 => []
  | n + 1 => m.get a :: Mem.read m (a + 1) n

/-- `m[a +: n] <- bs` for the `n` bytes `bs`. -/
def Mem.write (m : Mem) (a : Nat) : Bytes → Mem
  | [] => m
  | b :: bs => Mem.write (m.set a b) (a + 1) bs

/-! ### Queue registers -/

/-- `Q[q]`. -/
def State.queue (s : State) (q : QId) : Queue := s.queues[q.val]

/-- `Q[q]` replaced. -/
def State.setQueue (s : State) (q : QId) (r : Queue) : State := { s with queues := s.queues.set q.val r }

/-- `Q[q].control <- v` (10_state.md R22). -/
def State.setControl (s : State) (q : QId) (v : Word) : State := s.setQueue q { s.queue q with control := v }

/-- `Q[q].tail <- v` (10_state.md R23). -/
def State.setTail (s : State) (q : QId) (v : Word) : State := s.setQueue q { s.queue q with tail := v }

/-- `Q[q].head <- v` (10_state.md R24). -/
def State.setHead (s : State) (q : QId) (v : Word) : State := s.setQueue q { s.queue q with head := v }

/-- `Q[q].status <- v` (10_state.md R25). -/
def State.setStatus (s : State) (q : QId) (v : Word) : State := s.setQueue q { s.queue q with status := v }

/-! ### Diagnostics -/

/-- The code of a diagnostic (60_exceptions.md R341). -/
def DiagEvent.code : DiagEvent → Nat
  | .unimplementedEngine _ => 1
  | .unknownEngine _ => 2
  | .unimplementedFunction _ => 3
  | .guestMemoryError _ _ _ => 4
  | .scratchBounds _ _ => 5
  | .unsupportedMemType _ => 6
  | .badMmioAccess _ _ _ => 7
  | .partialOutput _ _ _ => 8
  | .globalControlAccess _ _ => 9
  | .unknownRegister _ _ => 10

/-- The queue id a diagnostic records: that of the queue whose drain is in progress, none for the MMIO front-end
(60_exceptions.md R341). -/
def State.diagQueue (s : State) : Option Nat := s.draining.map fun q => (s.queue q).id

/-- `diag K(info)`: the event is appended to `DIAG` (00_scope.md R14). This is all that taking an exception does in this
block (60_exceptions.md R356); there is no return from one (R357). -/
def State.diagnose (s : State) (e : DiagEvent) : State := { s with diag := s.diag ++ [⟨s.diagQueue, e⟩] }

/-- `raise K(info)`: the event is appended and the current operation ends (00_scope.md R14); the caller sees the event
in place of a result. -/
def raise {α : Type} (e : DiagEvent) (s : State) : Except DiagEvent α × State := (.error e, s.diagnose e)

/-- The tagged result of executing a descriptor (00_scope.md R14, 60_exceptions.md R365); nothing stores or reads it
(41_decode_dispatch.md R183). -/
inductive OpResult where
  | applied
  | skipped (reason : Option DiagEvent)
  | memFault (reason : DiagEvent)
deriving DecidableEq, Repr

/-- The result a diagnostic gives: codes 1, 2, 3 `Skipped`, codes 4, 5, 6 `MemFault` (60_exceptions.md R365). -/
def OpResult.ofEvent (e : DiagEvent) : OpResult :=
  if e.code ≤ 3 then .skipped (some e) else .memFault e

/-- `diag K(info); return Skipped`: what a descriptor recognised as unimplemented does (60_exceptions.md R340, skip). -/
def skipWith (e : DiagEvent) (s : State) : OpResult × State := (.skipped (some e), s.diagnose e)

/-! ### The guest-memory capability -/

/-- The platform's answer to a mapping request: the next of `mapAnswers`, and a free value where they have run out. -/
def State.nextAnswer (s : State) (addr len : Nat) (writable : Bool) : Nat :=
  s.mapAnswers.headD (Config.guestMapAnswer s.mapCalls addr len writable)

/-- `GuestMap(addr, len, writable)` (20_memory.md R66): how many bytes from `addr` on the platform grants, at most `len`
and never past `2^48`. Nothing else is assumed of the answer (92_eei_decisions.md D38; log entry 1). -/
def guestMap (addr len : Nat) (writable : Bool) (s : State) : Nat × State :=
  (min (s.nextAnswer addr len writable) (min len (Config.guestLimit - addr)),
   { s with mapAnswers := s.mapAnswers.tail, mapCalls := s.mapCalls + 1 })

/-! ### The scratch store -/

/-- `ScratchOk(o, n)` (40_shim_scratch.md R150), on natural numbers. -/
def scratchOk (o n : Nat) : Bool := decide (o + n ≤ Config.lsbSize)

/-- `SlotOffset(id)` (40_shim_scratch.md R156). -/
def slotOffset (id : BitVec 8) : Nat := id.toNat * Config.slotSize

/-- `LsbWriteSlot(id, b)` (40_shim_scratch.md R156): all or nothing. -/
def lsbWriteSlot (id : BitVec 8) (b : Bytes) (s : State) : Except DiagEvent Unit × State :=
  if scratchOk (slotOffset id) b.length then (.ok (), { s with lsb := s.lsb.write (slotOffset id) b })
  else raise (.scratchBounds (slotOffset id) b.length) s

/-! ### The shim -/

/-- `MemRead(mt, addr, n)` (40_shim_scratch.md R151, R152, R155, R158). -/
def memRead (mt : MemType) (addr n : Nat) (s : State) : Except DiagEvent Bytes × State :=
  match mt with
  | .system => raise (.unsupportedMemType .system) s
  | .unnamed => raise (.unsupportedMemType .unnamed) s
  | .scratch => if scratchOk addr n then (.ok (s.lsb.read addr n), s) else raise (.scratchBounds addr n) s
  | .loc =>
    if n = 0 then (.ok [], s)
    else
      let g := guestMap addr n false s
      if g.1 < n then raise (.guestMemoryError addr n g.1) g.2 else (.ok (g.2.gm.read addr n), g.2)

/-- `MemWrite(mt, addr, n, v)` for the `n` bytes `v` (40_shim_scratch.md R151, R153, R155, R158): all or nothing. -/
def memWrite (mt : MemType) (addr : Nat) (v : Bytes) (s : State) : Except DiagEvent Unit × State :=
  match mt with
  | .system => raise (.unsupportedMemType .system) s
  | .unnamed => raise (.unsupportedMemType .unnamed) s
  | .scratch =>
    if scratchOk addr v.length then (.ok (), { s with lsb := s.lsb.write addr v })
    else raise (.scratchBounds addr v.length) s
  | .loc =>
    if v.length = 0 then (.ok (), s)
    else
      let g := guestMap addr v.length true s
      if g.1 < v.length then raise (.guestMemoryError addr v.length g.1) g.2
      else (.ok (), { g.2 with gm := g.2.gm.write addr v })

/-- `MemMapW(mt, addr, n)` (40_shim_scratch.md R154): the number of bytes that may be written at `addr`; a short grant
is a warning. -/
def memMapW (mt : MemType) (addr n : Nat) (s : State) : Except DiagEvent Nat × State :=
  match mt with
  | .system => raise (.unsupportedMemType .system) s
  | .unnamed => raise (.unsupportedMemType .unnamed) s
  | .scratch => if scratchOk addr n then (.ok n, s) else (.ok 0, s.diagnose (.scratchBounds addr n))
  | .loc =>
    let g := guestMap addr n true s
    if g.1 < n then (.ok g.1, g.2.diagnose (.partialOutput addr n g.1)) else (.ok g.1, g.2)

/-- Writing bytes at the front of a view `memMapW` granted (40_shim_scratch.md R154). -/
def writeGranted (mt : MemType) (addr : Nat) (v : Bytes) (s : State) : State :=
  match mt with
  | .scratch => { s with lsb := s.lsb.write addr v }
  | .loc => { s with gm := s.gm.write addr v }
  | .system => s
  | .unnamed => s

/-! ### The bus -/

/-- A read returns a 32-bit value, least significant byte first (47_mmio.md R317). -/
def State.respond (s : State) (v : Word) : State := { s with busData := wordBytes v }

/-- A write completes and returns nothing (92_eei_decisions.md D46). -/
def State.acknowledge (s : State) : State := { s with busData := [] }

end Sys2Proof.Machine
end

