-- ==== Sys2Proof/Machine/NoOp.lean ====
section
/-! DEFINITION. The no-op routes of the dispatcher: the engines the source leaves unimplemented and the codes that name
no engine (41_decode_dispatch.md R185 to R189, R193). Each logs one diagnostic and does nothing else. -/
namespace Sys2Proof.Machine

/-- AES (41_decode_dispatch.md R186). -/
def aesEffect (_d : Desc) (s : State) : OpResult × State := skipWith (.unimplementedEngine Config.engAes) s

/-- XTS_AES_128 (41_decode_dispatch.md R187). -/
def xtsAes128Effect (_d : Desc) (s : State) : OpResult × State := skipWith (.unimplementedEngine Config.engXts) s

/-- DES3 (41_decode_dispatch.md R188). -/
def des3Effect (_d : Desc) (s : State) : OpResult × State := skipWith (.unimplementedEngine Config.engDes3) s

/-- ECC (41_decode_dispatch.md R189). -/
def eccEffect (_d : Desc) (s : State) : OpResult × State := skipWith (.unimplementedEngine Config.engEcc) s

/-- UNKNOWN_ENGINE (41_decode_dispatch.md R193): records the descriptor's engine code. -/
def unknownEngineEffect (d : Desc) (s : State) : OpResult × State := skipWith (.unknownEngine d.engine) s

/-- The meaning of AES. -/
def execAes (d : Desc) (s : State) : Host.Outcome State Fault Refusal := .next (aesEffect d s).2

/-- The meaning of XTS_AES_128. -/
def execXtsAes128 (d : Desc) (s : State) : Host.Outcome State Fault Refusal := .next (xtsAes128Effect d s).2

/-- The meaning of DES3. -/
def execDes3 (d : Desc) (s : State) : Host.Outcome State Fault Refusal := .next (des3Effect d s).2

/-- The meaning of ECC. -/
def execEcc (d : Desc) (s : State) : Host.Outcome State Fault Refusal := .next (eccEffect d s).2

/-- The meaning of UNKNOWN_ENGINE. -/
def execUnknownEngine (d : Desc) (s : State) : Host.Outcome State Fault Refusal := .next (unknownEngineEffect d s).2

end Sys2Proof.Machine
end

