-- ==== Sys2Proof/Machine/Passthru.lean ====
section
/-! DEFINITION. The PASSTHRU engine (44_passthru.md R240 to R248): a guarded copy between two ranges, optionally with the
byte order reversed. -/
namespace Sys2Proof.Machine

/-- The per-block reading of the 256-bit swap, for `n` blocks: each block of 32 bytes is reversed in place
(44_passthru.md R244, `PT_SWAP256_WHOLE = false`). -/
def swapBlocks : Nat → Bytes → Bytes
  | 0, _ => []
  | n + 1, data => (data.take 32).reverse ++ swapBlocks n (data.drop 32)

/-- `Swap256(data)` under the value `whole` of `PT_SWAP256_WHOLE` (44_passthru.md R244). -/
def swap256 (whole : Bool) (data : Bytes) : Bytes :=
  if whole then data.reverse else swapBlocks (data.length / 32) data

/-- The copy (44_passthru.md R241, R242): the source is read in full, transformed, and written in full. -/
def ptTransfer (f : Bytes → Bytes) (d : Desc) (s : State) : OpResult × State :=
  match memRead d.srcMem d.src.toNat d.length.toNat s with
  | (.error e, s1) => (.ofEvent e, s1)
  | (.ok data, s1) =>
    match memWrite d.dstMem d.dst.toNat (f data) s1 with
    | (.error e, s2) => (.ofEvent e, s2)
    | (.ok _, s2) => (.applied, s2)

/-- PT_BITWISE_UNIMPL (44_passthru.md R246): tested first; the key operand is never read. -/
def ptBitwiseUnimplEffect (d : Desc) (s : State) : OpResult × State :=
  skipWith (.unimplementedFunction (.ptBitwise d.bitwise)) s

/-- PT_COPY (44_passthru.md R243): a byte-exact copy. -/
def ptCopyEffect (d : Desc) (s : State) : OpResult × State := ptTransfer id d s

/-- PT_SWAP256 under a value of `PT_SWAP256_WHOLE` (44_passthru.md R244): a length that is no multiple of 32 is rejected
before any memory access. -/
def ptSwap256With (whole : Bool) (d : Desc) (s : State) : OpResult × State :=
  if d.length.toNat % 32 ≠ 0 then skipWith (.unimplementedFunction (.ptUnalignedSwap d.length)) s
  else ptTransfer (swap256 whole) d s

/-- PT_SWAP256 at the spec's parameter value (44_passthru.md R244, 90_conflicts.md C2). -/
def ptSwap256Effect (d : Desc) (s : State) : OpResult × State := ptSwap256With Config.ptSwap256Whole d s

/-- PT_SWAP_UNIMPL (44_passthru.md R245): byteswap codes 1 and 3. -/
def ptSwapUnimplEffect (d : Desc) (s : State) : OpResult × State :=
  skipWith (.unimplementedFunction (.ptByteswap d.byteswap)) s

/-- The meaning of PT_BITWISE_UNIMPL. -/
def execPtBitwiseUnimpl (d : Desc) (s : State) : Host.Outcome State Fault Refusal := .next (ptBitwiseUnimplEffect d s).2

/-- The meaning of PT_COPY. -/
def execPtCopy (d : Desc) (s : State) : Host.Outcome State Fault Refusal := .next (ptCopyEffect d s).2

/-- The meaning of PT_SWAP256. -/
def execPtSwap256 (d : Desc) (s : State) : Host.Outcome State Fault Refusal := .next (ptSwap256Effect d s).2

/-- The meaning of PT_SWAP_UNIMPL. -/
def execPtSwapUnimpl (d : Desc) (s : State) : Host.Outcome State Fault Refusal := .next (ptSwapUnimplEffect d s).2

end Sys2Proof.Machine
end

