-- ==== Sys2Proof/Machine/Rsa.lean ====
section
/-! DEFINITION. The RSA engine (43_rsa.md R220 to R229): one modular exponentiation with operands read from memory and
the result written back. -/
namespace Sys2Proof.Machine

/-- `MODEXP(m, e, n) = m^e mod n` on natural numbers (00_scope.md R9, 43_rsa.md R224). -/
def modexp (m e n : Nat) : Nat := m ^ e % n

/-- The computation and the write, once the operands are read (43_rsa.md R223 to R226). -/
def rsaFinish (d : Desc) (size : Nat) (e n m : Bytes) (s : State) : OpResult × State :=
  if natLe n = 0 then
    skipWith (.unimplementedFunction .rsaModulusZero) s
  else
    match memWrite d.dstMem d.dst.toNat (bytesLe (modexp (natLe m) (natLe e) (natLe n)) size) s with
    | (.error ev, s') => (.ofEvent ev, s')
    | (.ok _, s') => (.applied, s')

/-- The engine for operands of `size` bytes (43_rsa.md R220, R222): exponent, modulus and message are read in this
order, the first failure ends the operation, and the result is written last. -/
def rsaEngine (size : Nat) (d : Desc) (s : State) : OpResult × State :=
  match memRead d.keyMem d.key.toNat size s with
  | (.error ev, s1) => (.ofEvent ev, s1)
  | (.ok e, s1) =>
    match memRead d.srcMem d.src.toNat size s1 with
    | (.error ev, s2) => (.ofEvent ev, s2)
    | (.ok n, s2) =>
      match memRead d.srcMem (d.src.toNat + size) size s2 with
      | (.error ev, s3) => (.ofEvent ev, s3)
      | (.ok m, s3) => rsaFinish d size e n m s3

/-- RSA_2048 (43_rsa.md R220 with `size = 256`). -/
def rsa2048Effect (d : Desc) (s : State) : OpResult × State := rsaEngine 256 d s

/-- RSA_4096 (43_rsa.md R220 with `size = 512`). -/
def rsa4096Effect (d : Desc) (s : State) : OpResult × State := rsaEngine 512 d s

/-- RSA_SKIP (43_rsa.md R227): silently skipped, no diagnostic, no memory access. -/
def rsaSkipEffect (_d : Desc) (s : State) : OpResult × State := (.skipped none, s)

/-- The meaning of RSA_2048. -/
def execRsa2048 (d : Desc) (s : State) : Host.Outcome State Fault Refusal := .next (rsa2048Effect d s).2

/-- The meaning of RSA_4096. -/
def execRsa4096 (d : Desc) (s : State) : Host.Outcome State Fault Refusal := .next (rsa4096Effect d s).2

/-- The meaning of RSA_SKIP. -/
def execRsaSkip (d : Desc) (s : State) : Host.Outcome State Fault Refusal := .next (rsaSkipEffect d s).2

end Sys2Proof.Machine
end

