-- ==== Sys2Proof/Machine/Sha2.lean ====
section
/-! DEFINITION. The hash primitives `SHA256` and `SHA384` of 00_scope.md R9: one-shot digests of a byte string,
most significant digest byte first. The spec names the two functions and says they are those of FIPS 180-4
(92_eei_decisions.md D31, 93_implementation_defined.md G9); their text here is taken from that standard:
PRESUMED, log entry 9. -/
namespace Sys2Proof.Machine

/-- The parameters of one SHA-2 word size: rotation counts of the two schedule functions (two rotations and a
shift) and of the two round functions (three rotations), and the round constants. -/
structure Sha2 (w : Nat) where
  sig0 : Nat × Nat × Nat
  sig1 : Nat × Nat × Nat
  sum0 : Nat × Nat × Nat
  sum1 : Nat × Nat × Nat
  k : List (BitVec w)

/-- The eight working words of a SHA-2 digest. -/
structure Sha2Words (w : Nat) where
  (a b c d e f g h : BitVec w)
deriving DecidableEq, Repr

/-- The round constants of SHA-256: the first 32 fraction bits of the cube roots of the first 64 primes. -/
def sha256K : List (BitVec 32) :=
  [0x428a2f98#32, 0x71374491#32, 0xb5c0fbcf#32, 0xe9b5dba5#32, 0x3956c25b#32, 0x59f111f1#32, 0x923f82a4#32, 0xab1c5ed5#32,
   0xd807aa98#32, 0x12835b01#32, 0x243185be#32, 0x550c7dc3#32, 0x72be5d74#32, 0x80deb1fe#32, 0x9bdc06a7#32, 0xc19bf174#32,
   0xe49b69c1#32, 0xefbe4786#32, 0x0fc19dc6#32, 0x240ca1cc#32, 0x2de92c6f#32, 0x4a7484aa#32, 0x5cb0a9dc#32, 0x76f988da#32,
   0x983e5152#32, 0xa831c66d#32, 0xb00327c8#32, 0xbf597fc7#32, 0xc6e00bf3#32, 0xd5a79147#32, 0x06ca6351#32, 0x14292967#32,
   0x27b70a85#32, 0x2e1b2138#32, 0x4d2c6dfc#32, 0x53380d13#32, 0x650a7354#32, 0x766a0abb#32, 0x81c2c92e#32, 0x92722c85#32,
   0xa2bfe8a1#32, 0xa81a664b#32, 0xc24b8b70#32, 0xc76c51a3#32, 0xd192e819#32, 0xd6990624#32, 0xf40e3585#32, 0x106aa070#32,
   0x19a4c116#32, 0x1e376c08#32, 0x2748774c#32, 0x34b0bcb5#32, 0x391c0cb3#32, 0x4ed8aa4a#32, 0x5b9cca4f#32, 0x682e6ff3#32,
   0x748f82ee#32, 0x78a5636f#32, 0x84c87814#32, 0x8cc70208#32, 0x90befffa#32, 0xa4506ceb#32, 0xbef9a3f7#32, 0xc67178f2#32]

/-- The first 40 round constants of SHA-512 and SHA-384 (cube roots of the first 80 primes, 64 fraction bits). -/
def sha512K1 : List (BitVec 64) :=
  [0x428a2f98d728ae22#64, 0x7137449123ef65cd#64, 0xb5c0fbcfec4d3b2f#64, 0xe9b5dba58189dbbc#64,
   0x3956c25bf348b538#64, 0x59f111f1b605d019#64, 0x923f82a4af194f9b#64, 0xab1c5ed5da6d8118#64,
   0xd807aa98a3030242#64, 0x12835b0145706fbe#64, 0x243185be4ee4b28c#64, 0x550c7dc3d5ffb4e2#64,
   0x72be5d74f27b896f#64, 0x80deb1fe3b1696b1#64, 0x9bdc06a725c71235#64, 0xc19bf174cf692694#64,
   0xe49b69c19ef14ad2#64, 0xefbe4786384f25e3#64, 0x0fc19dc68b8cd5b5#64, 0x240ca1cc77ac9c65#64,
   0x2de92c6f592b0275#64, 0x4a7484aa6ea6e483#64, 0x5cb0a9dcbd41fbd4#64, 0x76f988da831153b5#64,
   0x983e5152ee66dfab#64, 0xa831c66d2db43210#64, 0xb00327c898fb213f#64, 0xbf597fc7beef0ee4#64,
   0xc6e00bf33da88fc2#64, 0xd5a79147930aa725#64, 0x06ca6351e003826f#64, 0x142929670a0e6e70#64,
   0x27b70a8546d22ffc#64, 0x2e1b21385c26c926#64, 0x4d2c6dfc5ac42aed#64, 0x53380d139d95b3df#64,
   0x650a73548baf63de#64, 0x766a0abb3c77b2a8#64, 0x81c2c92e47edaee6#64, 0x92722c851482353b#64]

/-- The last 40 round constants of SHA-512 and SHA-384. -/
def sha512K2 : List (BitVec 64) :=
  [0xa2bfe8a14cf10364#64, 0xa81a664bbc423001#64, 0xc24b8b70d0f89791#64, 0xc76c51a30654be30#64,
   0xd192e819d6ef5218#64, 0xd69906245565a910#64, 0xf40e35855771202a#64, 0x106aa07032bbd1b8#64,
   0x19a4c116b8d2d0c8#64, 0x1e376c085141ab53#64, 0x2748774cdf8eeb99#64, 0x34b0bcb5e19b48a8#64,
   0x391c0cb3c5c95a63#64, 0x4ed8aa4ae3418acb#64, 0x5b9cca4f7763e373#64, 0x682e6ff3d6b2b8a3#64,
   0x748f82ee5defb2fc#64, 0x78a5636f43172f60#64, 0x84c87814a1f0ab72#64, 0x8cc702081a6439ec#64,
   0x90befffa23631e28#64, 0xa4506cebde82bde9#64, 0xbef9a3f7b2c67915#64, 0xc67178f2e372532b#64,
   0xca273eceea26619c#64, 0xd186b8c721c0c207#64, 0xeada7dd6cde0eb1e#64, 0xf57d4f7fee6ed178#64,
   0x06f067aa72176fba#64, 0x0a637dc5a2c898a6#64, 0x113f9804bef90dae#64, 0x1b710b35131c471b#64,
   0x28db77f523047d84#64, 0x32caab7b40c72493#64, 0x3c9ebe0a15c9bebc#64, 0x431d67c49c100d4c#64,
   0x4cc5d4becb3e42b6#64, 0x597f299cfc657e2a#64, 0x5fcb6fab3ad6faec#64, 0x6c44198c4a475817#64]

/-- The initial words of SHA-256: the square roots of the first eight primes. -/
def sha256Init : Sha2Words 32 :=
  ⟨0x6a09e667#32, 0xbb67ae85#32, 0x3c6ef372#32, 0xa54ff53a#32, 0x510e527f#32, 0x9b05688c#32, 0x1f83d9ab#32, 0x5be0cd19#32⟩

/-- The initial words of SHA-384: the square roots of the ninth to sixteenth primes. -/
def sha384Init : Sha2Words 64 :=
  ⟨0xcbbb9d5dc1059ed8#64, 0x629a292a367cd507#64, 0x9159015a3070dd17#64, 0x152fecd8f70e5939#64,
   0x67332667ffc00b31#64, 0x8eb44a8768581511#64, 0xdb0c2e0d64f98fa7#64, 0x47b5481dbefa4fa4#64⟩

/-- The 32-bit SHA-2 parameters (SHA-256). -/
def sha2P32 : Sha2 32 :=
  { sig0 := (7, 18, 3), sig1 := (17, 19, 10), sum0 := (2, 13, 22), sum1 := (6, 11, 25), k := sha256K }

/-- The 64-bit SHA-2 parameters (SHA-384). -/
def sha2P64 : Sha2 64 :=
  { sig0 := (1, 8, 7), sig1 := (19, 61, 6), sum0 := (28, 34, 39), sum1 := (14, 18, 41), k := sha512K1 ++ sha512K2 }

/-- A schedule function: two rotations and a shift to the right, combined by exclusive or. -/
def sha2Sigma {w : Nat} (r : Nat × Nat × Nat) (x : BitVec w) : BitVec w :=
  x.rotateRight r.1 ^^^ x.rotateRight r.2.1 ^^^ (x >>> r.2.2)

/-- A round function: three rotations to the right, combined by exclusive or. -/
def sha2Sum {w : Nat} (r : Nat × Nat × Nat) (x : BitVec w) : BitVec w :=
  x.rotateRight r.1 ^^^ x.rotateRight r.2.1 ^^^ x.rotateRight r.2.2

/-- One round with round constant `k` and schedule word `x`. -/
def sha2Round {w : Nat} (p : Sha2 w) (k x : BitVec w) (s : Sha2Words w) : Sha2Words w :=
  let t1 := s.h + sha2Sum p.sum1 s.e + ((s.e &&& s.f) ^^^ (~~~s.e &&& s.g)) + k + x
  let t2 := sha2Sum p.sum0 s.a + ((s.a &&& s.b) ^^^ (s.a &&& s.c) ^^^ (s.b &&& s.c))
  ⟨t1 + t2, s.a, s.b, s.c, s.d + t1, s.e, s.f, s.g⟩

/-- The schedule's next word, from a window of the last sixteen words. -/
def sha2Next {w : Nat} (p : Sha2 w) (win : List (BitVec w)) : BitVec w :=
  sha2Sigma p.sig1 (win.getD 14 0) + win.getD 9 0 + sha2Sigma p.sig0 (win.getD 1 0) + win.getD 0 0

/-- The rounds of one block: for each round constant, one round with the window's first word, and the window moves
on by one word. -/
def sha2Rounds {w : Nat} (p : Sha2 w) : List (BitVec w) → List (BitVec w) → Sha2Words w → Sha2Words w
  | [], _, s => s
  | k :: ks, win, s =>
    sha2Rounds p ks (win.drop 1 ++ [sha2Next p win]) (sha2Round p k (win.getD 0 0) s)

/-- One block of sixteen words: the rounds, then the word-wise sum with the words before the block. -/
def sha2Block {w : Nat} (p : Sha2 w) (s : Sha2Words w) (block : List (BitVec w)) : Sha2Words w :=
  let t := sha2Rounds p p.k block s
  ⟨s.a + t.a, s.b + t.b, s.c + t.c, s.d + t.d, s.e + t.e, s.f + t.f, s.g + t.g, s.h + t.h⟩

/-- The word of `w` bits whose bytes, most significant first, are `bs`. -/
def beWord (w : Nat) (bs : Bytes) : BitVec w :=
  BitVec.ofNat w (bs.foldl (fun n b => n * 256 + b.toNat) 0)

/-- The lowest `n` bytes of the number `v`, most significant first. -/
def beBytes : Nat → Nat → Bytes
  | 0, _ => []
  | n + 1, v => beBytes n (v / 256) ++ [BitVec.ofNat 8 v]

/-- The padded message: `0x80`, zeros, and the message's length in bits in the last `lenBytes` bytes, to a multiple
of `blockBytes`. -/
def sha2Pad (blockBytes lenBytes : Nat) (msg : Bytes) : Bytes :=
  let used := msg.length + 1 + lenBytes
  let zeros := (blockBytes - used % blockBytes) % blockBytes
  msg ++ 0x80#8 :: (List.replicate zeros 0#8 ++ beBytes lenBytes (8 * msg.length))

/-- The words of a block, most significant byte first: `n` words of `size` bytes. -/
def sha2BlockWords (w size : Nat) : Nat → Bytes → List (BitVec w)
  | 0, _ => []
  | n + 1, bs => beWord w (bs.take size) :: sha2BlockWords w size n (bs.drop size)

/-- The blocks of a padded message, `n` of them, folded into the working words. -/
def sha2Fold {w : Nat} (p : Sha2 w) (size : Nat) : Nat → Bytes → Sha2Words w → Sha2Words w
  | 0, _, s => s
  | n + 1, bs, s => sha2Fold p size n (bs.drop (16 * size)) (sha2Block p s (sha2BlockWords w size 16 bs))

/-- The SHA-256 digest of a byte string, 32 bytes, most significant digest byte first (00_scope.md R9); of a message
longer than the standard's length field, a free value (log entry 9). -/
def sha256 (msg : Bytes) : Bytes :=
  if msg.length < 2 ^ 61 then
    let padded := sha2Pad 64 8 msg
    let s := sha2Fold sha2P32 4 (padded.length / 64) padded sha256Init
    [s.a, s.b, s.c, s.d, s.e, s.f, s.g, s.h].flatMap (fun x => beBytes 4 x.toNat)
  else beBytes 32 (Config.sha256Overlong msg).toNat

/-- The SHA-384 digest of a byte string, 48 bytes, most significant digest byte first (00_scope.md R9); of a message
longer than the standard's length field, a free value (log entry 9). -/
def sha384 (msg : Bytes) : Bytes :=
  if msg.length < 2 ^ 125 then
    let padded := sha2Pad 128 16 msg
    let s := sha2Fold sha2P64 8 (padded.length / 128) padded sha384Init
    [s.a, s.b, s.c, s.d, s.e, s.f].flatMap (fun x => beBytes 8 x.toNat)
  else beBytes 48 (Config.sha384Overlong msg).toNat

end Sys2Proof.Machine
end

