-- ==== Sys2Proof/Machine/Sha.lean ====
section
/-! DEFINITION. The SHA engine (42_hash.md R200 to R214): bytes of a source range are fed to the one shared context; on
`eom` the byte-reversed digest is written to a scratch slot and the context is destroyed. -/
namespace Sys2Proof.Machine

/-- The digest of a message by a context's type (42_hash.md R205). -/
def digest : HashType → Bytes → Bytes
  | .sha256, msg => sha256 msg
  | .sha384, msg => sha384 msg

/-- Step 1 (42_hash.md R202): the live context as it is, or a new one of the descriptor's type, whatever `init` is. -/
def hashCtxOr (t : HashType) (s : State) : HashCtx := s.hctx.getD ⟨t, []⟩

/-- Step 4 (42_hash.md R205, R206): on `eom` the context is destroyed and the reversed digest of its message, by the
context's own type, is written to the slot; else the context stays. -/
def hashFinish (d : Desc) (ctx : HashCtx) (s : State) : OpResult × State :=
  if d.eom then
    match lsbWriteSlot d.ctxId (digest ctx.type ctx.msg).reverse { s with hctx := none } with
    | (.error e, s') => (.ofEvent e, s')
    | (.ok _, s') => (.applied, s')
  else (.applied, { s with hctx := some ctx })

/-- The engine for a supported type `t` (42_hash.md R200): context, source read, feed, finish. A failed read ends the
operation and leaves the context of step 1 alive (R203). -/
def shaEngine (t : HashType) (d : Desc) (s : State) : OpResult × State :=
  let ctx := hashCtxOr t s
  match memRead d.srcMem d.src.toNat d.length.toNat { s with hctx := some ctx } with
  | (.error e, s') => (.ofEvent e, s')
  | (.ok data, s') => hashFinish d { ctx with msg := ctx.msg ++ data } s'

/-- SHA256 (42_hash.md R200 with `sha_type = 3`). -/
def sha256Effect (d : Desc) (s : State) : OpResult × State := shaEngine .sha256 d s

/-- SHA384 (42_hash.md R200 with `sha_type = 4`). -/
def sha384Effect (d : Desc) (s : State) : OpResult × State := shaEngine .sha384 d s

/-- SHA_UNSUPPORTED (42_hash.md R208): a no-op with a diagnostic, before any context or memory action (R201). -/
def shaUnsupportedEffect (d : Desc) (s : State) : OpResult × State :=
  skipWith (.unimplementedFunction (.shaType d.shaType)) s

/-- The meaning of SHA256. -/
def execSha256 (d : Desc) (s : State) : Host.Outcome State Fault Refusal := .next (sha256Effect d s).2

/-- The meaning of SHA384. -/
def execSha384 (d : Desc) (s : State) : Host.Outcome State Fault Refusal := .next (sha384Effect d s).2

/-- The meaning of SHA_UNSUPPORTED. -/
def execShaUnsupported (d : Desc) (s : State) : Host.Outcome State Fault Refusal := .next (shaUnsupportedEffect d s).2

end Sys2Proof.Machine
end

