-- ==== Sys2Proof/Machine/Inflate.lean ====
section
/-! DEFINITION. The primitive `INFLATE(input, cap)` of 00_scope.md R9 and 45_zlib.md R263. For one well-formed stream of
the accepted container it gives the plaintext, cut to `cap` bytes; for no input it gives nothing (R266); for any other
input it gives a free byte string of at most `cap` bytes (93_implementation_defined.md U10). Which container is accepted
is free (`Config.inflateContainer`). The formats are those of RFC 1951 (DEFLATE) and RFC 1950 (zlib), which the spec
names by general knowledge (G11): PRESUMED, log entry 8. A stream counts as well formed only where the formats' text
leaves no doubt; every doubtful one falls under the free output. -/
namespace Sys2Proof.Machine

/-- The bits of a byte sequence in DEFLATE's order: each byte from its least significant bit. -/
def bitsOf (bs : Bytes) : List Bool :=
  bs.flatMap fun b => [b.getLsbD 0, b.getLsbD 1, b.getLsbD 2, b.getLsbD 3,
    b.getLsbD 4, b.getLsbD 5, b.getLsbD 6, b.getLsbD 7]

/-- The next `n` bits as a number, least significant first, and what follows. -/
def takeBits : Nat → List Bool → Option (Nat × List Bool)
  | 0, bits => some (0, bits)
  | _ + 1, [] => none
  | n + 1, b :: bits =>
    match takeBits n bits with
    | some (v, rest) => some (b.toNat + 2 * v, rest)
    | none => none

/-- The next `n` whole bytes, and what follows. -/
def takeBytes : Nat → List Bool → Option (Bytes × List Bool)
  | 0, bits => some ([], bits)
  | n + 1, bits =>
    match takeBits 8 bits with
    | some (v, rest) =>
      match takeBytes n rest with
      | some (bs, rest') => some (BitVec.ofNat 8 v :: bs, rest')
      | none => none
    | none => none

/-- Move to the next byte boundary; the whole input is a number of bytes, so what is left tells the position. -/
def alignBits (bits : List Bool) : List Bool := bits.drop (bits.length % 8)

/-! ### Huffman codes -/

/-- One code: its length, its value (first bit most significant) and its symbol. -/
structure HuffCode where
  len : Nat
  code : Nat
  symbol : Nat
deriving DecidableEq, Repr

/-- The symbols of code length `len`, in order of symbol. -/
def symbolsOfLength (len : Nat) : List Nat → Nat → List Nat
  | [], _ => []
  | l :: ls, sym => if l = len then sym :: symbolsOfLength len ls (sym + 1) else symbolsOfLength len ls (sym + 1)

/-- Consecutive codes of one length from `code` on. -/
def assignCodes (len : Nat) : Nat → List Nat → List HuffCode
  | _, [] => []
  | code, sym :: rest => ⟨len, code, sym⟩ :: assignCodes len (code + 1) rest

/-- The canonical codes (RFC 1951, 3.2.2) of lengths `len`, `len + 1`, … for `fuel` lengths, the first code of the first
length being `code`. -/
def canonicalFrom (lens : List Nat) : Nat → Nat → Nat → List HuffCode
  | 0, _, _ => []
  | fuel + 1, len, code =>
    let syms := symbolsOfLength len lens 0
    assignCodes len code syms ++ canonicalFrom lens fuel (len + 1) (2 * (code + syms.length))

/-- The canonical codes of a list of code lengths, one length a symbol. -/
def canonical (lens : List Nat) : List HuffCode := canonicalFrom lens 15 1 0

/-- The share of the code space that the lengths take, in units of `2^-15`. -/
def kraft : List Nat → Nat
  | [] => 0
  | l :: ls => (if l = 0 then 0 else 2 ^ (15 - l)) + kraft ls

/-- The lengths use the code space exactly. -/
def completeCode (lens : List Nat) : Bool := kraft lens == 2 ^ 15

/-- A complete distance code, or what RFC 1951 allows besides: one code of one bit, or no code at all (DESIGN CHOICE, log
entry 8: however many lengths of zero stand for no code). -/
def allowedDistCode (lens : List Nat) : Bool :=
  completeCode lens || lens.filter (· != 0) == [1] || lens.all (· == 0)

/-- Read one symbol: bits are added, most significant first, until they are a code; at most `fuel` bits. -/
def readSymbol (codes : List HuffCode) : Nat → Nat → Nat → List Bool → Option (Nat × List Bool)
  | 0, _, _, _ => none
  | _ + 1, _, _, [] => none
  | fuel + 1, len, code, b :: bits =>
    let code' := 2 * code + b.toNat
    match codes.find? (fun h => h.len == len + 1 && h.code == code') with
    | some h => some (h.symbol, bits)
    | none => readSymbol codes fuel (len + 1) code' bits

/-! ### Blocks -/

/-- The base lengths of symbols 257 to 285 with their extra bits (RFC 1951, 3.2.5). DESIGN CHOICE (log entry 8): symbol 284
with extra bits 31, which RFC 1951 gives no length (284 is 227 to 257, and 258 is symbol 285), is well formed and stands for
its base plus its extra bits, 258. -/
def lengthTable : List (Nat × Nat) :=
  [(3, 0), (4, 0), (5, 0), (6, 0), (7, 0), (8, 0), (9, 0), (10, 0), (11, 1), (13, 1), (15, 1), (17, 1), (19, 2), (23, 2),
   (27, 2), (31, 2), (35, 3), (43, 3), (51, 3), (59, 3), (67, 4), (83, 4), (99, 4), (115, 4), (131, 5), (163, 5),
   (195, 5), (227, 5), (258, 0)]

/-- The base distances of symbols 0 to 29 with their extra bits (RFC 1951, 3.2.5). -/
def distTable : List (Nat × Nat) :=
  [(1, 0), (2, 0), (3, 0), (4, 0), (5, 1), (7, 1), (9, 2), (13, 2), (17, 3), (25, 3), (33, 4), (49, 4), (65, 5), (97, 5),
   (129, 6), (193, 6), (257, 7), (385, 7), (513, 8), (769, 8), (1025, 9), (1537, 9), (2049, 10), (3073, 10), (4097, 11),
   (6145, 11), (8193, 12), (12289, 12), (16385, 13), (24577, 13)]

/-- A base plus its extra bits, from a table; no entry for a symbol beyond the table. -/
def readExtra (table : List (Nat × Nat)) (i : Nat) (bits : List Bool) : Option (Nat × List Bool) :=
  match table[i]? with
  | some (base, extra) =>
    match takeBits extra bits with
    | some (v, rest) => some (base + v, rest)
    | none => none
  | none => none

/-- Copy `n` bytes from `dist` bytes back; the output so far is held last byte first. -/
def copyBack (dist : Nat) : Nat → Bytes → Bytes
  | 0, out => out
  | n + 1, out => copyBack dist n (out.getD (dist - 1) 0 :: out)

/-- The symbols of one compressed block up to its end-of-block symbol; `out` is the output so far, last byte first;
a distance may not pass the output so far nor `window`. -/
def readCompressed (lit dist : List HuffCode) (window : Nat) : Nat → Bytes → List Bool → Option (Bytes × List Bool)
  | 0, _, _ => none
  | fuel + 1, out, bits =>
    match readSymbol lit 15 0 0 bits with
    | none => none
    | some (sym, rest) =>
      if sym < 256 then readCompressed lit dist window fuel (BitVec.ofNat 8 sym :: out) rest
      else if sym = 256 then some (out, rest)
      else match readExtra lengthTable (sym - 257) rest with
        | none => none
        | some (len, rest) =>
          match readSymbol dist 15 0 0 rest with
          | none => none
          | some (dsym, rest) =>
            match readExtra distTable dsym rest with
            | none => none
            | some (d, rest) =>
              if d ≤ out.length ∧ d ≤ window then readCompressed lit dist window fuel (copyBack d len out) rest
              else none

/-- The fixed literal and length code (RFC 1951, 3.2.6). -/
def fixedLit : List Nat :=
  List.replicate 144 8 ++ List.replicate 112 9 ++ List.replicate 24 7 ++ List.replicate 8 8

/-- The fixed distance code (RFC 1951, 3.2.6). -/
def fixedDist : List Nat := List.replicate 32 5

/-- The order in which a dynamic block gives the lengths of the code-length code (RFC 1951, 3.2.7). -/
def codeLengthOrder : List Nat := [16, 17, 18, 0, 8, 7, 9, 6, 10, 5, 11, 4, 12, 3, 13, 2, 14, 1, 15]

/-- `n` numbers of three bits. -/
def readThrees : Nat → List Bool → Option (List Nat × List Bool)
  | 0, bits => some ([], bits)
  | n + 1, bits =>
    match takeBits 3 bits with
    | some (v, rest) =>
      match readThrees n rest with
      | some (vs, rest') => some (v :: vs, rest')
      | none => none
    | none => none

/-- The length a dynamic header gives code-length symbol `sym`: by position in `codeLengthOrder`. -/
def lengthOfSymbol (given : List Nat) (sym : Nat) : Nat :=
  given.getD (codeLengthOrder.findIdx (· == sym)) 0

/-- `need` code lengths, run-length coded (RFC 1951, 3.2.7); `acc` holds those read, last first. -/
def readLengths (codes : List HuffCode) (need : Nat) : Nat → List Nat → List Bool → Option (List Nat × List Bool)
  | 0, _, _ => none
  | fuel + 1, acc, bits =>
    if acc.length = need then some (acc.reverse, bits)
    else if need < acc.length then none
    else match readSymbol codes 7 0 0 bits with
      | none => none
      | some (sym, rest) =>
        if sym < 16 then readLengths codes need fuel (sym :: acc) rest
        else if sym = 16 then
          match acc, takeBits 2 rest with
          | prev :: _, some (v, rest) => readLengths codes need fuel (List.replicate (3 + v) prev ++ acc) rest
          | _, _ => none
        else if sym = 17 then
          match takeBits 3 rest with
          | some (v, rest) => readLengths codes need fuel (List.replicate (3 + v) 0 ++ acc) rest
          | none => none
        else match takeBits 7 rest with
          | some (v, rest) => readLengths codes need fuel (List.replicate (11 + v) 0 ++ acc) rest
          | none => none

/-- The two codes of a dynamic block (RFC 1951, 3.2.7): literal and length lengths, then distance lengths. DESIGN CHOICE
(log entry 8): a block that declares 31 or 32 distance codes (`hdist > 29`), which RFC 1951 lets a header say and of which
codes 30 and 31 never occur, is no well-formed stream; nor is one whose code-length code or literal code does not use the
code space exactly, or that gives symbol 256 no code. -/
def readDynamic (bits : List Bool) : Option (List Nat × List Nat × List Bool) :=
  match takeBits 5 bits with
  | none => none
  | some (hlit, bits) =>
    match takeBits 5 bits with
    | none => none
    | some (hdist, bits) =>
      match takeBits 4 bits with
      | none => none
      | some (hclen, bits) =>
        match readThrees (hclen + 4) bits with
        | none => none
        | some (given, bits) =>
          let cl := (List.range 19).map (lengthOfSymbol given)
          if !completeCode cl then none
          else match readLengths (canonical cl) (hlit + 257 + hdist + 1) 330 [] bits with
            | none => none
            | some (lens, bits) =>
              let lit := lens.take (hlit + 257)
              let dist := lens.drop (hlit + 257)
              if hlit ≤ 29 ∧ hdist ≤ 29 ∧ lit.getD 256 0 ≠ 0 ∧ completeCode lit ∧ allowedDistCode dist then
                some (lit, dist, bits)
              else none

/-- A stored block (RFC 1951, 3.2.4): length, its complement, the bytes. -/
def readStored (out : Bytes) (bits : List Bool) : Option (Bytes × List Bool) :=
  match takeBits 16 (alignBits bits) with
  | none => none
  | some (len, bits) =>
    match takeBits 16 bits with
    | none => none
    | some (nlen, bits) =>
      if len + nlen ≠ 0xFFFF then none
      else match takeBytes len bits with
        | none => none
        | some (bs, bits) => some (bs.reverse ++ out, bits)

/-- The blocks of a DEFLATE stream up to its final one; every block and every symbol takes at least one bit, so `fuel`
bounds both. -/
def readBlocks (window : Nat) : Nat → Bytes → List Bool → Option (Bytes × List Bool)
  | 0, _, _ => none
  | fuel + 1, out, bits =>
    match takeBits 3 bits with
    | none => none
    | some (head, bits) =>
      let block :=
        if head / 2 = 0 then readStored out bits
        else if head / 2 = 1 then
          readCompressed (canonical fixedLit) (canonical fixedDist) window (bits.length + 1) out bits
        else if head / 2 = 2 then
          match readDynamic bits with
          | none => none
          | some (lit, dist, bits) => readCompressed (canonical lit) (canonical dist) window (bits.length + 1) out bits
        else none
      match block with
      | none => none
      | some (out, bits) => if head % 2 = 1 then some (out, bits) else readBlocks window fuel out bits

/-- The plaintext of a DEFLATE stream and the bits after it. -/
def inflateBits (window : Nat) (bits : List Bool) : Option (Bytes × List Bool) :=
  match readBlocks window (bits.length + 1) [] bits with
  | none => none
  | some (out, rest) => some (out.reverse, rest)

/-! ### Containers -/

/-- The plaintext of one raw DEFLATE stream that ends in the input's last byte. -/
def inflateRaw (input : Bytes) : Option Bytes :=
  match inflateBits 32768 (bitsOf input) with
  | some (out, rest) => if rest.length < 8 then some out else none
  | none => none

/-- ADLER-32 (RFC 1950): the two sums, from their values so far. -/
def adlerSums : Bytes → Nat → Nat → Nat × Nat
  | [], a, b => (a, b)
  | x :: xs, a, b => adlerSums xs ((a + x.toNat) % 65521) ((b + (a + x.toNat) % 65521) % 65521)

/-- ADLER-32 of a byte sequence. -/
def adler32 (bs : Bytes) : Nat :=
  let r := adlerSums bs 1 0
  r.2 * 65536 + r.1

/-- The plaintext of one zlib stream (RFC 1950): method 8, a window of at most 32768, no preset dictionary, a right
header check, and a right ADLER-32 in the input's last four bytes. -/
def inflateZlib (input : Bytes) : Option Bytes :=
  match input with
  | cmf :: flg :: body =>
    if cmf.toNat % 16 = 8 ∧ cmf.toNat / 16 ≤ 7 ∧ (cmf.toNat * 256 + flg.toNat) % 31 = 0 ∧ flg.getLsbD 5 = false then
      match inflateBits (2 ^ (cmf.toNat / 16 + 8)) (bitsOf body) with
      | none => none
      | some (out, rest) =>
        match takeBytes 4 (alignBits rest) with
        | some ([c3, c2, c1, c0], []) =>
          if ((c3.toNat * 256 + c2.toNat) * 256 + c1.toNat) * 256 + c0.toNat = adler32 out then some out else none
        | _ => none
    else none
  | _ => none

/-- The plaintext of one well-formed stream of the container, if the input is one. -/
def plaintextOf : Container → Bytes → Option Bytes
  | .zlib, input => inflateZlib input
  | .raw, input => inflateRaw input
  | .other, _ => none

/-- `INFLATE(input, cap)` for an accepted container `c`. -/
def inflateAs (c : Container) (input : Bytes) (cap : Nat) : Bytes :=
  if input = [] then []
  else match plaintextOf c input with
    | some p => p.take cap
    | none => (Config.inflateFree input cap).take cap

/-- `INFLATE(input, cap)` (00_scope.md R9, 45_zlib.md R263). -/
def inflate (input : Bytes) (cap : Nat) : Bytes := inflateAs Config.inflateContainer input cap

end Sys2Proof.Machine
end

