-- ==== Sys2Proof/Machine/Zlib.lean ====
section
/-! DEFINITION. The ZLIB_DECOMPRESS engine (45_zlib.md R260 to R266): one complete stream is inflated from a source range
into at most `ZLIB_CHUNK` bytes of a destination range. -/
namespace Sys2Proof.Machine

/-- ZLIB_INFLATE (45_zlib.md R260, R262, R263): the inflate state is created, the source is read in full, the destination
chunk is mapped, the output is written at its front, and the inflate state is torn down on every path (D33). -/
def zlibInflateEffect (d : Desc) (s : State) : OpResult × State :=
  match memRead d.srcMem d.src.toNat d.length.toNat { s with zctx := some ⟨[]⟩ } with
  | (.error e, s1) => (.ofEvent e, { s1 with zctx := none })
  | (.ok input, s1) =>
    match memMapW d.dstMem d.dst.toNat Config.zlibChunk { s1 with zctx := some ⟨input⟩ } with
    | (.error e, s2) => (.ofEvent e, { s2 with zctx := none })
    | (.ok g, s2) =>
      (.applied, { writeGranted d.dstMem d.dst.toNat (inflate input g) s2 with zctx := none })

/-- ZLIB_UNIMPL (45_zlib.md R264): any combination but `init = 1` with `eom = 1`. -/
def zlibUnimplEffect (d : Desc) (s : State) : OpResult × State :=
  skipWith (.unimplementedFunction (.zlibStreaming d.init d.eom)) s

/-- The meaning of ZLIB_INFLATE. -/
def execZlibInflate (d : Desc) (s : State) : Host.Outcome State Fault Refusal := .next (zlibInflateEffect d s).2

/-- The meaning of ZLIB_UNIMPL. -/
def execZlibUnimpl (d : Desc) (s : State) : Host.Outcome State Fault Refusal := .next (zlibUnimplEffect d s).2

end Sys2Proof.Machine
end

