-- ==== Sys2Proof/Machine/Drain.lean ====
section
/-! DEFINITION. The engine dispatcher (41_decode_dispatch.md R181 to R183) and the drain of a queue (46_queue.md R283 to
R292). -/
namespace Sys2Proof.Machine

/-- The dispatcher, by the row the decoder gave (41_decode_dispatch.md R182): the tagged result and the state. Only
descriptor rows reach it; for the MMIO rows, which no descriptor decodes to, it does nothing. -/
def dispatch (i : Instr) (s : State) : OpResult × State :=
  match i with
  | .aes d => aesEffect d s
  | .xtsAes128 d => xtsAes128Effect d s
  | .des3 d => des3Effect d s
  | .sha256 d => sha256Effect d s
  | .sha384 d => sha384Effect d s
  | .shaUnsupported d => shaUnsupportedEffect d s
  | .rsa2048 d => rsa2048Effect d s
  | .rsa4096 d => rsa4096Effect d s
  | .rsaSkip d => rsaSkipEffect d s
  | .ptBitwiseUnimpl d => ptBitwiseUnimplEffect d s
  | .ptCopy d => ptCopyEffect d s
  | .ptSwap256 d => ptSwap256Effect d s
  | .ptSwapUnimpl d => ptSwapUnimplEffect d s
  | .zlibInflate d => zlibInflateEffect d s
  | .zlibUnimpl d => zlibUnimplEffect d s
  | .ecc d => eccEffect d s
  | .unknownEngine d => unknownEngineEffect d s
  | .mmioBadAccess _ _ _ => (.skipped none, s)
  | .globalRd _ => (.skipped none, s)
  | .globalWr _ _ => (.skipped none, s)
  | .ctrlRd _ => (.skipped none, s)
  | .ctrlWr _ _ => (.skipped none, s)
  | .tailRd _ => (.skipped none, s)
  | .tailWr _ _ => (.skipped none, s)
  | .headRd _ => (.skipped none, s)
  | .headWr _ _ => (.skipped none, s)
  | .statusRd _ => (.skipped none, s)
  | .statusWr _ _ => (.skipped none, s)
  | .queueUnknownReg _ _ _ => (.skipped none, s)
  | .cfgRd _ => (.skipped none, s)
  | .cfgWr _ _ => (.skipped none, s)

/-- `Execute(d, q)` for the queue whose drain is in progress (41_decode_dispatch.md R181); its result is ignored
(46_queue.md R284). -/
def executeDesc (d : Desc) (s : State) : State := (dispatch (classify d) s).2

/-- Steps 2 to 4 of one iteration (46_queue.md R284, R285): fetch the descriptor at `a` through a mapping of 32 bytes;
log a short grant and skip it, or decode and execute it. -/
def fetchExecute (a : Nat) (s : State) : State :=
  let g := guestMap a Config.descSize false s
  if g.1 < Config.descSize then g.2.diagnose (.guestMemoryError a Config.descSize g.1)
  else executeDesc (decodeDesc (g.2.gm.read a Config.descSize)) g.2

/-- One iteration (46_queue.md R284): fetch, execute, and step 5, `tail <- (a + 32) mod 2^32`. -/
def drainIteration (q : QId) (a : Nat) (s : State) : State :=
  (fetchExecute a s).setTail q (BitVec.ofNat 32 (a + Config.descSize))

/-- The loop of 46_queue.md R292: `n` iterations from address `a` on, in ascending order. -/
def drainLoop (q : QId) : Nat → Nat → State → State
  | 0, _, s => s
  | n + 1, a, s => drainLoop q n (a + Config.descSize) (drainIteration q a s)

/-- The number of descriptors of a drain (46_queue.md R283). -/
def drainCount (tail head : Word) : Nat :=
  if tail.toNat < head.toNat then (head.toNat - tail.toNat + 31) / 32 else 0

/-- Completion (46_queue.md R286): status success, tail set to the head the drain started with, run cleared, halt set. -/
def completeDrain (q : QId) (h : Word) (s : State) : State :=
  { s.setQueue q { s.queue q with
      status := Config.statusSuccess, tail := h, control := completedControl (s.queue q).control } with
    draining := none }

/-- `Drain(q)` (46_queue.md R292). -/
def drain (q : QId) (s : State) : State :=
  completeDrain q (s.queue q).head
    (drainLoop q (drainCount (s.queue q).tail (s.queue q).head) (s.queue q).tail.toNat { s with draining := some q })

end Sys2Proof.Machine
end

