-- ==== Sys2Proof/Machine/Mmio.lean ====
section
/-! DEFINITION. The MMIO front-end (47_mmio.md R301 to R319): one operation per register and direction. -/
namespace Sys2Proof.Machine

/-- The direction a diagnostic records, from a write's value. -/
def busDir : Option Word → BusDir
  | none => .read
  | some v => .write v

/-- How an access that reaches no storage ends on the bus: a read returns 0, a write's value is dropped. -/
def respondZero (value : Option Word) (s : State) : State :=
  match value with
  | none => s.respond 0
  | some _ => s.acknowledge

/-- A non-conforming access (47_mmio.md R301): logged, no register changes, no drain; a read returns 0 in the width of
the access. -/
def badAccess (isWrite : Bool) (offset size : Nat) (s : State) : State :=
  { s.diagnose (.badMmioAccess offset size isWrite) with
    busData := if isWrite then [] else List.replicate size 0 }

/-- An access to the global region (47_mmio.md R302, R303): logged; a read returns 0, a write is dropped. -/
def globalAccess (offset : Nat) (value : Option Word) (s : State) : State :=
  respondZero value (s.diagnose (.globalControlAccess offset (busDir value)))

/-- An access to an offset with no register (47_mmio.md R315, R316): logged; a read returns 0, a write is dropped. -/
def unknownAccess (offset : Nat) (value : Option Word) (s : State) : State :=
  respondZero value (s.diagnose (.unknownRegister offset (busDir value)))

/-- A control read (47_mmio.md R305, 46_queue.md R281): a queue whose run bit is set is drained first; the value returned
is that after the drain. -/
def controlRead (q : QId) (s : State) : State :=
  let s' := if runBit (s.queue q).control then drain q s else s
  s'.respond (s'.queue q).control

/-- A control write under a value of `DRAIN_ON_CTRL_WRITE` (47_mmio.md R306, 46_queue.md R290): all 32 bits are stored;
with the parameter set, a written run bit drains at once. -/
def controlWrite (drainOnWrite : Bool) (q : QId) (v : Word) (s : State) : State :=
  let s' := s.setControl q v
  (if drainOnWrite && runBit v then drain q s' else s').acknowledge

/-- A read of the config region (47_mmio.md R313): the ready word at its offset, 0 elsewhere; no diagnostic. -/
def configRead (offset : BitVec 12) (s : State) : State :=
  s.respond (if offset.toNat = Config.cfgReadyOffset then Config.cfgReadyValue else 0)

/-- The meaning of MMIO_BAD_ACCESS (47_mmio.md R301). -/
def execMmioBadAccess (isWrite : Bool) (offset size : Nat) (s : State) : Host.Outcome State Fault Refusal :=
  .next (badAccess isWrite offset size s)

/-- The meaning of GLOBAL_RD (47_mmio.md R303). -/
def execGlobalRd (offset : BitVec 12) (s : State) : Host.Outcome State Fault Refusal :=
  .next (globalAccess (Config.globalBase + offset.toNat) none s)

/-- The meaning of GLOBAL_WR (47_mmio.md R302). -/
def execGlobalWr (offset : BitVec 12) (value : Word) (s : State) : Host.Outcome State Fault Refusal :=
  .next (globalAccess (Config.globalBase + offset.toNat) (some value) s)

/-- The meaning of CTRL_RD (47_mmio.md R305). -/
def execCtrlRd (q : QId) (s : State) : Host.Outcome State Fault Refusal := .next (controlRead q s)

/-- The meaning of CTRL_WR (47_mmio.md R306) at the spec's parameter value (90_conflicts.md C1). -/
def execCtrlWr (q : QId) (value : Word) (s : State) : Host.Outcome State Fault Refusal :=
  .next (controlWrite Config.drainOnCtrlWrite q value s)

/-- The meaning of TAIL_RD (47_mmio.md R307). -/
def execTailRd (q : QId) (s : State) : Host.Outcome State Fault Refusal := .next (s.respond (s.queue q).tail)

/-- The meaning of TAIL_WR (47_mmio.md R308). -/
def execTailWr (q : QId) (value : Word) (s : State) : Host.Outcome State Fault Refusal :=
  .next (s.setTail q value).acknowledge

/-- The meaning of HEAD_RD (47_mmio.md R309). -/
def execHeadRd (q : QId) (s : State) : Host.Outcome State Fault Refusal := .next (s.respond (s.queue q).head)

/-- The meaning of HEAD_WR (47_mmio.md R310). -/
def execHeadWr (q : QId) (value : Word) (s : State) : Host.Outcome State Fault Refusal :=
  .next (s.setHead q value).acknowledge

/-- The meaning of STATUS_RD (47_mmio.md R311). -/
def execStatusRd (q : QId) (s : State) : Host.Outcome State Fault Refusal := .next (s.respond (s.queue q).status)

/-- The meaning of STATUS_WR (47_mmio.md R312). -/
def execStatusWr (q : QId) (value : Word) (s : State) : Host.Outcome State Fault Refusal :=
  .next (s.setStatus q value).acknowledge

/-- The meaning of QUEUE_UNKNOWN_REG (47_mmio.md R315). -/
def execQueueUnknownReg (q : QId) (reg : BitVec 12) (value : Option Word) (s : State) :
    Host.Outcome State Fault Refusal :=
  .next (unknownAccess (queueRegOffset q reg) value s)

/-- The meaning of CFG_RD (47_mmio.md R313). -/
def execCfgRd (offset : BitVec 12) (s : State) : Host.Outcome State Fault Refusal := .next (configRead offset s)

/-- The meaning of CFG_WR (47_mmio.md R314): dropped. -/
def execCfgWr (_offset : BitVec 12) (_value : Word) (s : State) : Host.Outcome State Fault Refusal :=
  .next s.acknowledge

end Sys2Proof.Machine
end

