-- ==== Sys2Proof/Machine/Dispatch.lean ====
section
/-! DEFINITION. `exec`: one arm per constructor of `Instr`, each one direct call of the instruction's meaning. -/
namespace Sys2Proof.Machine

def exec (i : Instr) (s : State) : Host.Outcome State Fault Refusal :=
  match i with
  | .aes d => Sys2Proof.Machine.execAes d s
  | .xtsAes128 d => Sys2Proof.Machine.execXtsAes128 d s
  | .des3 d => Sys2Proof.Machine.execDes3 d s
  | .sha256 d => Sys2Proof.Machine.execSha256 d s
  | .sha384 d => Sys2Proof.Machine.execSha384 d s
  | .shaUnsupported d => Sys2Proof.Machine.execShaUnsupported d s
  | .rsa2048 d => Sys2Proof.Machine.execRsa2048 d s
  | .rsa4096 d => Sys2Proof.Machine.execRsa4096 d s
  | .rsaSkip d => Sys2Proof.Machine.execRsaSkip d s
  | .ptBitwiseUnimpl d => Sys2Proof.Machine.execPtBitwiseUnimpl d s
  | .ptCopy d => Sys2Proof.Machine.execPtCopy d s
  | .ptSwap256 d => Sys2Proof.Machine.execPtSwap256 d s
  | .ptSwapUnimpl d => Sys2Proof.Machine.execPtSwapUnimpl d s
  | .zlibInflate d => Sys2Proof.Machine.execZlibInflate d s
  | .zlibUnimpl d => Sys2Proof.Machine.execZlibUnimpl d s
  | .ecc d => Sys2Proof.Machine.execEcc d s
  | .unknownEngine d => Sys2Proof.Machine.execUnknownEngine d s
  | .mmioBadAccess isWrite offset size => Sys2Proof.Machine.execMmioBadAccess isWrite offset size s
  | .globalRd offset => Sys2Proof.Machine.execGlobalRd offset s
  | .globalWr offset value => Sys2Proof.Machine.execGlobalWr offset value s
  | .ctrlRd q => Sys2Proof.Machine.execCtrlRd q s
  | .ctrlWr q value => Sys2Proof.Machine.execCtrlWr q value s
  | .tailRd q => Sys2Proof.Machine.execTailRd q s
  | .tailWr q value => Sys2Proof.Machine.execTailWr q value s
  | .headRd q => Sys2Proof.Machine.execHeadRd q s
  | .headWr q value => Sys2Proof.Machine.execHeadWr q value s
  | .statusRd q => Sys2Proof.Machine.execStatusRd q s
  | .statusWr q value => Sys2Proof.Machine.execStatusWr q value s
  | .queueUnknownReg q reg value => Sys2Proof.Machine.execQueueUnknownReg q reg value s
  | .cfgRd offset => Sys2Proof.Machine.execCfgRd offset s
  | .cfgWr offset value => Sys2Proof.Machine.execCfgWr offset value s

end Sys2Proof.Machine
end

