-- ==== Sys2Proof/Machine/HostPort.lean ====
section
/-! DEFINITION. What `step` does around `exec`: the next event of the host or the platform, device reset
(70_reset_and_hazards.md R380), and the placing of an instruction where the next step runs it. -/
namespace Sys2Proof.Machine

/-- Device reset (70_reset_and_hazards.md R380, R382): the block's own state takes its reset values; guest memory, the
platform's answers and the coming events are not the block's and stay. -/
def deviceReset (s : State) : State :=
  { State.reset with gm := s.gm, mapAnswers := s.mapAnswers, mapCalls := s.mapCalls, host := s.host }

/-- The write value of an access, for the diagnostics of an access that is no instruction. -/
def accessValue : Access → Option Word
  | .read _ _ => none
  | .write _ data => some (le32 data)

/-- An access: its instruction is executed. One that does not lie in the window is a fault (20_memory.md R61); one at an
unmapped offset of the window reaches no register (47_mmio.md R316; with the spec's parameter values there is none). -/
def serveAccess (a : Access) (s : State) : Host.Outcome State Fault Refusal :=
  match decode (.access a) with
  | .ok i => exec i s
  | .error (.outsideWindow offset size) => .fault (.accessOutsideWindow offset size)
  | .error (.unmapped offset) => .next (unknownAccess offset (accessValue a) s)
  | .error (.descriptorLength _) => .next s

/-- One event (00_scope.md R18). -/
def serveEvent (e : HostEvent) (s : State) : Host.Outcome State Fault Refusal :=
  match e with
  | .access a => serveAccess a s
  | .reset => .next (deviceReset s)
  | .guestStore addr value => .next { s with gm := s.gm.set addr.toNat value }

/-- The next event is taken from `host`; with none the block stays as it is ("Nothing else changes the block's state",
00_scope.md R18). -/
def stepOnce (s : State) : Host.Outcome State Fault Refusal :=
  match s.host with
  | [] => .next s
  | e :: rest => serveEvent e { s with host := rest }

/-- Where a descriptor is placed to run next: at queue 0's `tail`, unless 32 bytes more would reach `2^32`; then at 0. -/
def fetchPlace (s : State) : Nat :=
  if (s.queue 0).tail.toNat + Config.descSize < 2 ^ 32 then (s.queue 0).tail.toNat else 0

/-- The 32 bytes `raw` placed so that the next event, a control read of queue 0, drains exactly this descriptor: the bytes
at `tail`, `head = tail + 32`, run set, the fetch granted. -/
def placeDescriptor (raw : Bytes) (s : State) : State :=
  let a := fetchPlace s
  let s1 := ((s.setTail 0 (BitVec.ofNat 32 a)).setHead 0 (BitVec.ofNat 32 (a + Config.descSize))).setControl 0
    ((s.queue 0).control ||| Config.ctrlRun)
  { s1 with
    gm := s1.gm.write a raw
    mapAnswers := Config.descSize :: s1.mapAnswers
    host := .access (.read (queueRegOffset 0 Config.regCtrl) 4) :: s1.host }

/-- The table word `w` of `nbits` bits placed where the next step runs it (log entries 4 and 18). -/
def placeWord (nbits w : Nat) (s : State) : State :=
  if nbits ≤ 16 then { s with host := .access (.read (w % 2 ^ nbits) 4) :: s.host }
  else placeDescriptor (tableDescBytes nbits w) s

end Sys2Proof.Machine
end

