-- ==== Sys2Proof/Machine/Step.lean ====
section
/-! DEFINITION. The step (00_scope.md R18): one MMIO access with the drain it may contain, one device reset, or one store
of the platform to guest memory. -/
namespace Sys2Proof.Machine

/-- One step: the next event of `host` is served. -/
def step (s : State) : Host.Outcome State Fault Refusal := stepOnce s

/-- `s` with the instruction of table word `w` placed where the next step runs it. -/
def State.withFetchWord (s : State) (nbits w : Nat) : State := placeWord nbits w s

end Sys2Proof.Machine
end

