-- ==== Sys2Proof/Safety.lean ====
section
/-! DEFINITION. The words claims are stated in: the invariant of a run, the bytes of an address space, when a range can be
accessed, and what an operation leaves unchanged. -/
namespace Sys2Proof.Machine

/-- What holds of every state between two events of a run. -/
structure Invariant (s : State) : Prop where
  /-- Guest memory has its canonical form, below `2^48` (20_memory.md R66). -/
  gm_wf : s.gm.wf Config.guestLimit = true
  /-- The scratch store has its canonical form, below `LSB_SIZE` (40_shim_scratch.md R159). -/
  lsb_wf : s.lsb.wf Config.lsbSize = true
  /-- `Q[q].id` is the constant `q` (10_state.md R26). -/
  ids : ∀ q : QId, (s.queue q).id = q.val
  /-- No decompression context outlives its descriptor (10_state.md R35). -/
  zctx_none : s.zctx = none
  /-- `Draining` is never seen between two accesses (10_state.md R27). -/
  draining_none : s.draining = none

/-- Both memories have their canonical form. -/
def MemoriesWf (s : State) : Prop :=
  s.gm.wf Config.guestLimit = true ∧ s.lsb.wf Config.lsbSize = true

/-- Byte `a` of the space a memory type selects (20_memory.md R60); SYSTEM and the unnamed code select none. -/
def spaceByte (s : State) (mt : MemType) (a : Nat) : Byte :=
  match mt with
  | .scratch => s.lsb.get a
  | .loc => s.gm.get a
  | .system => 0
  | .unnamed => 0

/-- The bytes `[a, a + n)` of a space. -/
def spaceBytes (s : State) (mt : MemType) (a n : Nat) : Bytes :=
  (List.range n).map fun i => spaceByte s mt (a + i)

/-- The platform's grant for the mapping request that comes `k` requests from now (20_memory.md R66). -/
def grantAt (s : State) (k addr len : Nat) (writable : Bool) : Nat :=
  min ((s.mapAnswers.drop k).headD (Config.guestMapAnswer (s.mapCalls + k) addr len writable))
    (min len (Config.guestLimit - addr))

/-- How many mapping requests a shim read or write of `len` bytes makes (40_shim_scratch.md R152, R155). -/
def mapRequests (mt : MemType) (len : Nat) : Nat := if mt = .loc ∧ len ≠ 0 then 1 else 0

/-- The range `[addr, addr + len)` of a space can be accessed, `k` mapping requests from now (40_shim_scratch.md R150 to
R155). -/
def accessible (s : State) (k : Nat) (mt : MemType) (addr len : Nat) (writable : Bool) : Bool :=
  match mt with
  | .scratch => decide (addr + len ≤ Config.lsbSize)
  | .loc => decide (len = 0 ∨ grantAt s k addr len writable = len)
  | .system => false
  | .unnamed => false

/-- The state after `k` mapping requests. -/
def afterRequests (s : State) (k : Nat) : State :=
  { s with mapAnswers := s.mapAnswers.drop k, mapCalls := s.mapCalls + k }

/-- The diagnostic of an access that is not `accessible`: the memory type where it is SYSTEM or the unnamed code, the
range where it passes the end of the scratch store, and the range with the grant where that is short
(40_shim_scratch.md R151 to R153, 60_exceptions.md R346 to R348). -/
def accessFailure (s : State) (k : Nat) (mt : MemType) (addr len : Nat) (writable : Bool) : DiagEvent :=
  match mt with
  | .scratch => .scratchBounds addr len
  | .loc => .guestMemoryError addr len (grantAt s k addr len writable)
  | .system => .unsupportedMemType .system
  | .unnamed => .unsupportedMemType .unnamed

/-- The state after `k` mapping requests and an access that failed: its own request is made where the memory type has one,
its diagnostic is appended, and nothing else changes (40_shim_scratch.md R158, R159). -/
def failedAccess (s : State) (k : Nat) (mt : MemType) (addr len : Nat) (writable : Bool) : State :=
  { afterRequests s (k + mapRequests mt len) with
    diag := s.diag ++ [⟨s.diagQueue, accessFailure s k mt addr len writable⟩] }

/-- `t` is `s` with one diagnostic appended. -/
def LoggedOnly (s t : State) (e : DiagEvent) : Prop := t = { s with diag := s.diag ++ [⟨s.diagQueue, e⟩] }

/-- Everything but the two memories and the platform's answers is the same: queue registers, contexts, diagnostics,
coming events, bus. -/
def SameButMemory (s t : State) : Prop :=
  t = { s with lsb := t.lsb, gm := t.gm, mapAnswers := t.mapAnswers, mapCalls := t.mapCalls }

/-- The bytes of a space are `v` from `addr` on, and every other byte of both memories is as before. -/
def StoredOnly (s t : State) (mt : MemType) (addr : Nat) (v : Bytes) : Prop :=
  (∀ i, (h : i < v.length) → spaceByte t mt (addr + i) = v[i]) ∧
    ∀ (m : MemType) (a : Nat), (m ≠ mt ∨ a < addr ∨ addr + v.length ≤ a) → spaceByte t m a = spaceByte s m a

/-- The bytes of a descriptor's source range (30_encoding.md R102, R105). -/
def sourceBytes (s : State) (d : Desc) : Bytes := spaceBytes s d.srcMem d.src.toNat d.length.toNat

/-- The source range can be read, `k` mapping requests from now. -/
def sourceAccessible (s : State) (k : Nat) (d : Desc) : Bool :=
  accessible s k d.srcMem d.src.toNat d.length.toNat false

/-- How many mapping requests the source read makes. -/
def sourceRequests (d : Desc) : Nat := mapRequests d.srcMem d.length.toNat

/-- The hash instruction of a type. -/
def hashInstr : HashType → Desc → Instr
  | .sha256, d => .sha256 d
  | .sha384, d => .sha384 d

/-- The one-shot digest function of a type (00_scope.md R9). -/
def oneShot : HashType → Bytes → Bytes
  | .sha256, msg => sha256 msg
  | .sha384, msg => sha384 msg

/-- The digest size of a type (42_hash.md R207). -/
def digestSize : HashType → Nat
  | .sha256 => 32
  | .sha384 => 48

/-- The RSA instruction of an operand size, in bytes (43_rsa.md R221), with its size. -/
inductive RsaForm : Instr → Desc → Nat → Prop
  | rsa2048 (d : Desc) : RsaForm (.rsa2048 d) d 256
  | rsa4096 (d : Desc) : RsaForm (.rsa4096 d) d 512

/-- RSA's mapping requests before the modulus, the message and the result (43_rsa.md R222). -/
def rsaRequests (d : Desc) (size : Nat) : Nat := mapRequests d.keyMem size + 2 * mapRequests d.srcMem size

/-- The three RSA ranges that are read can be read, in the order of 43_rsa.md R222. -/
def rsaReadable (s : State) (d : Desc) (size : Nat) : Bool :=
  accessible s 0 d.keyMem d.key.toNat size false &&
  accessible s (mapRequests d.keyMem size) d.srcMem d.src.toNat size false &&
  accessible s (mapRequests d.keyMem size + mapRequests d.srcMem size) d.srcMem (d.src.toNat + size) size false

/-- The RSA result can be written, after the reads (43_rsa.md R225). -/
def rsaWritable (s : State) (d : Desc) (size : Nat) : Bool :=
  accessible s (rsaRequests d size) d.dstMem d.dst.toNat size true

/-- The RSA exponent, modulus and message as numbers (43_rsa.md R222, R223). -/
def rsaExponent (s : State) (d : Desc) (size : Nat) : Nat := natLe (spaceBytes s d.keyMem d.key.toNat size)
def rsaModulus (s : State) (d : Desc) (size : Nat) : Nat := natLe (spaceBytes s d.srcMem d.src.toNat size)
def rsaMessage (s : State) (d : Desc) (size : Nat) : Nat := natLe (spaceBytes s d.srcMem (d.src.toNat + size) size)

/-- The source ranges of a list of chunks can be read one after another, from `k` mapping requests on. -/
def chunksAccessible (s : State) : Nat → List Desc → Bool
  | _, [] => true
  | k, d :: ds => sourceAccessible s k d && chunksAccessible s (k + sourceRequests d) ds

/-- Instructions executed one after another, stopping at the first that gives no next state. -/
def execList : List Instr → State → Host.Outcome State Fault Refusal
  | [], s => .next s
  | i :: is, s =>
    match exec i s with
    | .next t => execList is t
    | .fault f => .fault f
    | .refused r => .refused r

/-- Queue `q` when its drain has completed (46_queue.md R286): `status` success, `tail` at `head`, run clear, halt set. -/
def completedQueue (r : Queue) : Queue :=
  { r with status := Config.statusSuccess, tail := r.head, control := completedControl r.control }

/-- The event is a conforming read of queue `q`'s `control`. -/
def controlReadEvent (q : QId) : HostEvent := .access (.read (queueRegOffset q Config.regCtrl) 4)

/-- The next event is a control read that finds the run bit set: the step contains a drain (00_scope.md R18). -/
def NextEventDrains (s : State) : Prop :=
  ∃ q : QId, s.host.head? = some (controlReadEvent q) ∧ runBit (s.queue q).control = true

/-- Both memories are unchanged. -/
def SameMemories (s t : State) : Prop := t.gm = s.gm ∧ t.lsb = s.lsb

/-- An instruction that is a descriptor, by its row. -/
def descriptorOf : Instr → Option Desc
  | .aes d | .xtsAes128 d | .des3 d | .sha256 d | .sha384 d | .shaUnsupported d | .rsa2048 d | .rsa4096 d
  | .rsaSkip d | .ptBitwiseUnimpl d | .ptCopy d | .ptSwap256 d | .ptSwapUnimpl d | .zlibInflate d | .zlibUnimpl d
  | .ecc d | .unknownEngine d => some d
  | .mmioBadAccess _ _ _ | .globalRd _ | .globalWr _ _ | .ctrlRd _ | .ctrlWr _ _ | .tailRd _ | .tailWr _ _
  | .headRd _ | .headWr _ _ | .statusRd _ | .statusWr _ _ | .queueUnknownReg _ _ _ | .cfgRd _ | .cfgWr _ _ => none

/-- The bits of W0 that a descriptor of engine `e` uses: `init`, `eom`, `engine`, `soc`, `ioc`, `prot`, and the part of
`function` that is not ignored (30_encoding.md R106, R107, R114). -/
def usedW0 (e : BitVec 4) : Word :=
  if e = Config.engSha then 0x01F7801B
  else if e = Config.engRsa then 0x01FFFFFB
  else if e = Config.engPassthru then 0x01F003FB
  else 0x01F0001B

/-- The same source range. -/
def SameSource (d d' : Desc) : Prop := d.src = d'.src ∧ d.srcMem = d'.srcMem ∧ d.length = d'.length

/-- The same destination. -/
def SameDestination (d d' : Desc) : Prop := d.dst = d'.dst ∧ d.dstMem = d'.dstMem

/-- The same engine, and the same of every field that engine uses (30_encoding.md R115). -/
def SameOperands (d d' : Desc) : Prop :=
  d.engine = d'.engine ∧
  (d.engine = Config.engSha → d.shaType = d'.shaType ∧ d.eom = d'.eom ∧ d.ctxId = d'.ctxId ∧ SameSource d d') ∧
  (d.engine = Config.engRsa → d.rsaMode = d'.rsaMode ∧ d.rsaSize = d'.rsaSize ∧ d.key = d'.key ∧
    d.keyMem = d'.keyMem ∧ SameSource d d' ∧ SameDestination d d') ∧
  (d.engine = Config.engPassthru → d.bitwise = d'.bitwise ∧ d.byteswap = d'.byteswap ∧ SameSource d d' ∧
    SameDestination d d') ∧
  (d.engine = Config.engZlib → d.init = d'.init ∧ d.eom = d'.eom ∧ SameSource d d' ∧ SameDestination d d')

end Sys2Proof.Machine
end

