-- ==== Sys2Proof/Certificates/Slice0/Obligations.lean ====
section
/-! DEFINITION. The statements for the provers. Each docstring names the rule of spec/ it formalises, and the decision
or log entry where it rests on one. -/

open Sys2Proof Sys2Proof.Machine

/-! ### Encoding -/

/-- 30_encoding.md R101 to R107, R118 and 47_mmio.md R300: the decoder gives back every well-formed instruction from its
encoding, which keeps every bit the descriptor record holds (log entry 19). -/
def Obligations.DecodeEncodeAgree : Prop :=
  ∀ i : Instr, i.wellFormed = true → decode (encode i) = .ok i

/-- 30_encoding.md R118 (injective on the non-reserved bits): eight words whose reserved bits are zero come back from
their decoded descriptor; W5 has none in the model (log entry 19). And R121: the bytes assembled from a descriptor's fields
decode to its packed form, which keeps every field but the bits its engine ignores; these are zero. -/
def Obligations.EncodeDecodeDescriptorWords : Prop :=
  (∀ w0 w1 w2 w3 w4 w5 w6 w7 : Word,
    w0 &&& 0xFE000004 = 0 → w3 &&& 0x7C000000 = 0 → w7 &&& 0xFFFC0000 = 0 →
      descWords (descOfWords w0 w1 w2 w3 w4 w5 w6 w7) = [w0, w1, w2, w3, w4, w5, w6, w7]) ∧
  ∀ d : Desc,
    decode (.descriptor (assembleDesc d)) = .ok (classify d.packed) ∧ SameOperands d d.packed ∧
    d.packed = { d with function := d.packed.function, w5 := d.packed.w5 } ∧
    (descWords d.packed).headD 0 &&& ~~~usedW0 d.engine = 0 ∧
    (d.engine = Config.engSha → d.packed.shaLenHi = d.shaLenHi) ∧
    (d.engine ≠ Config.engSha → d.packed.dst = d.dst ∧ d.packed.dstMem = d.dstMem ∧ d.packed.fixedDst = d.fixedDst ∧
      d.packed.w5 &&& 0x7FFC0000 = 0)

/-- 30_encoding.md R116, R117: every 32 bytes are the descriptor of a well-formed instruction, and nothing shorter or
longer is one. -/
def Obligations.EveryDescriptorDecodes : Prop :=
  ∀ bytes : Bytes, (bytes.length = 32 →
      ∃ i, decode (.descriptor bytes) = .ok i ∧ i.wellFormed = true ∧ descriptorOf i = some (decodeDesc bytes)) ∧
    (bytes.length ≠ 32 → decode (.descriptor bytes) = .error (.descriptorLength bytes.length))

/-- 30_encoding.md R114: reserved bits and the ignored parts of `function` change nothing an instruction does, and no
encoding traps. -/
def Obligations.ReservedBitsChangeNothing : Prop :=
  ∀ (w0 v0 w1 w2 w3 v3 w4 w5 v5 w6 w7 v7 : Word) (s : State),
    w0 &&& usedW0 (w0.extractLsb' 20 4) = v0 &&& usedW0 (w0.extractLsb' 20 4) →
    w3 &&& 0x83FFFFFF = v3 &&& 0x83FFFFFF → w5 &&& 0x8003FFFF = v5 &&& 0x8003FFFF →
    w7 &&& 0x0003FFFF = v7 &&& 0x0003FFFF →
      exec (classify (descOfWords w0 w1 w2 w3 w4 w5 w6 w7)) s =
        exec (classify (descOfWords v0 w1 w2 v3 w4 v5 w6 v7)) s ∧
      ∃ t, exec (classify (descOfWords w0 w1 w2 w3 w4 w5 w6 w7)) s = .next t

/-- 30_encoding.md R115 (decisions D28, D48, log entry 17): the fields no engine reads, and the operands an engine does not
use, have no effect: descriptors of the same engine that agree on what it uses do the same. `init` and `eom` are among the
unused operands of RSA and PASSTHRU (43_rsa.md R220, 44_passthru.md R240), and `init` has no effect on SHA, on a live
context either, which is the choice of 42_hash.md R202 with decision D21 (log entry 13). -/
def Obligations.UnusedFieldsHaveNoEffect : Prop :=
  ∀ (d d' : Desc) (s : State), SameOperands d d' → exec (classify d) s = exec (classify d') s

/-- 30_encoding.md R119: the decoder's row is the first row of the opcode table whose match, mask and constraint hold. -/
def Obligations.OpcodeTableSelectsDecodedRow : Prop :=
  ∀ w0 w1 w2 w3 w4 w5 w6 w7 : Word,
    (opcodeTable.find? fun r => r.holds w0 w1).map OpcodeRow.mnemonic =
      some (classify (descOfWords w0 w1 w2 w3 w4 w5 w6 w7)).mnemonic

/-- 47_mmio.md R300, R316: every access in the window is a well-formed instruction (no offset is unmapped), and the
encoder gives a conforming one back. -/
def Obligations.EveryAccessInWindowDecodes : Prop :=
  ∀ a : Access, a.offset + a.size ≤ Config.windowSize →
    ∃ i, decode (.access a) = .ok i ∧ i.wellFormed = true ∧ descriptorOf i = none ∧
      (conforming a.offset a.size = true → encode i = .access a)

/-- Words written out from 30_encoding.md R101 to R113 and 95_test_vectors.md (V-DEC1, V-DEC5, V-DEC6, V-DISP6), and
offsets from 47_mmio.md R300: the decoder reads them as the instructions they stand for. -/
def Obligations.SampleWordsDecode : Prop :=
  decode (.descriptor ([0x18, 0x80, 0x31, 0, 3, 0, 0, 0, 0, 0x20, 0, 0, 0, 0, 2, 0] ++ List.replicate 16 0)) =
    .ok (.sha256 ⟨false, false, true, true, 0x0C00, 3, false, 3, 0x2000, 0, .loc, 0, false, 0, 0, 0, 0, .system⟩) ∧
  (classify (descOfWords 0x00500000 4 0x3456789A 0x00020012 0 0x0002FFFF 0 0)).mnemonic = "PT_COPY" ∧
  (descOfWords 0x00500000 4 0x3456789A 0x00020012 0 0x0002FFFF 0 0).src = 0x123456789A#48 ∧
  (descOfWords 0x00500000 4 0x3456789A 0x00020012 0 0x0002FFFF 0 0).dst = 0xFFFF00000000#48 ∧
  (classify (descOfWords 0x00410000 512 0 0 0 0 0 0)).mnemonic = "RSA_2048" ∧
  (classify (descOfWords 0x00F00000 0 0 0 0 0 0 0)).mnemonic = "UNKNOWN_ENGINE" ∧
  decode (.access (.read 0x2000 4)) = .ok (.ctrlRd 1) ∧
  decode (.access (.write 0x5008 [0x78, 0x56, 0x34, 0x12])) = .ok (.headWr 4 0x12345678) ∧
  decode (.access (.read 0x1000 1)) = .ok (.mmioBadAccess false 0x1000 1)

/-! ### Reset and the step -/

/-- 10_state.md R41: what a device reset leaves. That the reset is an event taken from the list `host`, and that with no
event nothing happens, is the model's form of 00_scope.md R18 (log entry 4). -/
def Obligations.DeviceResetLeavesResetValues : Prop :=
  (∀ (s : State) (rest : List HostEvent), s.host = .reset :: rest →
    ∃ t, step s = .next t ∧
      (∀ q : QId, t.queue q =
        { control := 0x00000002, tail := 0, head := 0, status := Config.statusSuccess, id := q.val }) ∧
      t.lsb = Mem.lsbReset ∧ t.hctx = none ∧ t.zctx = none ∧ t.diag = [] ∧ t.gm = s.gm ∧ t.host = rest) ∧
  ∀ s : State, s.host = [] → step s = .next s

/-- The reset state meets the invariant of a run. -/
def Obligations.ResetMeetsRunInvariant : Prop := Invariant State.reset

/-- Every step keeps the invariant: both memories keep their canonical form and their bounds (20_memory.md R66,
40_shim_scratch.md R159), queue ids stay (10_state.md R26), and neither an inflate context nor a drain outlives its
descriptor or its access (R35, R27). -/
def Obligations.StepKeepsRunInvariant : Prop :=
  ∀ s t : State, Invariant s → step s = .next t → Invariant t

/-- 00_scope.md R18, 20_memory.md R61: a step on an access that decodes is `exec` of its instruction with the event
taken. -/
def Obligations.StepRunsDecodedAccess : Prop :=
  ∀ (s : State) (a : Access) (rest : List HostEvent) (i : Instr),
    s.host = .access a :: rest → decode (.access a) = .ok i → step s = exec i { s with host := rest }

/-- 46_queue.md R284, R286: a step on a control read of a Running queue with one granted descriptor whose bytes decode to
`i` is `exec` of `i`, then the completion of the drain, which keeps control bits 31:2 (decision D13, log entry 17), and the
read's value, which is that after the drain (47_mmio.md R305, decision D12). -/
def Obligations.StepRunsDecodedDescriptor : Prop :=
  ∀ (s t : State) (q : QId) (rest : List HostEvent) (i : Instr),
    s.host = controlReadEvent q :: rest → runBit (s.queue q).control = true →
    drainCount (s.queue q).tail (s.queue q).head = 1 →
    grantAt s 0 (s.queue q).tail.toNat 32 false = 32 →
    decode (.descriptor (s.gm.read (s.queue q).tail.toNat 32)) = .ok i →
    exec i { afterRequests s 1 with host := rest, draining := some q } = .next t →
      step s = .next { t.setQueue q (completedQueue (s.queue q)) with
        draining := none, busData := wordBytes (completedControl (s.queue q).control) }

/-- 46_queue.md R284 and 20_memory.md R79: a drain of more than one descriptor is the first one's fetch and `exec`, the
advance of `tail` by 32, and then the drain of the rest from the state this leaves. -/
def Obligations.DrainExecutesOneDescriptorAtATime : Prop :=
  ∀ (s t : State) (q : QId) (i : Instr),
    runBit (s.queue q).control = true → (s.queue q).tail.toNat + 32 < (s.queue q).head.toNat →
    grantAt s 0 (s.queue q).tail.toNat 32 false = 32 →
    decode (.descriptor (s.gm.read (s.queue q).tail.toNat 32)) = .ok i →
    exec i { afterRequests s 1 with draining := some q } = .next t →
      exec (.ctrlRd q) s = exec (.ctrlRd q) (t.setTail q ((s.queue q).tail + 32))

/-- 60_exceptions.md R340: nothing is fatal. A step whose event is an access outside the window, which the platform never
delivers (20_memory.md R61), answers the named fault: the model's choice (decision D36, log entry 4). Every other step
answers a next state. -/
def Obligations.StepStopsOnlyOutsideWindow : Prop :=
  ∀ s : State,
    (∀ (a : Access) (rest : List HostEvent), s.host = .access a :: rest → Config.windowSize < a.offset + a.size →
      step s = .fault (.accessOutsideWindow a.offset a.size)) ∧
    ((∀ (a : Access) (rest : List HostEvent), s.host = .access a :: rest →
      a.offset + a.size ≤ Config.windowSize) → ∃ t, step s = .next t)

/-- 10_state.md R37: the diagnostic log is appended to and read by nothing. Two states that differ in the log alone step
alike, and what is appended is the same; only a device reset empties it (10_state.md R41, 70_reset_and_hazards.md R380). -/
def Obligations.DiagnosticLogIsNeverRead : Prop :=
  ∀ (s : State) (l l' : List DiagEntry) (t : State), step { s with diag := l } = .next t →
    ∃ t', step { s with diag := l' } = .next t' ∧ t' = { t with diag := t'.diag } ∧
      ((∃ new, t.diag = l ++ new ∧ t'.diag = l' ++ new) ∨
        (s.host.head? = some .reset ∧ t.diag = [] ∧ t'.diag = []))

/-! ### What each kind of instruction can change -/

/-- 41_decode_dispatch.md R183, 46_queue.md R294: no descriptor writes a queue register, answers the bus, or takes an
event. -/
def Obligations.DescriptorsWriteNoRegister : Prop :=
  ∀ (i : Instr) (d : Desc) (s t : State), descriptorOf i = some d → exec i s = .next t →
    t.queues = s.queues ∧ t.host = s.host ∧ t.busData = s.busData ∧ t.draining = s.draining

/-- 10_state.md R20, R22 to R26: each queue register changes only by its own MMIO write or by the drain of its own queue;
`head` only by its write; `id` never. That a control write does not drain, so that `tail` and `status` stay, rests on
`DRAIN_ON_CTRL_WRITE = false` (46_queue.md R282, decision D11, 90_conflicts.md C1; log entry 11). -/
def Obligations.QueueRegisterWriters : Prop :=
  ∀ (i : Instr) (s t : State) (q : QId), exec i s = .next t →
    ((t.queue q).head ≠ (s.queue q).head → ∃ v, i = .headWr q v) ∧
    ((t.queue q).tail ≠ (s.queue q).tail → i = .ctrlRd q ∨ ∃ v, i = .tailWr q v) ∧
    ((t.queue q).status ≠ (s.queue q).status → i = .ctrlRd q ∨ ∃ v, i = .statusWr q v) ∧
    ((t.queue q).control ≠ (s.queue q).control → i = .ctrlRd q ∨ ∃ v, i = .ctrlWr q v) ∧
    (t.queue q).id = (s.queue q).id

/-- 00_scope.md R18, 10_state.md R31, 47_mmio.md R319, 46_queue.md R281: the scratch store and both contexts change only
inside a control read that finds the run bit set, or by a device reset; guest memory only inside such a read, or by a store
of the platform, and so not by a reset (20_memory.md R67, 70_reset_and_hazards.md R382). That a control write is no such
step is 46_queue.md R282 with `DRAIN_ON_CTRL_WRITE = false` (decision D11, 90_conflicts.md C1; log entry 11). And: a store
of the platform changes its one byte of guest memory, and is taken from the events, and does nothing else; that it is an
event of the list `host`, between accesses, is the model's choice (log entry 4). -/
def Obligations.StoreChangesOnlyInDrains : Prop :=
  (∀ s t : State, step s = .next t →
    (t.lsb ≠ s.lsb ∨ t.hctx ≠ s.hctx ∨ t.zctx ≠ s.zctx → s.host.head? = some .reset ∨ NextEventDrains s) ∧
    (t.gm ≠ s.gm → NextEventDrains s ∨
      ∃ (a : BitVec 48) (v : Byte), s.host.head? = some (.guestStore a v) ∧
        ∀ c, c ≠ a.toNat → t.gm.get c = s.gm.get c)) ∧
  ∀ (s : State) (a : BitVec 48) (v : Byte) (rest : List HostEvent), s.host = .guestStore a v :: rest →
    ∃ t, step s = .next t ∧ t = { s with host := rest, gm := t.gm } ∧
      (s.gm.wf Config.guestLimit = true → t.gm.get a.toNat = v) ∧ ∀ c, c ≠ a.toNat → t.gm.get c = s.gm.get c

/-- A descriptor appends at most one event to the log, of code 1 to 6 or 8. 60_exceptions.md R345 (decision D26) allows it
one aborting diagnostic and one warning before that; that the two never come together follows from 40_shim_scratch.md R154
and 45_zlib.md R260: the one operation that warns is ZLIB's destination mapping, its last shim call, and nothing aborts
after it. -/
def Obligations.DescriptorLogsAtMostOneEvent : Prop :=
  ∀ (i : Instr) (d : Desc) (s t : State), descriptorOf i = some d → exec i s = .next t →
    t.diag = s.diag ∨
      ∃ e, t.diag = s.diag ++ [⟨s.diagQueue, e⟩] ∧ e.code ∈ [1, 2, 3, 4, 5, 6, 8]

/-- 41_decode_dispatch.md R184: the queue a descriptor runs on labels its diagnostics and selects nothing else. -/
def Obligations.QueueIdOnlyLabelsDiagnostics : Prop :=
  ∀ (i : Instr) (d : Desc) (s t : State) (q p : Option QId), descriptorOf i = some d →
    exec i { s with draining := q } = .next t →
      ∃ t', exec i { s with draining := p } = .next t' ∧ t' = { t with draining := p, diag := t'.diag } ∧
        t'.diag.map DiagEntry.event = t.diag.map DiagEntry.event

/-- 40_shim_scratch.md R159: a failed shim call leaves the scratch store, guest memory, both contexts and the queue
registers unchanged; a successful one stays inside the store, or inside what the platform granted; a call has no third
outcome. And which diagnostic a call logs, with what it records: R151 (decision D25; memory type 3 with its own code,
decision D6, log entry 16), R152, R153, R154 (decision D32, log entry 17), R156 and R158 (decision D26, log entry 15), with
60_exceptions.md R346 to R348 and R350. -/
def Obligations.ShimCallsStayInBounds : Prop :=
  ∀ (mt : MemType) (addr n : Nat) (id : BitVec 8) (v : Bytes) (s t : State),
    (∀ e, (memRead mt addr n s = (.error e, t) ∨ memWrite mt addr v s = (.error e, t) ∨
        memMapW mt addr n s = (.error e, t) ∨ lsbWriteSlot id v s = (.error e, t)) →
      t.lsb = s.lsb ∧ t.gm = s.gm ∧ t.hctx = s.hctx ∧ t.zctx = s.zctx ∧ t.queues = s.queues) ∧
    (∀ bs, memRead mt addr n s = (.ok bs, t) → bs.length = n ∧ SameMemories s t ∧
      ((mt = .scratch ∧ addr + n ≤ Config.lsbSize ∧ bs = s.lsb.read addr n) ∨
        (mt = .loc ∧ (n = 0 ∨ grantAt s 0 addr n false = n) ∧ bs = s.gm.read addr n))) ∧
    (memWrite mt addr v s = (.ok (), t) → (v = [] ∨ mt = .scratch ∧ addr + v.length ≤ Config.lsbSize ∨
        mt = .loc ∧ grantAt s 0 addr v.length true = v.length) ∧
      ∀ m a, (m ≠ mt ∨ a < addr ∨ addr + v.length ≤ a) → spaceByte t m a = spaceByte s m a) ∧
    (∀ g, memMapW mt addr n s = (.ok g, t) → g ≤ n ∧ SameMemories s t ∧
      (mt = .scratch → 0 < g → addr + g ≤ Config.lsbSize) ∧ (mt = .loc → g = grantAt s 0 addr n true) ∧
      ∀ m a, v.length ≤ g → (m ≠ mt ∨ a < addr ∨ addr + g ≤ a) →
        spaceByte (writeGranted mt addr v t) m a = spaceByte s m a) ∧
    (lsbWriteSlot id v s = (.ok (), t) → id.toNat * 32 + v.length ≤ Config.lsbSize ∧
      ∀ m a, (m ≠ .scratch ∨ a < id.toNat * 32 ∨ id.toNat * 32 + v.length ≤ a) → spaceByte t m a = spaceByte s m a) ∧
    (accessible s 0 mt addr n false = false →
      memRead mt addr n s = (.error (accessFailure s 0 mt addr n false), failedAccess s 0 mt addr n false)) ∧
    (accessible s 0 mt addr v.length true = false →
      memWrite mt addr v s =
        (.error (accessFailure s 0 mt addr v.length true), failedAccess s 0 mt addr v.length true)) ∧
    (mt = .system ∨ mt = .unnamed →
      memMapW mt addr n s = (.error (accessFailure s 0 mt addr n true), failedAccess s 0 mt addr n true)) ∧
    (mt = .scratch → Config.lsbSize < addr + n →
      memMapW mt addr n s = (.ok 0, { s with diag := s.diag ++ [⟨s.diagQueue, .scratchBounds addr n⟩] })) ∧
    (mt = .loc → grantAt s 0 addr n true < n →
      memMapW mt addr n s = (.ok (grantAt s 0 addr n true), { afterRequests s 1 with
        diag := s.diag ++ [⟨s.diagQueue, .partialOutput addr n (grantAt s 0 addr n true)⟩] })) ∧
    (Config.lsbSize < id.toNat * 32 + v.length →
      lsbWriteSlot id v s = (.error (.scratchBounds (id.toNat * 32) v.length), { s with
        diag := s.diag ++ [⟨s.diagQueue, .scratchBounds (id.toNat * 32) v.length⟩] }))

/-! ### The no-op routes -/

/-- 41_decode_dispatch.md R185 to R189 and R193: a no-op route changes nothing but the log, where its diagnostic is
appended, and the drain counts it as executed. That the drain ends with its queue completed is 46_queue.md R286, that
control bits 31:2 are kept there decision D13 (log entry 17), that no other queue's registers change R289, and that the
event records the queue 60_exceptions.md R341. -/
def Obligations.NoOpRoutesOnlyLog : Prop :=
  ∀ (i : Instr) (e : DiagEvent) (d : Desc),
    ((i = .aes d ∧ e = .unimplementedEngine Config.engAes) ∨
      (i = .xtsAes128 d ∧ e = .unimplementedEngine Config.engXts) ∨
      (i = .des3 d ∧ e = .unimplementedEngine Config.engDes3) ∨
      (i = .ecc d ∧ e = .unimplementedEngine Config.engEcc) ∨
      (i = .unknownEngine d ∧ e = .unknownEngine d.engine)) →
    (∀ s : State, ∃ t, exec i s = .next t ∧ LoggedOnly s t e) ∧
    ∀ (s : State) (q : QId), runBit (s.queue q).control = true →
      (s.queue q).head.toNat = (s.queue q).tail.toNat + 32 → grantAt s 0 (s.queue q).tail.toNat 32 false = 32 →
      decode (.descriptor (s.gm.read (s.queue q).tail.toNat 32)) = .ok i →
        ∃ t, exec (.ctrlRd q) s = .next t ∧ SameMemories s t ∧ t.hctx = s.hctx ∧ t.zctx = s.zctx ∧
          t.diag = s.diag ++ [⟨some (s.queue q).id, e⟩] ∧ t.queue q = completedQueue (s.queue q) ∧
          ∀ p, p ≠ q → t.queue p = s.queue p

/-! ### SHA -/

/-- 42_hash.md R202 (decision D21, log entry 13), R204, R206: without `eom`, a descriptor whose source can be read appends
the source bytes to the live context, or to a new one of its own type, and changes nothing else. -/
def Obligations.ShaFeedAppendsSource : Prop :=
  ∀ (ty : HashType) (d : Desc) (s : State), d.eom = false → sourceAccessible s 0 d = true →
    exec (hashInstr ty d) s = .next { afterRequests s (sourceRequests d) with
      hctx := some ⟨(s.hctx.map HashCtx.type).getD ty, (s.hctx.map HashCtx.msg).getD [] ++ sourceBytes s d⟩ }

/-- 42_hash.md R206: without `eom` the context is left alive and nothing is written to the scratch store. That it is alive
after a source that cannot be read, too, is the choice of R203 with decision D22 (log entry 13). -/
def Obligations.ShaWithoutEomKeepsContext : Prop :=
  ∀ (ty : HashType) (d : Desc) (s : State), d.eom = false →
    ∃ t, exec (hashInstr ty d) s = .next t ∧ t.hctx.isSome = true ∧ SameMemories s t

/-- 42_hash.md R205, R207 (decisions D20, D23): on `eom` the digest of the whole message, by the context's type, is
written reversed from the slot's offset on, the context is destroyed, and nothing else changes. -/
def Obligations.ShaEomWritesReversedDigest : Prop :=
  ∀ (ty cty : HashType) (msg : Bytes) (d : Desc) (s : State), MemoriesWf s → d.eom = true →
    sourceAccessible s 0 d = true → (s.hctx.getD ⟨ty, []⟩) = ⟨cty, msg⟩ →
    d.ctxId.toNat * 32 + digestSize cty ≤ Config.lsbSize →
      ∃ t, exec (hashInstr ty d) s = .next t ∧ t.hctx = none ∧
        StoredOnly s t .scratch (d.ctxId.toNat * 32) (oneShot cty (msg ++ sourceBytes s d)).reverse ∧
        SameButMemory { s with hctx := none } t

/-- 42_hash.md R205, R156 (decision D23): a digest that does not fit the store is not written, not even in part, and the
context is destroyed all the same. -/
def Obligations.ShaDigestOutOfBoundsDestroysContext : Prop :=
  ∀ (ty cty : HashType) (msg : Bytes) (d : Desc) (s : State), d.eom = true →
    sourceAccessible s 0 d = true → (s.hctx.getD ⟨ty, []⟩) = ⟨cty, msg⟩ →
    Config.lsbSize < d.ctxId.toNat * 32 + digestSize cty →
      ∃ t, exec (hashInstr ty d) s = .next t ∧
        t = { afterRequests s (sourceRequests d) with
          hctx := none
          diag := s.diag ++ [⟨s.diagQueue, .scratchBounds (d.ctxId.toNat * 32) (digestSize cty)⟩] }

/-- 42_hash.md R203 (decision D22, log entry 13): when the source cannot be read, the diagnostic of that access is logged
(40_shim_scratch.md R151, R152), no byte is fed, no digest is written, and the context is as step 1 left it, a new one
included. -/
def Obligations.ShaFailedReadKeepsContext : Prop :=
  ∀ (ty : HashType) (d : Desc) (s : State), sourceAccessible s 0 d = false →
    exec (hashInstr ty d) s = .next { failedAccess s 0 d.srcMem d.src.toNat d.length.toNat false with
      hctx := some (s.hctx.getD ⟨ty, []⟩) }

/-- 42_hash.md R201, R208: a descriptor with `engine = 3` whose `W0[18:15]` is neither 3 nor 4 is SHA_UNSUPPORTED, a no-op
with a diagnostic, whatever the context, `eom` and the operands, before any context or memory action. -/
def Obligations.ShaUnsupportedTypeOnlyLogs : Prop :=
  ∀ (w0 w1 w2 w3 w4 w5 w6 w7 : Word) (s : State), w0.extractLsb' 20 4 = 3#4 → w0.extractLsb' 15 4 ≠ 3#4 →
    w0.extractLsb' 15 4 ≠ 4#4 →
      classify (descOfWords w0 w1 w2 w3 w4 w5 w6 w7) = .shaUnsupported (descOfWords w0 w1 w2 w3 w4 w5 w6 w7) ∧
      (dispatch (.shaUnsupported (descOfWords w0 w1 w2 w3 w4 w5 w6 w7)) s).1 =
        .skipped (some (.unimplementedFunction (.shaType (w0.extractLsb' 15 4)))) ∧
      ∃ t, exec (.shaUnsupported (descOfWords w0 w1 w2 w3 w4 w5 w6 w7)) s = .next t ∧
        LoggedOnly s t (.unimplementedFunction (.shaType (w0.extractLsb' 15 4)))

/-- 42_hash.md R213: a message fed in chunks gives the one-shot digest of the concatenated chunks, reversed, in the slot
of the last descriptor. -/
def Obligations.ChunkedHashEqualsOneShotHash : Prop :=
  ∀ (ty : HashType) (chunks : List Desc) (last : Desc) (s : State), MemoriesWf s → s.hctx = none →
    (∀ d ∈ chunks, d.eom = false) → last.eom = true → chunksAccessible s 0 (chunks ++ [last]) = true →
    last.ctxId.toNat * 32 + digestSize ty ≤ Config.lsbSize →
      ∃ t, execList ((chunks ++ [last]).map (hashInstr ty)) s = .next t ∧ t.hctx = none ∧ t.diag = s.diag ∧
        t.queues = s.queues ∧
        StoredOnly s t .scratch (last.ctxId.toNat * 32)
          (oneShot ty ((chunks ++ [last]).map (sourceBytes s)).flatten).reverse

/-! ### RSA -/

/-- 43_rsa.md R220 to R225 (decisions D29, D30): with all ranges accessible and a modulus that is not zero, the
destination receives `message^exponent mod modulus`, least significant byte first, zero padded to the operand size; every
other byte and everything else is unchanged. -/
def Obligations.RsaWritesModularPower : Prop :=
  ∀ (i : Instr) (d : Desc) (size : Nat) (s : State), RsaForm i d size → MemoriesWf s →
    rsaReadable s d size = true → rsaWritable s d size = true → rsaModulus s d size ≠ 0 →
      ∃ t, exec i s = .next t ∧ SameButMemory s t ∧
        natLe (spaceBytes t d.dstMem d.dst.toNat size) =
          rsaMessage s d size ^ rsaExponent s d size % rsaModulus s d size ∧
        ∀ (m : MemType) (a : Nat), (m ≠ d.dstMem ∨ a < d.dst.toNat ∨ d.dst.toNat + size ≤ a) →
          spaceByte t m a = spaceByte s m a

/-- 43_rsa.md R226 (decision D29, log entry 14): a modulus of zero ends the operation with a diagnostic, no write, and no
mapping of the destination. -/
def Obligations.RsaZeroModulusWritesNothing : Prop :=
  ∀ (i : Instr) (d : Desc) (size : Nat) (s : State), RsaForm i d size →
    rsaReadable s d size = true → rsaModulus s d size = 0 →
      exec i s = .next { afterRequests s (rsaRequests d size) with
        diag := s.diag ++ [⟨s.diagQueue, .unimplementedFunction .rsaModulusZero⟩] }

/-- 43_rsa.md R222 (decision D29, log entry 14), R228, 40_shim_scratch.md R153, R158: exponent, modulus and message are
read in this order and the result is written last; the first of these ranges that cannot be accessed has its diagnostic
logged, no further mapping is requested, and nothing else changes. That a failed write leaves memory unchanged, and that
the first failure alone is logged, are decision D26 (log entry 15). -/
def Obligations.RsaFailureChangesNoMemory : Prop :=
  ∀ (i : Instr) (d : Desc) (size : Nat) (s : State), RsaForm i d size →
    (accessible s 0 d.keyMem d.key.toNat size false = false →
      exec i s = .next (failedAccess s 0 d.keyMem d.key.toNat size false)) ∧
    (accessible s 0 d.keyMem d.key.toNat size false = true →
      accessible s (mapRequests d.keyMem size) d.srcMem d.src.toNat size false = false →
        exec i s = .next (failedAccess s (mapRequests d.keyMem size) d.srcMem d.src.toNat size false)) ∧
    (accessible s 0 d.keyMem d.key.toNat size false = true →
      accessible s (mapRequests d.keyMem size) d.srcMem d.src.toNat size false = true →
      accessible s (mapRequests d.keyMem size + mapRequests d.srcMem size) d.srcMem (d.src.toNat + size) size
          false = false →
        exec i s = .next (failedAccess s (mapRequests d.keyMem size + mapRequests d.srcMem size) d.srcMem
          (d.src.toNat + size) size false)) ∧
    (rsaReadable s d size = true → rsaModulus s d size ≠ 0 → rsaWritable s d size = false →
      exec i s = .next (failedAccess s (rsaRequests d size) d.dstMem d.dst.toNat size true))

/-- 43_rsa.md R227 (decision D49): any mode, size and length outside the supported set is skipped with no diagnostic and no
change at all. -/
def Obligations.RsaUnsupportedIsSkippedSilently : Prop :=
  ∀ (d : Desc) (s : State), d.engine = Config.engRsa →
    (d.rsaMode ≠ Config.rsaModePlain ∨ (d.rsaSize.toNat ≠ 256 ∧ d.rsaSize.toNat ≠ 512) ∨
      d.length.toNat ≠ 2 * d.rsaSize.toNat) →
    classify d = .rsaSkip d ∧ exec (.rsaSkip d) s = .next s

/-- 43_rsa.md R229: decrypting what the engine encrypted gives the message back, for every key pair: the second
descriptor takes the first one's output as its message, has the same modulus, and its key inverts the first one's. -/
def Obligations.RsaDecryptsWhatItEncrypted : Prop :=
  ∀ (i j : Instr) (d d' : Desc) (size : Nat) (s t : State), RsaForm i d size → RsaForm j d' size → MemoriesWf s →
    rsaReadable s d size = true → rsaWritable s d size = true → rsaModulus s d size ≠ 0 → exec i s = .next t →
    rsaReadable t d' size = true → rsaWritable t d' size = true → d'.srcMem = d.dstMem → d'.src.toNat + size = d.dst.toNat →
    rsaModulus t d' size = rsaModulus s d size →
    rsaMessage s d size ^ (rsaExponent s d size * rsaExponent t d' size) % rsaModulus s d size =
      rsaMessage s d size →
      ∃ u, exec j t = .next u ∧ natLe (spaceBytes u d'.dstMem d'.dst.toNat size) = rsaMessage s d size

/-! ### PASSTHRU -/

/-- 44_passthru.md R241, R243 (decision D27, log entry 15): a plain copy makes the destination range the bytes of the
source range as they were before, and changes nothing else. -/
def Obligations.PassthruCopiesBytes : Prop :=
  ∀ (d : Desc) (s : State), MemoriesWf s → sourceAccessible s 0 d = true →
    accessible s (sourceRequests d) d.dstMem d.dst.toNat d.length.toNat true = true →
      ∃ t, exec (.ptCopy d) s = .next t ∧ SameButMemory s t ∧
        StoredOnly s t d.dstMem d.dst.toNat (sourceBytes s d)

/-- 44_passthru.md R244 (decision D44, log entry 12): a 256-bit swap of a multiple of 32 bytes stores the source bytes in
reverse order, and changes nothing else. -/
def Obligations.PassthruSwapReversesBytes : Prop :=
  ∀ (d : Desc) (s : State), MemoriesWf s → d.length.toNat % 32 = 0 → sourceAccessible s 0 d = true →
    accessible s (sourceRequests d) d.dstMem d.dst.toNat d.length.toNat true = true →
      ∃ t, exec (.ptSwap256 d) s = .next t ∧ SameButMemory s t ∧
        StoredOnly s t d.dstMem d.dst.toNat (sourceBytes s d).reverse

/-- 44_passthru.md R244, R247, 90_conflicts.md C2 (log entry 12): the two readings of the 256-bit swap. Per block, byte
`i` of the result is byte `31 - i mod 32` of the block `i` lies in; the readings agree on one block. -/
def Obligations.SwapReadingsAgreeOnOneBlock : Prop :=
  (∀ (data : Bytes) (i : Nat) (h : i < data.length), data.length % 32 = 0 →
    (swap256 true data)[i]? = some (data[data.length - 1 - i]'(by omega)) ∧
    (swap256 false data)[i]? = data[32 * (i / 32) + (31 - i % 32)]?) ∧
  ∀ (d : Desc) (s : State), d.length = 32 → ptSwap256With true d s = ptSwap256With false d s

/-- 44_passthru.md R242, R248: when the source cannot be read, its diagnostic is logged and the destination is not mapped;
when the source can be read and the destination cannot be written, the destination's is; nothing else changes. That the
source comes first, and that the first failure alone is logged, are decision D26 (log entry 15). -/
def Obligations.PassthruFailureChangesNoMemory : Prop :=
  ∀ (i : Instr) (d : Desc) (s : State), (i = .ptCopy d ∨ (i = .ptSwap256 d ∧ d.length.toNat % 32 = 0)) →
    (sourceAccessible s 0 d = false →
      exec i s = .next (failedAccess s 0 d.srcMem d.src.toNat d.length.toNat false)) ∧
    (sourceAccessible s 0 d = true →
      accessible s (sourceRequests d) d.dstMem d.dst.toNat d.length.toNat true = false →
        exec i s = .next (failedAccess s (sourceRequests d) d.dstMem d.dst.toNat d.length.toNat true))

/-- 44_passthru.md R248: a range of the scratch store that passes its end is neither read nor written, and the error is
flagged, for the source and for the destination. -/
def Obligations.PassthruScratchOverflowIsFlagged : Prop :=
  ∀ (i : Instr) (d : Desc) (s : State), (i = .ptCopy d ∨ (i = .ptSwap256 d ∧ d.length.toNat % 32 = 0)) →
    (d.srcMem = .scratch → Config.lsbSize < d.src.toNat + d.length.toNat →
      exec i s = .next { s with
        diag := s.diag ++ [⟨s.diagQueue, .scratchBounds d.src.toNat d.length.toNat⟩] }) ∧
    (sourceAccessible s 0 d = true → d.dstMem = .scratch → Config.lsbSize < d.dst.toNat + d.length.toNat →
      exec i s = .next { afterRequests s (sourceRequests d) with
        diag := s.diag ++ [⟨s.diagQueue, .scratchBounds d.dst.toNat d.length.toNat⟩] })

/-- 44_passthru.md R246: a descriptor with `engine = 5` and `W0[9:7]` not 0 is PT_BITWISE_UNIMPL, a diagnostic with no
memory change and no mapping request, whatever the byteswap and the operands. -/
def Obligations.PassthruBitwiseOnlyLogs : Prop :=
  ∀ (w0 w1 w2 w3 w4 w5 w6 w7 : Word) (s : State), w0.extractLsb' 20 4 = 5#4 → w0.extractLsb' 7 3 ≠ 0#3 →
    classify (descOfWords w0 w1 w2 w3 w4 w5 w6 w7) = .ptBitwiseUnimpl (descOfWords w0 w1 w2 w3 w4 w5 w6 w7) ∧
      (dispatch (.ptBitwiseUnimpl (descOfWords w0 w1 w2 w3 w4 w5 w6 w7)) s).1 =
        .skipped (some (.unimplementedFunction (.ptBitwise (w0.extractLsb' 7 3)))) ∧
      ∃ t, exec (.ptBitwiseUnimpl (descOfWords w0 w1 w2 w3 w4 w5 w6 w7)) s = .next t ∧
        LoggedOnly s t (.unimplementedFunction (.ptBitwise (w0.extractLsb' 7 3)))

/-- 44_passthru.md R244 and R245 (decision D9, log entry 16): a 256-bit swap of a length that is no multiple of 32, and
the byteswap codes 1 and 3, are a diagnostic with no memory access. -/
def Obligations.PassthruUnsupportedSwapsOnlyLog : Prop :=
  ∀ (d : Desc) (s : State),
    (d.length.toNat % 32 ≠ 0 → ∃ t, exec (.ptSwap256 d) s = .next t ∧
      LoggedOnly s t (.unimplementedFunction (.ptUnalignedSwap d.length))) ∧
    (d.engine = Config.engPassthru → d.bitwise = Config.bitwiseNoop → (d.byteswap = 1 ∨ d.byteswap = 3) →
      classify d = .ptSwapUnimpl d ∧
        ∃ t, exec (.ptSwapUnimpl d) s = .next t ∧ LoggedOnly s t (.unimplementedFunction (.ptByteswap d.byteswap)))

/-! ### ZLIB_DECOMPRESS -/

/-- 45_zlib.md R263, R266, 00_scope.md R9 (log entries 7 and 8): for every container, the inflate step gives at most `cap`
bytes, nothing for no input, and the plaintext, cut to `cap`, for one well-formed stream of that container; the zlib
stream of 95_test_vectors.md V-ZL1 is one, of "hello". The engine's step is that of the container the implementation
accepts, which is free. -/
def Obligations.InflateStepGivesPlaintext : Prop :=
  (∀ (c : Container) (input : Bytes) (cap : Nat), (inflateAs c input cap).length ≤ cap ∧ inflateAs c [] cap = [] ∧
    (∀ p, input ≠ [] → plaintextOf c input = some p → inflateAs c input cap = p.take cap) ∧
    inflate input cap = inflateAs Config.inflateContainer input cap) ∧
  plaintextOf .zlib [0x78, 0xda, 0xcb, 0x48, 0xcd, 0xc9, 0xc9, 0x07, 0x00, 0x06, 0x2c, 0x02, 0x15] =
    some [0x68, 0x65, 0x6c, 0x6c, 0x6f]

/-- 45_zlib.md R262, R263, R265 (decisions D32, D33): into a guest destination granted `g` bytes of 4096, the output of
the inflate step is written at the front and nothing beyond it changes; a short grant is logged as a warning. -/
def Obligations.ZlibInflatesIntoGuestMemory : Prop :=
  ∀ (d : Desc) (s : State) (g : Nat), MemoriesWf s → s.zctx = none → sourceAccessible s 0 d = true → d.dstMem = .loc →
    grantAt s (sourceRequests d) d.dst.toNat 4096 true = g →
      ∃ t, exec (.zlibInflate d) s = .next t ∧ StoredOnly s t .loc d.dst.toNat (inflate (sourceBytes s d) g) ∧
        SameButMemory { s with diag := if g = 4096 then s.diag else
          s.diag ++ [⟨s.diagQueue, .partialOutput d.dst.toNat 4096 g⟩] } t

/-- 45_zlib.md R265, 40_shim_scratch.md R154 (decision D32): a scratch destination is granted whole or not at all, so that
only offset 0 receives output; elsewhere the warning is logged and nothing is written. -/
def Obligations.ZlibScratchDestinationIsAllOrNothing : Prop :=
  ∀ (d : Desc) (s : State), MemoriesWf s → s.zctx = none → sourceAccessible s 0 d = true → d.dstMem = .scratch →
    (d.dst = 0 → ∃ t, exec (.zlibInflate d) s = .next t ∧
      StoredOnly s t .scratch 0 (inflate (sourceBytes s d) 4096) ∧ SameButMemory s t) ∧
    (d.dst ≠ 0 → exec (.zlibInflate d) s = .next { afterRequests s (sourceRequests d) with
      diag := s.diag ++ [⟨s.diagQueue, .scratchBounds d.dst.toNat 4096⟩] })

/-- 45_zlib.md R262 (decision D33, log entry 17): when the source cannot be read, its diagnostic is logged and the
destination is not mapped; when the source can be read and the destination is SYSTEM or of the unnamed type,
`UnsupportedMemType` is logged (40_shim_scratch.md R151, R154); nothing is written and no inflate state is left. That the
first failure alone is logged is decision D26 (log entry 15). -/
def Obligations.ZlibFailureLeavesNoContext : Prop :=
  ∀ (d : Desc) (s : State),
    (sourceAccessible s 0 d = false →
      exec (.zlibInflate d) s = .next { failedAccess s 0 d.srcMem d.src.toNat d.length.toNat false with zctx := none }) ∧
    (sourceAccessible s 0 d = true → (d.dstMem = .system ∨ d.dstMem = .unnamed) →
      exec (.zlibInflate d) s = .next { afterRequests s (sourceRequests d) with
        zctx := none, diag := s.diag ++ [⟨s.diagQueue, .unsupportedMemType d.dstMem⟩] })

/-- 45_zlib.md R264: a descriptor with `engine = 6` and `W0[4:3]` not 3 is ZLIB_UNIMPL: nothing is read or written, no
inflate state is created, and one diagnostic is logged, with `init` and `eom`. -/
def Obligations.ZlibStreamingOnlyLogs : Prop :=
  ∀ (w0 w1 w2 w3 w4 w5 w6 w7 : Word) (s : State), w0.extractLsb' 20 4 = 6#4 → w0.extractLsb' 3 2 ≠ 3#2 →
    classify (descOfWords w0 w1 w2 w3 w4 w5 w6 w7) = .zlibUnimpl (descOfWords w0 w1 w2 w3 w4 w5 w6 w7) ∧
      (dispatch (.zlibUnimpl (descOfWords w0 w1 w2 w3 w4 w5 w6 w7)) s).1 =
        .skipped (some (.unimplementedFunction (.zlibStreaming (w0.getLsbD 3) (w0.getLsbD 4)))) ∧
      ∃ t, exec (.zlibUnimpl (descOfWords w0 w1 w2 w3 w4 w5 w6 w7)) s = .next t ∧
        LoggedOnly s t (.unimplementedFunction (.zlibStreaming (w0.getLsbD 3) (w0.getLsbD 4)))

/-! ### The queue -/

/-- 46_queue.md R281, R286 (decisions D12, D13), 10_state.md R27: a control read of a Running queue, whatever its halt bit
and however many descriptors it drains, ends with `status` success, `tail` equal to `head`, the queue Halted and bits 31:2
kept, and returns that control; no other queue's register changes. -/
def Obligations.ControlReadCompletesDrain : Prop :=
  ∀ (s : State) (q : QId), queuePhase (s.queue q).control = .running →
    ∃ t, exec (.ctrlRd q) s = .next t ∧ (t.queue q).status = Config.statusSuccess ∧
      (t.queue q).tail = (s.queue q).head ∧ (t.queue q).head = (s.queue q).head ∧
      runBit (t.queue q).control = false ∧ haltBit (t.queue q).control = true ∧
      queuePhase (t.queue q).control = .halted ∧
      (∀ i, 2 ≤ i → (t.queue q).control.getLsbD i = (s.queue q).control.getLsbD i) ∧
      t.busData = wordBytes (t.queue q).control ∧ (∀ p, p ≠ q → t.queue p = s.queue p) ∧
      t.host = s.host ∧ t.draining = none

/-- 46_queue.md R281, 47_mmio.md R305: a control read of a queue whose run bit is clear returns `control` and has no side
effect. -/
def Obligations.ControlReadOfHaltedQueueHasNoEffect : Prop :=
  ∀ (s : State) (q : QId), runBit (s.queue q).control = false →
    ∃ t, exec (.ctrlRd q) s = .next t ∧ t = { s with busData := t.busData } ∧ le32 t.busData = (s.queue q).control ∧
      t.busData.length = 4

/-- 46_queue.md R291: writing `head` at tail plus 32, writing a control that sets run, and then reading control: exactly one
descriptor is drained, whatever it is, and the queue ends completed. -/
def Obligations.LifecycleDrainsExactlyOne : Prop :=
  ∀ (s : State) (q : QId) (v : Word) (i : Instr), (s.queue q).tail.toNat + 32 < 2 ^ 32 →
    runBit v = true → grantAt s 0 (s.queue q).tail.toNat 32 false = 32 →
    decode (.descriptor (s.gm.read (s.queue q).tail.toNat 32)) = .ok i →
      ∃ t u, exec i { ((afterRequests s 1).setHead q ((s.queue q).tail + 32)).setControl q v with
          draining := some q, busData := [] } = .next u ∧
        execList [.headWr q ((s.queue q).tail + 32), .ctrlWr q v, .ctrlRd q] s = .next t ∧
        t.lsb = u.lsb ∧ t.gm = u.gm ∧ t.hctx = u.hctx ∧ t.zctx = u.zctx ∧ t.diag = u.diag ∧
        (t.queue q).tail = (t.queue q).head ∧ (t.queue q).head = (s.queue q).tail + 32 ∧
        runBit (t.queue q).control = false ∧ haltBit (t.queue q).control = true ∧
        (t.queue q).status = Config.statusSuccess

/-- 46_queue.md R288: an empty drain executes nothing and completes all the same (a `tail` above `head` included, decision
D14, log entry 13); control bits 31:2 are kept (R286, decision D13, log entry 17), and the read returns the control after
the drain (decision D12). -/
def Obligations.EmptyDrainOnlyCompletes : Prop :=
  ∀ (s : State) (q : QId), runBit (s.queue q).control = true → (s.queue q).head.toNat ≤ (s.queue q).tail.toNat →
    exec (.ctrlRd q) s = .next { s.setQueue q (completedQueue (s.queue q)) with
      draining := none, busData := wordBytes (completedControl (s.queue q).control) }

/-- 46_queue.md R285 (decision D15, log entry 17): a descriptor whose fetch is granted fewer than 32 bytes is skipped with
`GuestMemoryError`. Where it is the only one, the drain completes; where more are pending, `tail` advances past it and the
drain goes on: what follows is the drain of the rest. The completion keeps control bits 31:2 (decision D13, log entry 17),
and the read returns the control after the drain (decision D12). -/
def Obligations.UnreadableDescriptorIsSkipped : Prop :=
  ∀ (s : State) (q : QId) (g : Nat), runBit (s.queue q).control = true →
    grantAt s 0 (s.queue q).tail.toNat 32 false = g → g < 32 →
      (drainCount (s.queue q).tail (s.queue q).head = 1 →
        exec (.ctrlRd q) s = .next { (afterRequests s 1).setQueue q (completedQueue (s.queue q)) with
          diag := s.diag ++ [⟨some (s.queue q).id, .guestMemoryError (s.queue q).tail.toNat 32 g⟩]
          draining := none
          busData := wordBytes (completedControl (s.queue q).control) }) ∧
      ((s.queue q).tail.toNat + 32 < (s.queue q).head.toNat →
        exec (.ctrlRd q) s = exec (.ctrlRd q) { (afterRequests s 1).setTail q ((s.queue q).tail + 32) with
          diag := s.diag ++ [⟨some (s.queue q).id, .guestMemoryError (s.queue q).tail.toNat 32 g⟩] })

/-- 46_queue.md R283, R293 (decision D14): every descriptor of a drain starts below `head`, the next would not, a distance
of `n` descriptors gives `n`, and a drain has at most `2^27`. -/
def Obligations.DrainCountCoversPendingWork : Prop :=
  ∀ (tail head : Word) (n : Nat),
    (n < drainCount tail head ↔ tail.toNat + 32 * n < head.toNat) ∧
    (head.toNat = tail.toNat + 32 * n → drainCount tail head = n) ∧ drainCount tail head ≤ 2 ^ 27

/-- 46_queue.md R289: a drain neither reads nor writes another queue's registers: with other values in them it does the
same, and they stay. -/
def Obligations.DrainIgnoresOtherQueues : Prop :=
  ∀ (s t : State) (q p : QId) (r : Queue), p ≠ q → exec (.ctrlRd q) s = .next t →
    exec (.ctrlRd q) (s.setQueue p r) = .next (t.setQueue p r)

/-- 46_queue.md R290 (90_conflicts.md C1, log entry 11): writing `control` and then reading it ends in the same state under
both values of `DRAIN_ON_CTRL_WRITE`. -/
def Obligations.WriteThenReadAgreesUnderBothReadings : Prop :=
  ∀ (s : State) (q : QId) (v : Word),
    controlRead q (controlWrite true q v s) = controlRead q (controlWrite false q v s)

/-! ### MMIO -/

/-- 47_mmio.md R304, R307, R309, R311: a write of a queue register stores all 32 bits of the value in that register alone,
and a read returns all 32 bits of it; no value is rejected; reading `tail`, `head` or `status` has no side effect, and a
Running queue is not drained by it. That a control write stores and changes nothing else, run set or not, is R306 and
46_queue.md R282 with `DRAIN_ON_CTRL_WRITE = false` (decision D11, 90_conflicts.md C1; log entry 11); that a write leaves
the bus value empty is the model's (log entry 5). -/
def Obligations.QueueRegistersAreDirectAccessors : Prop :=
  ∀ (s : State) (q : QId) (v : Word),
    (exec (.ctrlWr q v) s = .next { s.setQueue q { s.queue q with control := v } with busData := [] } ∧
      exec (.tailWr q v) s = .next { s.setQueue q { s.queue q with tail := v } with busData := [] } ∧
      exec (.headWr q v) s = .next { s.setQueue q { s.queue q with head := v } with busData := [] } ∧
      exec (.statusWr q v) s = .next { s.setQueue q { s.queue q with status := v } with busData := [] }) ∧
    (∃ t, exec (.ctrlRd q) s = .next t ∧ le32 t.busData = (t.queue q).control ∧ t.busData.length = 4) ∧
    (∃ b, exec (.tailRd q) s = .next { s with busData := b } ∧ le32 b = (s.queue q).tail ∧ b.length = 4) ∧
    (∃ b, exec (.headRd q) s = .next { s with busData := b } ∧ le32 b = (s.queue q).head ∧ b.length = 4) ∧
    (∃ b, exec (.statusRd q) s = .next { s with busData := b } ∧ le32 b = (s.queue q).status ∧ b.length = 4)

/-- 47_mmio.md R301 (decision D34, log entry 17): an access of a wrong size or alignment is logged and does nothing else,
even at the control register of a Running queue; a read returns zeros. -/
def Obligations.BadAccessOnlyLogs : Prop :=
  ∀ (s : State) (a : Access) (rest : List HostEvent), s.host = .access a :: rest →
    a.offset + a.size ≤ Config.windowSize → (a.size ≠ 4 ∨ a.offset % 4 ≠ 0) →
      ∃ t, step s = .next t ∧ exec (.mmioBadAccess a.isWrite a.offset a.size) { s with host := rest } = .next t ∧
        t = { s with
          host := rest
          diag := s.diag ++ [⟨s.diagQueue, .badMmioAccess a.offset a.size a.isWrite⟩]
          busData := if a.isWrite then [] else List.replicate a.size 0 }

/-- 47_mmio.md R302, and R303 (decision D35, log entry 17): the global region is inert; accesses are logged, a read
returns 0. -/
def Obligations.GlobalRegionIsInert : Prop :=
  ∀ (s : State) (o : BitVec 12) (v : Word),
    exec (.globalWr o v) s = .next { s with
      diag := s.diag ++ [⟨s.diagQueue, .globalControlAccess o.toNat (.write v)⟩], busData := [] } ∧
    ∃ t, exec (.globalRd o) s = .next t ∧ le32 t.busData = 0 ∧ t.busData.length = 4 ∧
      t = { s with diag := s.diag ++ [⟨s.diagQueue, .globalControlAccess o.toNat .read⟩], busData := t.busData }

/-- 47_mmio.md R315 (decision D35, log entry 17): an offset of a queue region with no register is logged, reads 0 and drops
writes. -/
def Obligations.UnknownRegisterOnlyLogs : Prop :=
  ∀ (s : State) (q : QId) (r : BitVec 12) (v : Word),
    exec (.queueUnknownReg q r (some v)) s = .next { s with
      diag := s.diag ++ [⟨s.diagQueue, .unknownRegister (0x1000 * (q.val + 1) + r.toNat) (.write v)⟩]
      busData := [] } ∧
    ∃ t, exec (.queueUnknownReg q r none) s = .next t ∧ le32 t.busData = 0 ∧ t.busData.length = 4 ∧
      t = { s with
        diag := s.diag ++ [⟨s.diagQueue, .unknownRegister (0x1000 * (q.val + 1) + r.toNat) .read⟩]
        busData := t.busData }

/-- 47_mmio.md R313, R314 (decisions D4, D35; log entries 6 and 17): the ready word reads as the constant, other offsets
as 0, in every state, and a write changes nothing. -/
def Obligations.ConfigRegionIsConstant : Prop :=
  ∀ (s : State) (o : BitVec 12) (v : Word),
    exec (.cfgWr o v) s = .next { s with busData := [] } ∧
    ∃ t, exec (.cfgRd o) s = .next t ∧ t = { s with busData := t.busData } ∧ t.busData.length = 4 ∧
      (o.toNat = Config.cfgReadyOffset → le32 t.busData = Config.cfgReadyValue) ∧
      (o.toNat ≠ Config.cfgReadyOffset → le32 t.busData = 0)
end

