-- ==== Sys2Proof/Laws/Decode.lean ====
section
/-! SUPPORT. The bits of the words the encoder writes, words and their bytes, and the decoder's choices: the row of a
descriptor by its engine, the route of an offset. -/
namespace Sys2Proof

/-- Bit `k` of `W0` as the encoder writes it (30_encoding.md R101, R121). -/
theorem word0_bit (d : Desc) (k : Nat) :
    ((descWords d)[0]'(by simp [descWords])).getLsbD k =
      if k = 0 then d.soc else if k = 1 then d.ioc else if k = 2 then false else if k = 3 then d.init
      else if k = 4 then d.eom else if k < 20 then d.function.getLsbD (k - 5)
      else if k < 24 then d.engine.getLsbD (k - 20) else if k = 24 then d.prot else false := by
  change BitVec.getLsbD (w := 7 + 1 + 4 + 15 + 1 + 1 + 1 + 1 + 1) (0#7 ++ BitVec.ofBool d.prot ++ d.engine ++
    d.function ++ BitVec.ofBool d.eom ++ BitVec.ofBool d.init ++ 0#1 ++ BitVec.ofBool d.ioc ++ BitVec.ofBool d.soc) k = _
  simp only [BitVec.getLsbD_append, BitVec.getLsbD_ofBool]
  rcases Nat.lt_or_ge k 5 with h | h
  · interval_cases k <;> simp
  have e : ¬ k < 1 ∧ ¬ k - 1 < 1 ∧ ¬ k - 1 - 1 < 1 ∧ ¬ k - 1 - 1 - 1 < 1 ∧ ¬ k - 1 - 1 - 1 - 1 < 1 := by omega
  have z : ¬ k = 0 ∧ ¬ k = 1 ∧ ¬ k = 2 ∧ ¬ k = 3 ∧ ¬ k = 4 := by omega
  simp only [e, z, if_false, show k - 1 - 1 - 1 - 1 - 1 = k - 5 by omega]
  by_cases h5 : k < 20
  · simp only [if_pos h5, if_pos (show k - 5 < 15 by omega)]
  by_cases h6 : k < 24
  · simp only [if_neg h5, if_neg (show ¬ k - 5 < 15 by omega), if_pos h6, show k - 5 - 15 = k - 20 by omega,
      if_pos (show k - 20 < 4 by omega)]
  simp only [if_neg h5, if_neg (show ¬ k - 5 < 15 by omega), if_neg h6, if_neg (show ¬ k - 5 - 15 < 4 by omega)]
  by_cases h7 : k = 24
  · subst h7; simp
  · simp [h7, show ¬ k - 5 - 15 - 4 = 0 by omega]

/-- Bit `k` of `W3` as the encoder writes it (30_encoding.md R103, R121). -/
theorem word3_bit (d : Desc) (k : Nat) :
    ((descWords d)[3]'(by simp [descWords])).getLsbD k =
      if k < 16 then d.srcHi.getLsbD k else if k < 18 then (memTypeCode d.srcMem).getLsbD (k - 16)
      else if k < 26 then d.ctxId.getLsbD (k - 18) else if k = 31 then d.fixedSrc else false := by
  change BitVec.getLsbD (w := 1 + 5 + 8 + 2 + 16) (BitVec.ofBool d.fixedSrc ++ 0#5 ++ d.ctxId ++ memTypeCode d.srcMem ++
    d.srcHi) k = _
  simp only [BitVec.getLsbD_append, BitVec.getLsbD_ofBool]
  by_cases h1 : k < 16
  · simp only [if_pos h1]
  by_cases h2 : k < 18
  · simp only [if_neg h1, if_pos h2, if_pos (show k - 16 < 2 by omega)]
  by_cases h3 : k < 26
  · simp only [if_neg h1, if_neg h2, if_neg (show ¬ k - 16 < 2 by omega), if_pos h3,
      show k - 16 - 2 = k - 18 by omega, if_pos (show k - 18 < 8 by omega)]
  simp only [if_neg h1, if_neg h2, if_neg (show ¬ k - 16 < 2 by omega), if_neg h3,
    if_neg (show ¬ k - 16 - 2 < 8 by omega), show k - 16 - 2 - 8 = k - 26 by omega]
  by_cases h4 : k = 31
  · subst h4; simp
  · by_cases h5 : k - 26 < 5
    · simp [h4, h5]
    · simp [h4, h5, show ¬ k - 26 - 5 = 0 by omega]

/-- Bit `k` of `W7` as the encoder writes it (30_encoding.md R105, R121). -/
theorem word7_bit (d : Desc) (k : Nat) :
    ((descWords d)[7]'(by simp [descWords])).getLsbD k =
      if k < 16 then d.keyHi.getLsbD k else if k < 18 then (memTypeCode d.keyMem).getLsbD (k - 16) else false := by
  change BitVec.getLsbD (w := 14 + 2 + 16) (0#14 ++ memTypeCode d.keyMem ++ d.keyHi) k = _
  simp only [BitVec.getLsbD_append]
  by_cases h1 : k < 16
  · simp only [if_pos h1]
  by_cases h2 : k < 18
  · simp only [if_neg h1, if_pos h2, if_pos (show k - 16 < 2 by omega)]
  · simp only [if_neg h1, if_neg h2, if_neg (show ¬ k - 16 < 2 by omega)]
    simp

@[simp] theorem memTypeOfCode_code (m : MemType) : memTypeOfCode (memTypeCode m) = m := by cases m <;> rfl

@[simp] theorem memTypeCode_ofCode (c : BitVec 2) : memTypeCode (memTypeOfCode c) = c := by revert c; decide

/-- Bit `k` of the word of four bytes (00_scope.md R11). -/
theorem le32_bit (b0 b1 b2 b3 : Byte) (rest : Bytes) (k : Nat) :
    (le32 (b0 :: b1 :: b2 :: b3 :: rest)).getLsbD k =
      if k < 8 then b0.getLsbD k else if k < 16 then b1.getLsbD (k - 8) else if k < 24 then b2.getLsbD (k - 16)
      else b3.getLsbD (k - 24) := by
  change BitVec.getLsbD (w := 8 + 8 + 8 + 8) (b3 ++ b2 ++ b1 ++ b0) k = _
  simp only [BitVec.getLsbD_append]
  by_cases h1 : k < 8
  · simp only [if_pos h1]
  by_cases h2 : k < 16
  · simp only [if_neg h1, if_pos h2, if_pos (show k - 8 < 8 by omega)]
  by_cases h3 : k < 24
  · simp only [if_neg h1, if_neg h2, if_pos h3, if_neg (show ¬ k - 8 < 8 by omega),
      show k - 8 - 8 = k - 16 by omega, if_pos (show k - 16 < 8 by omega)]
  · simp only [if_neg h1, if_neg h2, if_neg h3, if_neg (show ¬ k - 8 < 8 by omega),
      if_neg (show ¬ k - 8 - 8 < 8 by omega), show k - 8 - 8 - 8 = k - 24 by omega]

/-- A word is read back from its four bytes, whatever follows them. -/
theorem le32_wordBytes_append (v : Word) (rest : Bytes) : le32 (wordBytes v ++ rest) = v := by
  apply BitVec.eq_of_getLsbD_eq
  intro k hk
  simp only [wordBytes, List.cons_append, List.nil_append, le32_bit, BitVec.getLsbD_extractLsb']
  split
  · simp [*]
  · split
    · simp [show k - 8 < 8 by omega, show 8 + (k - 8) = k by omega]
    · split
      · simp [show k - 16 < 8 by omega, show 16 + (k - 16) = k by omega]
      · simp [show k - 24 < 8 by omega, show 24 + (k - 24) = k by omega]

@[simp] theorem le32_wordBytes (v : Word) : le32 (wordBytes v) = v := by
  simpa using le32_wordBytes_append v []

/-- Four bytes are those of their word. -/
theorem wordBytes_le32 (b0 b1 b2 b3 : Byte) : wordBytes (le32 [b0, b1, b2, b3]) = [b0, b1, b2, b3] := by
  simp only [wordBytes, List.cons.injEq, and_true]
  refine ⟨?_, ?_, ?_, ?_⟩ <;> apply BitVec.eq_of_getLsbD_eq <;> intro k hk <;>
    simp only [BitVec.getLsbD_extractLsb', le32_bit]
  · simp [hk]
  · simp [hk, show ¬ 8 + k < 8 by omega, show 8 + k < 16 by omega]
  · simp [hk, show ¬ 16 + k < 8 by omega, show ¬ 16 + k < 16 by omega, show 16 + k < 24 by omega]
  · simp [hk, show ¬ 24 + k < 8 by omega, show ¬ 24 + k < 16 by omega, show ¬ 24 + k < 24 by omega]

/-! ### Packing a descriptor (30_encoding.md R121) -/

theorem packShaFunction_type (t : BitVec 4) : (packShaFunction t).extractLsb' 10 4 = t := by
  revert t; decide

theorem packRsaFunction_mode (m : BitVec 3) (z : BitVec 12) : (packRsaFunction m z).extractLsb' 0 3 = m := by
  apply BitVec.eq_of_getLsbD_eq
  intro k hk
  rw [BitVec.getLsbD_extractLsb']
  change (decide (k < 3) && BitVec.getLsbD (w := 12 + 3) (z ++ m) (0 + k)) = _
  rw [BitVec.getLsbD_append]
  simp [hk]

theorem packRsaFunction_size (m : BitVec 3) (z : BitVec 12) : (packRsaFunction m z).extractLsb' 3 12 = z := by
  apply BitVec.eq_of_getLsbD_eq
  intro k hk
  rw [BitVec.getLsbD_extractLsb']
  change (decide (k < 12) && BitVec.getLsbD (w := 12 + 3) (z ++ m) (3 + k)) = _
  rw [BitVec.getLsbD_append]
  simp [hk]

theorem packPassthruFunction_byteswap (b : BitVec 2) (w : BitVec 3) :
    (packPassthruFunction b w).extractLsb' 0 2 = b := by
  revert b w; decide

theorem packPassthruFunction_bitwise (b : BitVec 2) (w : BitVec 3) :
    (packPassthruFunction b w).extractLsb' 2 3 = w := by
  revert b w; decide

/-- Bit `k` of a packed destination word: the fields of R104, and zero from bit 18 to bit 30. -/
theorem packDstWord_bit (hi : BitVec 16) (mt : MemType) (fixed : Bool) (k : Nat) :
    (packDstWord hi mt fixed).getLsbD k =
      if k < 16 then hi.getLsbD k else if k < 18 then (memTypeCode mt).getLsbD (k - 16)
      else if k = 31 then fixed else false := by
  change BitVec.getLsbD (w := 1 + 13 + 2 + 16) (BitVec.ofBool fixed ++ 0#13 ++ memTypeCode mt ++ hi) k = _
  simp only [BitVec.getLsbD_append, BitVec.getLsbD_ofBool]
  by_cases h1 : k < 16
  · simp only [if_pos h1]
  by_cases h2 : k < 18
  · simp only [if_neg h1, if_pos h2, if_pos (show k - 16 < 2 by omega)]
  simp only [if_neg h1, if_neg h2, if_neg (show ¬ k - 16 < 2 by omega), show k - 16 - 2 = k - 18 by omega]
  by_cases h3 : k - 18 < 13
  · simp [if_pos h3, show ¬ k = 31 by omega]
  · by_cases h4 : k = 31
    · subst h4; simp
    · simp [h3, h4, show ¬ k - 18 - 13 = 0 by omega]

@[simp] theorem Desc.packed_engine (d : Desc) : d.packed.engine = d.engine := rfl
@[simp] theorem Desc.packed_init (d : Desc) : d.packed.init = d.init := rfl
@[simp] theorem Desc.packed_eom (d : Desc) : d.packed.eom = d.eom := rfl
@[simp] theorem Desc.packed_length (d : Desc) : d.packed.length = d.length := rfl
@[simp] theorem Desc.packed_src (d : Desc) : d.packed.src = d.src := rfl
@[simp] theorem Desc.packed_srcMem (d : Desc) : d.packed.srcMem = d.srcMem := rfl
@[simp] theorem Desc.packed_ctxId (d : Desc) : d.packed.ctxId = d.ctxId := rfl
@[simp] theorem Desc.packed_key (d : Desc) : d.packed.key = d.key := rfl
@[simp] theorem Desc.packed_keyMem (d : Desc) : d.packed.keyMem = d.keyMem := rfl
@[simp] theorem Desc.packed_dstLo (d : Desc) : d.packed.dstLo = d.dstLo := rfl

/-- Whatever the engine, word 5 packed keeps the destination's fields. -/
theorem Desc.packed_dst (d : Desc) :
    d.packed.dst = d.dst ∧ d.packed.dstMem = d.dstMem ∧ d.packed.fixedDst = d.fixedDst := by
  by_cases h : d.engine = Config.engSha
  · have e : d.packed.w5 = d.w5 := by simp only [Desc.packed, Desc.packedW5, if_pos h]; rfl
    refine ⟨?_, ?_, ?_⟩
    · rw [Desc.dst, Desc.dstHi, e]; rfl
    · rw [Desc.dstMem, e]; rfl
    · rw [Desc.fixedDst, e]; rfl
  · have e : d.packed.w5 = packDstWord d.dstHi d.dstMem d.fixedDst := by
      simp only [Desc.packed, Desc.packedW5, if_neg h]
    have hhi : d.packed.dstHi = d.dstHi := by
      apply BitVec.eq_of_getLsbD_eq
      intro k hk
      rw [Desc.dstHi, e, BitVec.getLsbD_extractLsb', packDstWord_bit]
      simp [hk]
    have hmem : d.packed.dstMem = d.dstMem := by
      have hc : d.packed.w5.extractLsb' 16 2 = memTypeCode d.dstMem := by
        apply BitVec.eq_of_getLsbD_eq
        intro k hk
        rw [e, BitVec.getLsbD_extractLsb', packDstWord_bit]
        simp [hk, show 16 + k < 18 by omega]
      rw [Desc.dstMem, hc, memTypeOfCode_code]
    refine ⟨by rw [Desc.dst, hhi, Desc.packed_dstLo]; rfl, hmem, ?_⟩
    rw [Desc.fixedDst, e, packDstWord_bit]
    simp

/-- For SHA, `function` packed keeps the hash type. -/
theorem Desc.packed_shaType (d : Desc) (h : d.engine = Config.engSha) : d.packed.shaType = d.shaType := by
  simp only [Desc.packed, Desc.packedFunction, if_pos h, Desc.shaType]
  exact packShaFunction_type _

/-- For RSA, `function` packed keeps mode and size. -/
theorem Desc.packed_rsa (d : Desc) (h : d.engine = Config.engRsa) :
    d.packed.rsaMode = d.rsaMode ∧ d.packed.rsaSize = d.rsaSize := by
  simp only [Desc.packed, Desc.packedFunction, if_pos h, if_neg (show ¬ d.engine = Config.engSha by rw [h]; decide),
    Desc.rsaMode, Desc.rsaSize]
  exact ⟨packRsaFunction_mode _ _, packRsaFunction_size _ _⟩

/-- For PASSTHRU, `function` packed keeps byteswap and bitwise. -/
theorem Desc.packed_passthru (d : Desc) (h : d.engine = Config.engPassthru) :
    d.packed.bitwise = d.bitwise ∧ d.packed.byteswap = d.byteswap := by
  simp only [Desc.packed, Desc.packedFunction, if_pos h, if_neg (show ¬ d.engine = Config.engSha by rw [h]; decide),
    if_neg (show ¬ d.engine = Config.engRsa by rw [h]; decide), Desc.bitwise, Desc.byteswap]
  exact ⟨packPassthruFunction_bitwise _ _, packPassthruFunction_byteswap _ _⟩

/-! ### The row of a descriptor, by engine -/

theorem classify_aes (d : Desc) (h : d.engine = Config.engAes) :
    classify d = .aes d := by
  unfold classify
  rw [if_pos h]

theorem classify_xts (d : Desc) (h : d.engine = Config.engXts) :
    classify d = .xtsAes128 d := by
  unfold classify
  rw [if_neg (by rw [h]; decide), if_pos h]

theorem classify_des3 (d : Desc) (h : d.engine = Config.engDes3) :
    classify d = .des3 d := by
  unfold classify
  rw [if_neg (by rw [h]; decide), if_neg (by rw [h]; decide), if_pos h]

theorem classify_sha (d : Desc) (h : d.engine = Config.engSha) :
    classify d =
      if d.shaType = Config.typeSha256 then .sha256 d
      else if d.shaType = Config.typeSha384 then .sha384 d else .shaUnsupported d := by
  unfold classify
  rw [if_neg (by rw [h]; decide), if_neg (by rw [h]; decide), if_neg (by rw [h]; decide), if_pos h]

theorem classify_rsa (d : Desc) (h : d.engine = Config.engRsa) :
    classify d =
      if d.isRsa2048 then .rsa2048 d else if d.isRsa4096 then .rsa4096 d else .rsaSkip d := by
  unfold classify
  rw [if_neg (by rw [h]; decide), if_neg (by rw [h]; decide), if_neg (by rw [h]; decide), if_neg (by rw [h]; decide),
    if_pos h]

theorem classify_passthru (d : Desc) (h : d.engine = Config.engPassthru) :
    classify d =
      if d.bitwise ≠ Config.bitwiseNoop then .ptBitwiseUnimpl d
      else if d.byteswap = Config.swapNoop then .ptCopy d
      else if d.byteswap = Config.swap256 then .ptSwap256 d else .ptSwapUnimpl d := by
  unfold classify
  rw [if_neg (by rw [h]; decide), if_neg (by rw [h]; decide), if_neg (by rw [h]; decide), if_neg (by rw [h]; decide),
    if_neg (by rw [h]; decide), if_pos h]

theorem classify_zlib (d : Desc) (h : d.engine = Config.engZlib) :
    classify d =
      if d.init && d.eom then .zlibInflate d else .zlibUnimpl d := by
  unfold classify
  rw [if_neg (by rw [h]; decide), if_neg (by rw [h]; decide), if_neg (by rw [h]; decide), if_neg (by rw [h]; decide),
    if_neg (by rw [h]; decide), if_neg (by rw [h]; decide), if_pos h]

theorem classify_ecc (d : Desc) (h : d.engine = Config.engEcc) :
    classify d = .ecc d := by
  unfold classify
  rw [if_neg (by rw [h]; decide), if_neg (by rw [h]; decide), if_neg (by rw [h]; decide), if_neg (by rw [h]; decide),
    if_neg (by rw [h]; decide), if_neg (by rw [h]; decide), if_neg (by rw [h]; decide), if_pos h]

theorem classify_unknown (d : Desc) (h : d.engine.getLsbD 3 = true) : classify d = .unknownEngine d := by
  have e : ∀ x : BitVec 4, x.getLsbD 3 = true → x ≠ Config.engAes ∧ x ≠ Config.engXts ∧ x ≠ Config.engDes3 ∧
      x ≠ Config.engSha ∧ x ≠ Config.engRsa ∧ x ≠ Config.engPassthru ∧ x ≠ Config.engZlib ∧ x ≠ Config.engEcc := by
    decide
  obtain ⟨h0, h1, h2, h3, h4, h5, h6, h7⟩ := e _ h
  unfold classify
  rw [if_neg h0, if_neg h1, if_neg h2, if_neg h3, if_neg h4, if_neg h5, if_neg h6, if_neg h7]

/-! ### Routing -/

theorem route_global (o : BitVec 12) : route (Config.globalBase + o.toNat) = .globalRegion o := by
  have := o.isLt
  unfold route
  rw [if_pos (by simp only [Config.globalBase, Config.globalSize]; omega)]
  exact congrArg Route.globalRegion (by rw [Nat.add_sub_cancel_left]; simp)

theorem route_config (o : BitVec 12) : route (Config.cfgBase + o.toNat) = .config o := by
  have := o.isLt
  unfold route
  simp only [Config.globalBase, Config.globalSize, Config.qBase, Config.nQueues, Config.qStride, Config.cfgBase,
    Config.cfgSize]
  rw [if_neg (by omega), if_neg (by omega), if_pos (by omega)]
  exact congrArg Route.config (by rw [Nat.add_sub_cancel_left]; simp)

theorem route_queue (q : QId) (r : BitVec 12) : route (queueRegOffset q r) = .queue q r := by
  have hr := r.isLt
  have hq : q.val < 5 := q.isLt
  unfold route queueRegOffset
  simp only [Config.globalBase, Config.globalSize, Config.qBase, Config.nQueues, Config.qStride, Config.qRegionSize]
  rw [if_neg (by omega), if_pos (by omega), if_pos (by omega)]
  have e : 0x1000 + q.val * 0x1000 + r.toNat - 0x1000 = r.toNat + q.val * 0x1000 := by omega
  rw [e, Nat.add_mul_mod_self_right, Nat.add_mul_div_right _ _ (by omega), Nat.div_eq_of_lt hr, Nat.mod_eq_of_lt hr]
  exact congrArg₂ Route.queue (by ext; simp only [Fin.ofNat, Nat.zero_add]; exact Nat.mod_eq_of_lt hq) (by simp)

end Sys2Proof
end

