-- ==== Sys2Proof/Laws/Mem.lean ====
section
/-! SUPPORT. What the memory operations do: the byte read after a write, the bytes left alone, and the canonical form,
which every operation keeps. -/
namespace Sys2Proof.Machine

/-! ### Canonical form -/

theorem Mem.wfFrom_cons {limit low k : Nat} {v : Byte} {m : Mem} :
    Mem.wfFrom limit low ((k, v) :: m) = true ↔
      (low ≤ k ∧ k < limit ∧ v ≠ Config.unlistedByte) ∧ Mem.wfFrom limit (k + 1) m = true := by
  simp [Mem.wfFrom]

theorem Mem.wfFrom_mono {limit low low' : Nat} {m : Mem} (h : low' ≤ low) (hm : Mem.wfFrom limit low m = true) :
    Mem.wfFrom limit low' m = true := by
  cases m with
  | nil => rfl
  | cons e rest =>
    obtain ⟨k, v⟩ := e
    rw [Mem.wfFrom_cons] at hm ⊢
    exact ⟨⟨h.trans hm.1.1, hm.1.2⟩, hm.2⟩

/-- Below its first address a canonical memory reads as unlisted. -/
theorem Mem.get_of_lt {limit low a : Nat} {m : Mem} (hm : Mem.wfFrom limit low m = true) (h : a < low) :
    m.get a = Config.unlistedByte := by
  induction m generalizing low with
  | nil => rfl
  | cons e rest ih =>
    obtain ⟨k, v⟩ := e
    rw [Mem.wfFrom_cons] at hm
    have hk : k ≠ a := by omega
    simp only [Mem.get, if_neg hk]
    exact ih hm.2 (by omega)

theorem Mem.wfFrom_consEntry {limit low a : Nat} {b : Byte} {m : Mem} (hl : low ≤ a) (ha : a < limit)
    (hm : Mem.wfFrom limit (a + 1) m = true) : Mem.wfFrom limit low (Mem.cons a b m) = true := by
  unfold Mem.cons
  split
  · exact Mem.wfFrom_mono (by omega) hm
  · rename_i hb
    rw [Mem.wfFrom_cons]
    exact ⟨⟨hl, ha, hb⟩, hm⟩

theorem Mem.wfFrom_set {limit low a : Nat} {b : Byte} {m : Mem} (hl : low ≤ a) (ha : a < limit)
    (hm : Mem.wfFrom limit low m = true) : Mem.wfFrom limit low (m.set a b) = true := by
  induction m generalizing low with
  | nil => exact Mem.wfFrom_consEntry hl ha rfl
  | cons e rest ih =>
    obtain ⟨k, v⟩ := e
    have hm' := Mem.wfFrom_cons.mp hm
    unfold Mem.set
    split
    · rename_i hlt
      exact Mem.wfFrom_consEntry hl ha (Mem.wfFrom_cons.mpr ⟨⟨hlt, hm'.1.2⟩, hm'.2⟩)
    · split
      · rename_i hk
        subst hk
        exact Mem.wfFrom_consEntry hl ha hm'.2
      · exact Mem.wfFrom_cons.mpr ⟨hm'.1, ih (by omega) hm'.2⟩

/-- A write of one byte keeps the canonical form. -/
theorem Mem.wf_set {limit a : Nat} {b : Byte} {m : Mem} (ha : a < limit) (hm : m.wf limit = true) :
    (m.set a b).wf limit = true := Mem.wfFrom_set (Nat.zero_le a) ha hm

/-- A write of many bytes keeps the canonical form. -/
theorem Mem.wf_write {limit a : Nat} {bs : Bytes} {m : Mem} (ha : a + bs.length ≤ limit) (hm : m.wf limit = true) :
    (m.write a bs).wf limit = true := by
  induction bs generalizing a m with
  | nil => exact hm
  | cons b bs ih =>
    simp only [List.length_cons] at ha
    exact ih (by omega) (Mem.wf_set (by omega) hm)

/-! ### Reading after writing -/

theorem Mem.get_cons_ne {a k : Nat} {b : Byte} {m : Mem} (h : k ≠ a) : (Mem.cons k b m).get a = m.get a := by
  unfold Mem.cons
  split
  · rfl
  · simp [Mem.get, h]

theorem Mem.get_cons_same {limit a : Nat} {b : Byte} {m : Mem} (hm : Mem.wfFrom limit (a + 1) m = true) :
    (Mem.cons a b m).get a = b := by
  unfold Mem.cons
  split
  · rename_i hb
    rw [hb]
    exact Mem.get_of_lt hm (Nat.lt_succ_self a)
  · simp [Mem.get]

/-- A write leaves every other byte alone, in any memory. -/
theorem Mem.get_set_ne {a c : Nat} {b : Byte} {m : Mem} (h : c ≠ a) : (m.set a b).get c = m.get c := by
  induction m with
  | nil => exact Mem.get_cons_ne (Ne.symm h)
  | cons e rest ih =>
    obtain ⟨k, v⟩ := e
    unfold Mem.set
    split
    · exact Mem.get_cons_ne (Ne.symm h)
    · split
      · rename_i hk
        subst hk
        rw [Mem.get_cons_ne (Ne.symm h)]
        simp [Mem.get, Ne.symm h]
      · simp only [Mem.get, ih]

theorem Mem.get_set_same_from {limit low a : Nat} {b : Byte} {m : Mem} (hm : Mem.wfFrom limit low m = true) :
    (m.set a b).get a = b := by
  induction m generalizing low with
  | nil => exact Mem.get_cons_same (limit := limit) rfl
  | cons e rest ih =>
    obtain ⟨k, v⟩ := e
    have hm' := Mem.wfFrom_cons.mp hm
    unfold Mem.set
    split
    · rename_i hlt
      exact Mem.get_cons_same (Mem.wfFrom_cons.mpr ⟨⟨hlt, hm'.1.2⟩, hm'.2⟩)
    · split
      · rename_i hk
        subst hk
        exact Mem.get_cons_same hm'.2
      · rename_i hk
        simp only [Mem.get, if_neg hk]
        exact ih hm'.2

/-- A byte written reads back, in a canonical memory. -/
theorem Mem.get_set_same {limit a : Nat} {b : Byte} {m : Mem} (hm : m.wf limit = true) : (m.set a b).get a = b :=
  Mem.get_set_same_from hm

/-- A write of many bytes leaves every byte outside them alone, in any memory. -/
theorem Mem.get_write_outside {a c : Nat} {bs : Bytes} {m : Mem} (h : c < a ∨ a + bs.length ≤ c) :
    (m.write a bs).get c = m.get c := by
  induction bs generalizing a m with
  | nil => rfl
  | cons b bs ih =>
    simp only [List.length_cons] at h
    rw [Mem.write, ih (by omega), Mem.get_set_ne (by omega)]

/-- The bytes written read back, in a canonical memory they lie in. -/
theorem Mem.get_write_inside {limit a i : Nat} {bs : Bytes} {m : Mem} (hm : m.wf limit = true)
    (hl : a + bs.length ≤ limit) (h : i < bs.length) : (m.write a bs).get (a + i) = bs[i] := by
  induction bs generalizing a m i with
  | nil => simp at h
  | cons b bs ih =>
    simp only [List.length_cons] at h hl
    have hm' : (m.set a b).wf limit = true := Mem.wf_set (by omega) hm
    cases i with
    | zero =>
      change ((m.set a b).write (a + 1) bs).get a = b
      rw [Mem.get_write_outside (by omega), Mem.get_set_same hm]
    | succ i =>
      rw [Mem.write, show a + (i + 1) = a + 1 + i by omega, ih hm' (by omega) (by omega)]
      rfl

@[simp] theorem Mem.write_nil {a : Nat} {m : Mem} : m.write a [] = m := rfl

/-! ### Reading ranges -/

@[simp] theorem Mem.length_read {m : Mem} {a n : Nat} : (m.read a n).length = n := by
  induction n generalizing a with
  | zero => rfl
  | succ n ih => simp [Mem.read, ih]

theorem Mem.getElem_read {m : Mem} {a n i : Nat} (h : i < (m.read a n).length) : (m.read a n)[i] = m.get (a + i) := by
  induction n generalizing a i with
  | zero => simp [Mem.read] at h
  | succ n ih =>
    cases i with
    | zero => rfl
    | succ i =>
      simp only [Mem.read, List.getElem_cons_succ]
      rw [ih (by simpa [Mem.read] using h), show a + 1 + i = a + (i + 1) by omega]

/-- A range read is the list of its bytes. -/
theorem Mem.read_eq_map {m : Mem} {a n : Nat} : m.read a n = (List.range n).map fun i => m.get (a + i) :=
  List.ext_getElem (by simp) fun i h1 h2 => by rw [Mem.getElem_read]; simp

/-! ### Equal memories are equal data -/

theorem Mem.ext_from {limit low : Nat} {m m' : Mem} (hm : Mem.wfFrom limit low m = true)
    (hm' : Mem.wfFrom limit low m' = true) (h : ∀ a, m.get a = m'.get a) : m = m' := by
  induction m generalizing low m' with
  | nil =>
    cases m' with
    | nil => rfl
    | cons e rest =>
      obtain ⟨k, v⟩ := e
      have := (Mem.wfFrom_cons.mp hm').1.2.2
      have hk := h k
      simp [Mem.get] at hk
      exact absurd hk.symm this
  | cons e rest ih =>
    obtain ⟨k, v⟩ := e
    have w := Mem.wfFrom_cons.mp hm
    cases m' with
    | nil =>
      have hk := h k
      simp [Mem.get] at hk
      exact absurd hk w.1.2.2
    | cons e' rest' =>
      obtain ⟨k', v'⟩ := e'
      have w' := Mem.wfFrom_cons.mp hm'
      have key : k = k' := by
        rcases Nat.lt_trichotomy k k' with lt | eq | gt
        · have hk := h k
          rw [Mem.get_of_lt (low := k') (Mem.wfFrom_cons.mpr ⟨⟨le_rfl, w'.1.2⟩, w'.2⟩) lt] at hk
          simp [Mem.get] at hk
          exact absurd hk w.1.2.2
        · exact eq
        · have hk := h k'
          rw [Mem.get_of_lt (low := k) (Mem.wfFrom_cons.mpr ⟨⟨le_rfl, w.1.2⟩, w.2⟩) gt] at hk
          simp [Mem.get] at hk
          exact absurd hk.symm w'.1.2.2
      subst key
      have hv : v = v' := by simpa [Mem.get] using h k
      subst hv
      congr 1
      refine ih w.2 w'.2 fun a => ?_
      by_cases ha : a = k
      · subst ha
        rw [Mem.get_of_lt w.2 (Nat.lt_succ_self a), Mem.get_of_lt w'.2 (Nat.lt_succ_self a)]
      · have := h a
        simpa [Mem.get, Ne.symm ha] using this

/-- Two canonical memories that read alike are equal. -/
theorem Mem.ext {limit : Nat} {m m' : Mem} (hm : m.wf limit = true) (hm' : m'.wf limit = true)
    (h : ∀ a, m.get a = m'.get a) : m = m' := Mem.ext_from hm hm' h

/-- The reset contents have the canonical form. -/
theorem Mem.wf_reset : State.reset.gm.wf Config.guestLimit = true ∧ State.reset.lsb.wf Config.lsbSize = true :=
  ⟨rfl, rfl⟩

end Sys2Proof.Machine
end

