-- ==== Sys2Proof/Laws/State.lean ====
section
/-! SUPPORT. One lemma per field per update of `State`, all true by `rfl`, so that no later proof unfolds a record
update. -/
namespace Sys2Proof.Machine

/-! #### `setQueue` -/

@[simp] theorem State.setQueue_lsb (s : State) (q : QId) (r : Queue) : (s.setQueue q r).lsb = s.lsb := rfl
@[simp] theorem State.setQueue_hctx (s : State) (q : QId) (r : Queue) : (s.setQueue q r).hctx = s.hctx := rfl
@[simp] theorem State.setQueue_zctx (s : State) (q : QId) (r : Queue) : (s.setQueue q r).zctx = s.zctx := rfl
@[simp] theorem State.setQueue_diag (s : State) (q : QId) (r : Queue) : (s.setQueue q r).diag = s.diag := rfl
@[simp] theorem State.setQueue_gm (s : State) (q : QId) (r : Queue) : (s.setQueue q r).gm = s.gm := rfl
@[simp] theorem State.setQueue_mapAnswers (s : State) (q : QId) (r : Queue) : (s.setQueue q r).mapAnswers = s.mapAnswers := rfl
@[simp] theorem State.setQueue_mapCalls (s : State) (q : QId) (r : Queue) : (s.setQueue q r).mapCalls = s.mapCalls := rfl
@[simp] theorem State.setQueue_draining (s : State) (q : QId) (r : Queue) : (s.setQueue q r).draining = s.draining := rfl
@[simp] theorem State.setQueue_host (s : State) (q : QId) (r : Queue) : (s.setQueue q r).host = s.host := rfl
@[simp] theorem State.setQueue_busData (s : State) (q : QId) (r : Queue) : (s.setQueue q r).busData = s.busData := rfl

/-! #### `setControl` -/

@[simp] theorem State.setControl_lsb (s : State) (q : QId) (v : Word) : (s.setControl q v).lsb = s.lsb := rfl
@[simp] theorem State.setControl_hctx (s : State) (q : QId) (v : Word) : (s.setControl q v).hctx = s.hctx := rfl
@[simp] theorem State.setControl_zctx (s : State) (q : QId) (v : Word) : (s.setControl q v).zctx = s.zctx := rfl
@[simp] theorem State.setControl_diag (s : State) (q : QId) (v : Word) : (s.setControl q v).diag = s.diag := rfl
@[simp] theorem State.setControl_gm (s : State) (q : QId) (v : Word) : (s.setControl q v).gm = s.gm := rfl
@[simp] theorem State.setControl_mapAnswers (s : State) (q : QId) (v : Word) : (s.setControl q v).mapAnswers = s.mapAnswers := rfl
@[simp] theorem State.setControl_mapCalls (s : State) (q : QId) (v : Word) : (s.setControl q v).mapCalls = s.mapCalls := rfl
@[simp] theorem State.setControl_draining (s : State) (q : QId) (v : Word) : (s.setControl q v).draining = s.draining := rfl
@[simp] theorem State.setControl_host (s : State) (q : QId) (v : Word) : (s.setControl q v).host = s.host := rfl
@[simp] theorem State.setControl_busData (s : State) (q : QId) (v : Word) : (s.setControl q v).busData = s.busData := rfl

/-! #### `setTail` -/

@[simp] theorem State.setTail_lsb (s : State) (q : QId) (v : Word) : (s.setTail q v).lsb = s.lsb := rfl
@[simp] theorem State.setTail_hctx (s : State) (q : QId) (v : Word) : (s.setTail q v).hctx = s.hctx := rfl
@[simp] theorem State.setTail_zctx (s : State) (q : QId) (v : Word) : (s.setTail q v).zctx = s.zctx := rfl
@[simp] theorem State.setTail_diag (s : State) (q : QId) (v : Word) : (s.setTail q v).diag = s.diag := rfl
@[simp] theorem State.setTail_gm (s : State) (q : QId) (v : Word) : (s.setTail q v).gm = s.gm := rfl
@[simp] theorem State.setTail_mapAnswers (s : State) (q : QId) (v : Word) : (s.setTail q v).mapAnswers = s.mapAnswers := rfl
@[simp] theorem State.setTail_mapCalls (s : State) (q : QId) (v : Word) : (s.setTail q v).mapCalls = s.mapCalls := rfl
@[simp] theorem State.setTail_draining (s : State) (q : QId) (v : Word) : (s.setTail q v).draining = s.draining := rfl
@[simp] theorem State.setTail_host (s : State) (q : QId) (v : Word) : (s.setTail q v).host = s.host := rfl
@[simp] theorem State.setTail_busData (s : State) (q : QId) (v : Word) : (s.setTail q v).busData = s.busData := rfl

/-! #### `setHead` -/

@[simp] theorem State.setHead_lsb (s : State) (q : QId) (v : Word) : (s.setHead q v).lsb = s.lsb := rfl
@[simp] theorem State.setHead_hctx (s : State) (q : QId) (v : Word) : (s.setHead q v).hctx = s.hctx := rfl
@[simp] theorem State.setHead_zctx (s : State) (q : QId) (v : Word) : (s.setHead q v).zctx = s.zctx := rfl
@[simp] theorem State.setHead_diag (s : State) (q : QId) (v : Word) : (s.setHead q v).diag = s.diag := rfl
@[simp] theorem State.setHead_gm (s : State) (q : QId) (v : Word) : (s.setHead q v).gm = s.gm := rfl
@[simp] theorem State.setHead_mapAnswers (s : State) (q : QId) (v : Word) : (s.setHead q v).mapAnswers = s.mapAnswers := rfl
@[simp] theorem State.setHead_mapCalls (s : State) (q : QId) (v : Word) : (s.setHead q v).mapCalls = s.mapCalls := rfl
@[simp] theorem State.setHead_draining (s : State) (q : QId) (v : Word) : (s.setHead q v).draining = s.draining := rfl
@[simp] theorem State.setHead_host (s : State) (q : QId) (v : Word) : (s.setHead q v).host = s.host := rfl
@[simp] theorem State.setHead_busData (s : State) (q : QId) (v : Word) : (s.setHead q v).busData = s.busData := rfl

/-! #### `setStatus` -/

@[simp] theorem State.setStatus_lsb (s : State) (q : QId) (v : Word) : (s.setStatus q v).lsb = s.lsb := rfl
@[simp] theorem State.setStatus_hctx (s : State) (q : QId) (v : Word) : (s.setStatus q v).hctx = s.hctx := rfl
@[simp] theorem State.setStatus_zctx (s : State) (q : QId) (v : Word) : (s.setStatus q v).zctx = s.zctx := rfl
@[simp] theorem State.setStatus_diag (s : State) (q : QId) (v : Word) : (s.setStatus q v).diag = s.diag := rfl
@[simp] theorem State.setStatus_gm (s : State) (q : QId) (v : Word) : (s.setStatus q v).gm = s.gm := rfl
@[simp] theorem State.setStatus_mapAnswers (s : State) (q : QId) (v : Word) : (s.setStatus q v).mapAnswers = s.mapAnswers := rfl
@[simp] theorem State.setStatus_mapCalls (s : State) (q : QId) (v : Word) : (s.setStatus q v).mapCalls = s.mapCalls := rfl
@[simp] theorem State.setStatus_draining (s : State) (q : QId) (v : Word) : (s.setStatus q v).draining = s.draining := rfl
@[simp] theorem State.setStatus_host (s : State) (q : QId) (v : Word) : (s.setStatus q v).host = s.host := rfl
@[simp] theorem State.setStatus_busData (s : State) (q : QId) (v : Word) : (s.setStatus q v).busData = s.busData := rfl

/-! #### `diagnose` -/

@[simp] theorem State.diagnose_queues (s : State) (e : DiagEvent) : (s.diagnose e).queues = s.queues := rfl
@[simp] theorem State.diagnose_lsb (s : State) (e : DiagEvent) : (s.diagnose e).lsb = s.lsb := rfl
@[simp] theorem State.diagnose_hctx (s : State) (e : DiagEvent) : (s.diagnose e).hctx = s.hctx := rfl
@[simp] theorem State.diagnose_zctx (s : State) (e : DiagEvent) : (s.diagnose e).zctx = s.zctx := rfl
@[simp] theorem State.diagnose_gm (s : State) (e : DiagEvent) : (s.diagnose e).gm = s.gm := rfl
@[simp] theorem State.diagnose_mapAnswers (s : State) (e : DiagEvent) : (s.diagnose e).mapAnswers = s.mapAnswers := rfl
@[simp] theorem State.diagnose_mapCalls (s : State) (e : DiagEvent) : (s.diagnose e).mapCalls = s.mapCalls := rfl
@[simp] theorem State.diagnose_draining (s : State) (e : DiagEvent) : (s.diagnose e).draining = s.draining := rfl
@[simp] theorem State.diagnose_host (s : State) (e : DiagEvent) : (s.diagnose e).host = s.host := rfl
@[simp] theorem State.diagnose_busData (s : State) (e : DiagEvent) : (s.diagnose e).busData = s.busData := rfl
@[simp] theorem State.diagnose_queue (s : State) (e : DiagEvent) (p : QId) : (s.diagnose e).queue p = s.queue p := rfl
@[simp] theorem State.diagnose_diagQueue (s : State) (e : DiagEvent) : (s.diagnose e).diagQueue = s.diagQueue := rfl

@[simp] theorem State.diagnose_diag (s : State) (e : DiagEvent) :
    (s.diagnose e).diag = s.diag ++ [⟨s.diagQueue, e⟩] := rfl

/-! #### `respond` -/

@[simp] theorem State.respond_queues (s : State) (v : Word) : (s.respond v).queues = s.queues := rfl
@[simp] theorem State.respond_lsb (s : State) (v : Word) : (s.respond v).lsb = s.lsb := rfl
@[simp] theorem State.respond_hctx (s : State) (v : Word) : (s.respond v).hctx = s.hctx := rfl
@[simp] theorem State.respond_zctx (s : State) (v : Word) : (s.respond v).zctx = s.zctx := rfl
@[simp] theorem State.respond_diag (s : State) (v : Word) : (s.respond v).diag = s.diag := rfl
@[simp] theorem State.respond_gm (s : State) (v : Word) : (s.respond v).gm = s.gm := rfl
@[simp] theorem State.respond_mapAnswers (s : State) (v : Word) : (s.respond v).mapAnswers = s.mapAnswers := rfl
@[simp] theorem State.respond_mapCalls (s : State) (v : Word) : (s.respond v).mapCalls = s.mapCalls := rfl
@[simp] theorem State.respond_draining (s : State) (v : Word) : (s.respond v).draining = s.draining := rfl
@[simp] theorem State.respond_host (s : State) (v : Word) : (s.respond v).host = s.host := rfl
@[simp] theorem State.respond_queue (s : State) (v : Word) (p : QId) : (s.respond v).queue p = s.queue p := rfl
@[simp] theorem State.respond_diagQueue (s : State) (v : Word) : (s.respond v).diagQueue = s.diagQueue := rfl

@[simp] theorem State.respond_busData (s : State) (v : Word) : (s.respond v).busData = wordBytes v := rfl

/-! #### `acknowledge` -/

@[simp] theorem State.acknowledge_queues (s : State) : s.acknowledge.queues = s.queues := rfl
@[simp] theorem State.acknowledge_lsb (s : State) : s.acknowledge.lsb = s.lsb := rfl
@[simp] theorem State.acknowledge_hctx (s : State) : s.acknowledge.hctx = s.hctx := rfl
@[simp] theorem State.acknowledge_zctx (s : State) : s.acknowledge.zctx = s.zctx := rfl
@[simp] theorem State.acknowledge_diag (s : State) : s.acknowledge.diag = s.diag := rfl
@[simp] theorem State.acknowledge_gm (s : State) : s.acknowledge.gm = s.gm := rfl
@[simp] theorem State.acknowledge_mapAnswers (s : State) : s.acknowledge.mapAnswers = s.mapAnswers := rfl
@[simp] theorem State.acknowledge_mapCalls (s : State) : s.acknowledge.mapCalls = s.mapCalls := rfl
@[simp] theorem State.acknowledge_draining (s : State) : s.acknowledge.draining = s.draining := rfl
@[simp] theorem State.acknowledge_host (s : State) : s.acknowledge.host = s.host := rfl
@[simp] theorem State.acknowledge_queue (s : State) (p : QId) : s.acknowledge.queue p = s.queue p := rfl
@[simp] theorem State.acknowledge_diagQueue (s : State) : s.acknowledge.diagQueue = s.diagQueue := rfl

@[simp] theorem State.acknowledge_busData (s : State) : s.acknowledge.busData = [] := rfl

/-! #### `guestMap` -/

@[simp] theorem guestMap_queues (addr len : Nat) (w : Bool) (s : State) : (guestMap addr len w s).2.queues = s.queues := rfl
@[simp] theorem guestMap_lsb (addr len : Nat) (w : Bool) (s : State) : (guestMap addr len w s).2.lsb = s.lsb := rfl
@[simp] theorem guestMap_hctx (addr len : Nat) (w : Bool) (s : State) : (guestMap addr len w s).2.hctx = s.hctx := rfl
@[simp] theorem guestMap_zctx (addr len : Nat) (w : Bool) (s : State) : (guestMap addr len w s).2.zctx = s.zctx := rfl
@[simp] theorem guestMap_diag (addr len : Nat) (w : Bool) (s : State) : (guestMap addr len w s).2.diag = s.diag := rfl
@[simp] theorem guestMap_gm (addr len : Nat) (w : Bool) (s : State) : (guestMap addr len w s).2.gm = s.gm := rfl
@[simp] theorem guestMap_draining (addr len : Nat) (w : Bool) (s : State) : (guestMap addr len w s).2.draining = s.draining := rfl
@[simp] theorem guestMap_host (addr len : Nat) (w : Bool) (s : State) : (guestMap addr len w s).2.host = s.host := rfl
@[simp] theorem guestMap_busData (addr len : Nat) (w : Bool) (s : State) : (guestMap addr len w s).2.busData = s.busData := rfl
@[simp] theorem guestMap_queue (addr len : Nat) (w : Bool) (s : State) (p : QId) : (guestMap addr len w s).2.queue p = s.queue p := rfl
@[simp] theorem guestMap_diagQueue (addr len : Nat) (w : Bool) (s : State) : (guestMap addr len w s).2.diagQueue = s.diagQueue := rfl

@[simp] theorem guestMap_mapAnswers (addr len : Nat) (w : Bool) (s : State) :
    (guestMap addr len w s).2.mapAnswers = s.mapAnswers.tail := rfl
@[simp] theorem guestMap_mapCalls (addr len : Nat) (w : Bool) (s : State) :
    (guestMap addr len w s).2.mapCalls = s.mapCalls + 1 := rfl

/-! #### Updates of one field keep every queue -/

@[simp] theorem State.queue_with_lsb (s : State) (x : Mem) (p : QId) :
    State.queue { s with lsb := x } p = s.queue p := rfl
@[simp] theorem State.queue_with_hctx (s : State) (x : Option HashCtx) (p : QId) :
    State.queue { s with hctx := x } p = s.queue p := rfl
@[simp] theorem State.queue_with_zctx (s : State) (x : Option InflateCtx) (p : QId) :
    State.queue { s with zctx := x } p = s.queue p := rfl
@[simp] theorem State.queue_with_diag (s : State) (x : List DiagEntry) (p : QId) :
    State.queue { s with diag := x } p = s.queue p := rfl
@[simp] theorem State.queue_with_gm (s : State) (x : Mem) (p : QId) :
    State.queue { s with gm := x } p = s.queue p := rfl
@[simp] theorem State.queue_with_mapAnswers (s : State) (x : List Nat) (p : QId) :
    State.queue { s with mapAnswers := x } p = s.queue p := rfl
@[simp] theorem State.queue_with_mapCalls (s : State) (x : Nat) (p : QId) :
    State.queue { s with mapCalls := x } p = s.queue p := rfl
@[simp] theorem State.queue_with_draining (s : State) (x : Option QId) (p : QId) :
    State.queue { s with draining := x } p = s.queue p := rfl
@[simp] theorem State.queue_with_host (s : State) (x : List HostEvent) (p : QId) :
    State.queue { s with host := x } p = s.queue p := rfl
@[simp] theorem State.queue_with_busData (s : State) (x : Bytes) (p : QId) :
    State.queue { s with busData := x } p = s.queue p := rfl

/-! #### The queue that is set -/

@[simp] theorem State.setQueue_queue_same (s : State) (q : QId) (r : Queue) : (s.setQueue q r).queue q = r := by
  simp [State.setQueue, State.queue]

theorem State.setQueue_queue_ne (s : State) {q p : QId} (r : Queue) (h : p ≠ q) :
    (s.setQueue q r).queue p = s.queue p := by
  have hv : q.val ≠ p.val := fun e => h (Fin.ext e.symm)
  simp [State.setQueue, State.queue, hv]

theorem State.setQueue_queue (s : State) (q p : QId) (r : Queue) :
    (s.setQueue q r).queue p = if p = q then r else s.queue p := by
  by_cases h : p = q
  · subst h; simp
  · simp [h, State.setQueue_queue_ne]

@[simp] theorem State.setControl_queue_same (s : State) (q : QId) (v : Word) :
    (s.setControl q v).queue q = { s.queue q with control := v } := by simp [State.setControl]

@[simp] theorem State.setTail_queue_same (s : State) (q : QId) (v : Word) :
    (s.setTail q v).queue q = { s.queue q with tail := v } := by simp [State.setTail]

@[simp] theorem State.setHead_queue_same (s : State) (q : QId) (v : Word) :
    (s.setHead q v).queue q = { s.queue q with head := v } := by simp [State.setHead]

@[simp] theorem State.setStatus_queue_same (s : State) (q : QId) (v : Word) :
    (s.setStatus q v).queue q = { s.queue q with status := v } := by simp [State.setStatus]

/-- Two states with the same queues, one by one, have the same queues. -/
theorem queues_ext {v w : Vector Queue Config.nQueues} (h : ∀ q : QId, v[q.val] = w[q.val]) : v = w := by
  exact Vector.ext fun i hi => h ⟨i, hi⟩

end Sys2Proof.Machine
end

