-- ==== Sys2Proof/Laws/Ops.lean ====
section
/-! SUPPORT. One lemma for each shared operation that says once everything it can do. -/
namespace Sys2Proof.Machine

/-! ### The guest-memory capability -/

/-- A grant is at most the requested length and never passes `2^48` (20_memory.md R66). -/
theorem guestMap_le (addr len : Nat) (w : Bool) (s : State) :
    (guestMap addr len w s).1 ≤ len ∧ (guestMap addr len w s).1 ≤ Config.guestLimit - addr := by
  unfold guestMap; exact ⟨by omega, by omega⟩

/-- The state after a mapping request is the state with one request made. -/
theorem guestMap_snd (addr len : Nat) (w : Bool) (s : State) : (guestMap addr len w s).2 = afterRequests s 1 := by
  simp [guestMap, afterRequests]

/-- The grant of the next request. -/
theorem guestMap_fst (addr len : Nat) (w : Bool) (s : State) : (guestMap addr len w s).1 = grantAt s 0 addr len w := by
  simp [guestMap, grantAt, State.nextAnswer]

theorem grantAt_afterRequests (s : State) (k j addr len : Nat) (w : Bool) :
    grantAt (afterRequests s k) j addr len w = grantAt s (k + j) addr len w := by
  simp [grantAt, afterRequests, List.drop_drop, Nat.add_assoc]

theorem grantAt_le (s : State) (k addr len : Nat) (w : Bool) :
    grantAt s k addr len w ≤ len ∧ grantAt s k addr len w ≤ Config.guestLimit - addr := by
  unfold grantAt; exact ⟨by omega, by omega⟩

@[simp] theorem afterRequests_diag (s : State) (k : Nat) : (afterRequests s k).diag = s.diag := rfl

@[simp] theorem afterRequests_diagQueue (s : State) (k : Nat) : (afterRequests s k).diagQueue = s.diagQueue := rfl

@[simp] theorem afterRequests_zero (s : State) : afterRequests s 0 = s := by simp [afterRequests]

theorem afterRequests_add (s : State) (j k : Nat) :
    afterRequests (afterRequests s j) k = afterRequests s (j + k) := by
  simp [afterRequests, List.drop_drop, Nat.add_assoc]

/-! ### The shim -/

/-- A failed access aborts: its code is that of `GuestMemoryError`, `ScratchBounds` or `UnsupportedMemType`. -/
theorem accessFailure_code (s : State) (k : Nat) (mt : MemType) (a n : Nat) (w : Bool) :
    (accessFailure s k mt a n w).code ∈ [4, 5, 6] := by
  cases mt <;> simp [accessFailure, DiagEvent.code]

theorem accessFailure_afterRequests (s : State) (j k : Nat) (mt : MemType) (a n : Nat) (w : Bool) :
    accessFailure (afterRequests s j) k mt a n w = accessFailure s (j + k) mt a n w := by
  cases mt <;> simp [accessFailure, grantAt_afterRequests]

theorem failedAccess_afterRequests (s : State) (j k : Nat) (mt : MemType) (a n : Nat) (w : Bool) :
    failedAccess (afterRequests s j) k mt a n w = failedAccess s (j + k) mt a n w := by
  unfold failedAccess
  rw [accessFailure_afterRequests, afterRequests_add, Nat.add_assoc]
  rfl

/-- What `memRead` can do: it raises the event of the failed access after at most one mapping request, or it gives the
bytes of the range after the requests the range takes. -/
theorem memRead_cases (mt : MemType) (addr n : Nat) (s : State) :
    (accessible s 0 mt addr n false = true ∧
      memRead mt addr n s = (.ok (spaceBytes s mt addr n), afterRequests s (mapRequests mt n))) ∨
    (accessible s 0 mt addr n false = false ∧
      memRead mt addr n s = (.error (accessFailure s 0 mt addr n false), failedAccess s 0 mt addr n false)) := by
  cases mt with
  | system => exact Or.inr ⟨rfl, rfl⟩
  | unnamed => exact Or.inr ⟨rfl, rfl⟩
  | scratch =>
    by_cases h : addr + n ≤ Config.lsbSize
    · refine Or.inl ⟨decide_eq_true h, ?_⟩
      simp [memRead, scratchOk, h, mapRequests, Mem.read_eq_map, spaceBytes, spaceByte]
    · refine Or.inr ⟨decide_eq_false h, ?_⟩
      simp only [memRead, scratchOk, h, decide_false]
      rfl
  | loc =>
    by_cases hn : n = 0
    · subst hn
      refine Or.inl ⟨rfl, ?_⟩
      simp [memRead, mapRequests, spaceBytes]
    · have hle := (grantAt_le s 0 addr n false).1
      by_cases hg : grantAt s 0 addr n false = n
      · refine Or.inl ⟨decide_eq_true (Or.inr hg), ?_⟩
        simp only [memRead, if_neg hn, guestMap_fst, hg, guestMap_snd, lt_irrefl, if_false]
        simp [mapRequests, hn, Mem.read_eq_map, spaceBytes, spaceByte, afterRequests]
      · refine Or.inr ⟨by simp [accessible, hn, hg], ?_⟩
        have hlt : grantAt s 0 addr n false < n := by omega
        simp only [memRead, if_neg hn, guestMap_fst, guestMap_snd, if_pos hlt]
        simp [failedAccess, accessFailure, mapRequests, hn, raise, State.diagnose]

/-- The state after writing bytes to a space. -/
theorem writeGranted_memories (mt : MemType) (addr : Nat) (v : Bytes) (s : State) :
    SameButMemory s (writeGranted mt addr v s) := by
  cases mt <;> rfl

/-- What `memWrite` can do: it raises the event of the failed access and stores nothing, or it stores the bytes. -/
theorem memWrite_cases (mt : MemType) (addr : Nat) (v : Bytes) (s : State) :
    (accessible s 0 mt addr v.length true = true ∧
      memWrite mt addr v s = (.ok (), writeGranted mt addr v (afterRequests s (mapRequests mt v.length)))) ∨
    (accessible s 0 mt addr v.length true = false ∧
      memWrite mt addr v s =
        (.error (accessFailure s 0 mt addr v.length true), failedAccess s 0 mt addr v.length true)) := by
  cases mt with
  | system => exact Or.inr ⟨rfl, rfl⟩
  | unnamed => exact Or.inr ⟨rfl, rfl⟩
  | scratch =>
    by_cases h : addr + v.length ≤ Config.lsbSize
    · refine Or.inl ⟨decide_eq_true h, ?_⟩
      simp [memWrite, scratchOk, h, mapRequests, writeGranted]
    · refine Or.inr ⟨decide_eq_false h, ?_⟩
      simp only [memWrite, scratchOk, h, decide_false]
      rfl
  | loc =>
    by_cases hn : v.length = 0
    · refine Or.inl ⟨decide_eq_true (Or.inl hn), ?_⟩
      have hv : v = [] := List.length_eq_zero_iff.mp hn
      subst hv
      simp [memWrite, mapRequests, writeGranted]
    · have hle := (grantAt_le s 0 addr v.length true).1
      by_cases hg : grantAt s 0 addr v.length true = v.length
      · refine Or.inl ⟨decide_eq_true (Or.inr hg), ?_⟩
        simp only [memWrite, if_neg hn, guestMap_fst, hg, guestMap_snd, lt_irrefl, if_false]
        simp [mapRequests, hn, writeGranted]
      · refine Or.inr ⟨by simpa [accessible, hn] using hg, ?_⟩
        have hlt : grantAt s 0 addr v.length true < v.length := by omega
        simp only [memWrite, if_neg hn, guestMap_fst, guestMap_snd, if_pos hlt]
        simp [failedAccess, accessFailure, mapRequests, hn, raise, State.diagnose]

/-- What `memMapW` can do: it raises `UnsupportedMemType`, or it grants some of the range, with a warning where that is
not all of it. -/
theorem memMapW_cases (mt : MemType) (addr n : Nat) (s : State) :
    ((mt = .system ∨ mt = .unnamed) ∧
      memMapW mt addr n s = (.error (.unsupportedMemType mt), s.diagnose (.unsupportedMemType mt))) ∨
    (mt = .scratch ∧ addr + n ≤ Config.lsbSize ∧ memMapW mt addr n s = (.ok n, s)) ∨
    (mt = .scratch ∧ ¬ addr + n ≤ Config.lsbSize ∧
      memMapW mt addr n s = (.ok 0, s.diagnose (.scratchBounds addr n))) ∨
    (mt = .loc ∧ grantAt s 0 addr n true = n ∧ memMapW mt addr n s = (.ok n, afterRequests s 1)) ∨
    (mt = .loc ∧ grantAt s 0 addr n true < n ∧
      memMapW mt addr n s = (.ok (grantAt s 0 addr n true),
        (afterRequests s 1).diagnose (.partialOutput addr n (grantAt s 0 addr n true)))) := by
  cases mt with
  | system => exact Or.inl ⟨Or.inl rfl, rfl⟩
  | unnamed => exact Or.inl ⟨Or.inr rfl, rfl⟩
  | scratch =>
    by_cases h : addr + n ≤ Config.lsbSize
    · exact Or.inr (Or.inl ⟨rfl, h, by simp [memMapW, scratchOk, h]⟩)
    · exact Or.inr (Or.inr (Or.inl ⟨rfl, h, by simp [memMapW, scratchOk, h]⟩))
  | loc =>
    have hle := (grantAt_le s 0 addr n true).1
    by_cases hg : grantAt s 0 addr n true = n
    · exact Or.inr (Or.inr (Or.inr (Or.inl ⟨rfl, hg, by simp [memMapW, guestMap_fst, guestMap_snd, hg]⟩)))
    · have hlt : grantAt s 0 addr n true < n := by omega
      exact Or.inr (Or.inr (Or.inr (Or.inr ⟨rfl, hlt, by simp [memMapW, guestMap_fst, guestMap_snd, hlt]⟩)))

/-- What `lsbWriteSlot` can do: it stores all the bytes, or it raises `ScratchBounds` and stores none. -/
theorem lsbWriteSlot_cases (id : BitVec 8) (b : Bytes) (s : State) :
    (slotOffset id + b.length ≤ Config.lsbSize ∧
      lsbWriteSlot id b s = (.ok (), { s with lsb := s.lsb.write (slotOffset id) b })) ∨
    (¬ slotOffset id + b.length ≤ Config.lsbSize ∧
      lsbWriteSlot id b s = (.error (.scratchBounds (slotOffset id) b.length),
        s.diagnose (.scratchBounds (slotOffset id) b.length))) := by
  by_cases h : slotOffset id + b.length ≤ Config.lsbSize
  · exact Or.inl ⟨h, by simp [lsbWriteSlot, scratchOk, h]⟩
  · exact Or.inr ⟨h, by simp [lsbWriteSlot, scratchOk, h, raise]⟩

/-! ### Bytes -/

@[simp] theorem wordBytes_length (v : Word) : (wordBytes v).length = 4 := rfl

@[simp] theorem bytesLe_length (v n : Nat) : (bytesLe v n).length = n := by
  induction n generalizing v with
  | zero => rfl
  | succ n ih => simp [bytesLe, ih]

/-- A number below `256^n` is read back from its `n` bytes (00_scope.md R11). -/
theorem natLe_bytesLe (v n : Nat) (h : v < 256 ^ n) : natLe (bytesLe v n) = v := by
  induction n generalizing v with
  | zero => simp [bytesLe, natLe]; omega
  | succ n ih =>
    have hq : v / 256 < 256 ^ n := by
      rw [Nat.div_lt_iff_lt_mul (by norm_num)]
      calc v < 256 ^ (n + 1) := h
        _ = 256 ^ n * 256 := pow_succ 256 n
    simp only [bytesLe, natLe, ih _ hq, BitVec.toNat_ofNat]
    omega

@[simp] theorem beBytes_length (n v : Nat) : (beBytes n v).length = n := by
  induction n generalizing v with
  | zero => rfl
  | succ n ih => simp [beBytes, ih]

/-- Digest sizes (42_hash.md R207): 32 bytes for SHA-256, 48 for SHA-384. -/
theorem digest_length (t : HashType) (msg : Bytes) :
    (digest t msg).length = match t with | .sha256 => 32 | .sha384 => 48 := by
  cases t <;> simp only [digest, sha256, sha384] <;> split <;> simp

/-- The output of `INFLATE` fits the buffer (00_scope.md R9). -/
theorem inflate_length_le (input : Bytes) (cap : Nat) : (inflate input cap).length ≤ cap := by
  unfold inflate inflateAs
  split
  · simp
  · split <;> simp

/-- No output fits an empty buffer. -/
@[simp] theorem inflate_zero (input : Bytes) : inflate input 0 = [] :=
  List.length_eq_zero_iff.mp (Nat.le_zero.mp (inflate_length_le input 0))

/-- `INFLATE([], cap)` is empty (45_zlib.md R266). -/
@[simp] theorem inflate_nil (cap : Nat) : inflate [] cap = [] := rfl

end Sys2Proof.Machine
end

