-- ==== Sys2Proof/Laws/Frame.lean ====
section
/-! SUPPORT. The operations of a descriptor see only the memories, the contexts and the platform's answers: with other
queue registers, log, label, events and bus data they do the same to those, and the log grows by the same events. -/
namespace Sys2Proof.Machine

/-- The state `s` inside another frame: queue registers, earlier log, label, events and bus data from outside. -/
def reframe (f s : State) : State :=
  { s with
    queues := f.queues
    diag := f.diag ++ s.diag.map fun e => ⟨f.diagQueue, e.event⟩
    draining := f.draining
    host := f.host
    busData := f.busData }

/-- The state without its frame. -/
def bare (s : State) : State :=
  { s with queues := State.reset.queues, diag := [], draining := none, host := [], busData := [] }

theorem reframe_bare (s : State) : reframe s (bare s) = s := by simp [reframe, bare]

/-- An operation that neither reads nor writes the frame, but to append to the log. -/
def Framed {α : Type} (op : State → α × State) : Prop :=
  ∀ f s : State, op (reframe f s) = ((op s).1, reframe f (op s).2)

theorem reframe_diagnose (f s : State) (e : DiagEvent) : (reframe f s).diagnose e = reframe f (s.diagnose e) := by
  simp [reframe, State.diagnose, State.diagQueue, State.queue]

theorem reframe_afterRequests (f s : State) (k : Nat) : afterRequests (reframe f s) k = reframe f (afterRequests s k) :=
  rfl

theorem raise_framed {α : Type} (e : DiagEvent) : Framed (raise (α := α) e) := by
  intro f s; simp [raise, reframe_diagnose]

theorem skipWith_framed (e : DiagEvent) : Framed (skipWith e) := by
  intro f s; simp [skipWith, reframe_diagnose]

theorem guestMap_framed (a n : Nat) (w : Bool) : Framed (guestMap a n w) := fun _ _ => rfl

theorem memRead_framed (mt : MemType) (a n : Nat) : Framed (memRead mt a n) := by
  intro f s
  cases mt with
  | system => exact raise_framed _ f s
  | unnamed => exact raise_framed _ f s
  | scratch =>
    simp only [memRead]
    split
    · rfl
    · exact raise_framed _ f s
  | loc =>
    simp only [memRead, guestMap_framed a n false f s]
    split
    · rfl
    · split
      · exact raise_framed _ f _
      · rfl

theorem memWrite_framed (mt : MemType) (a : Nat) (v : Bytes) : Framed (memWrite mt a v) := by
  intro f s
  cases mt with
  | system => exact raise_framed _ f s
  | unnamed => exact raise_framed _ f s
  | scratch =>
    simp only [memWrite]
    split
    · rfl
    · exact raise_framed _ f s
  | loc =>
    simp only [memWrite, guestMap_framed a v.length true f s]
    split
    · rfl
    · split
      · exact raise_framed _ f _
      · rfl

theorem memMapW_framed (mt : MemType) (a n : Nat) : Framed (memMapW mt a n) := by
  intro f s
  cases mt with
  | system => exact raise_framed _ f s
  | unnamed => exact raise_framed _ f s
  | scratch =>
    simp only [memMapW]
    split
    · rfl
    · rw [reframe_diagnose]
  | loc =>
    simp only [memMapW, guestMap_framed a n true f s]
    split
    · rw [reframe_diagnose]
    · rfl

theorem lsbWriteSlot_framed (id : BitVec 8) (b : Bytes) : Framed (lsbWriteSlot id b) := by
  intro f s
  simp only [lsbWriteSlot]
  split
  · rfl
  · exact raise_framed _ f s

theorem writeGranted_reframe (mt : MemType) (a : Nat) (v : Bytes) (f s : State) :
    writeGranted mt a v (reframe f s) = reframe f (writeGranted mt a v s) := by cases mt <;> rfl

/-! ### The engines -/

theorem hashFinish_framed (d : Desc) (c : HashCtx) : Framed (hashFinish d c) := by
  intro f s
  have h : lsbWriteSlot d.ctxId (digest c.type c.msg).reverse { reframe f s with hctx := none } = _ :=
    lsbWriteSlot_framed _ _ f { s with hctx := none }
  dsimp only at h
  unfold hashFinish
  split
  · rw [h]
    generalize lsbWriteSlot d.ctxId (digest c.type c.msg).reverse _ = r
    obtain ⟨r1, r2⟩ := r
    cases r1 <;> rfl
  · rfl

theorem shaEngine_framed (t : HashType) (d : Desc) : Framed (shaEngine t d) := by
  intro f s
  have h : memRead d.srcMem d.src.toNat d.length.toNat { reframe f s with hctx := some (hashCtxOr t (reframe f s)) } =
      _ := memRead_framed d.srcMem d.src.toNat d.length.toNat f { s with hctx := some (hashCtxOr t s) }
  dsimp only at h
  unfold shaEngine
  dsimp only
  rw [h]
  generalize memRead d.srcMem d.src.toNat d.length.toNat _ = r
  obtain ⟨r1, r2⟩ := r
  cases r1 with
  | error e => rfl
  | ok v => exact hashFinish_framed _ _ f r2

theorem rsaFinish_framed (d : Desc) (size : Nat) (e n m : Bytes) : Framed (rsaFinish d size e n m) := by
  intro f s
  unfold rsaFinish
  split
  · exact skipWith_framed _ f s
  · rw [memWrite_framed]
    generalize memWrite d.dstMem d.dst.toNat _ s = r
    obtain ⟨r1, r2⟩ := r
    cases r1 <;> rfl

theorem rsaEngine_framed (size : Nat) (d : Desc) : Framed (rsaEngine size d) := by
  intro f s
  unfold rsaEngine
  rw [memRead_framed d.keyMem d.key.toNat size f s]
  generalize memRead d.keyMem d.key.toNat size s = r
  obtain ⟨r1, s1⟩ := r
  cases r1 with
  | error e => rfl
  | ok e =>
    simp only
    rw [memRead_framed d.srcMem d.src.toNat size f s1]
    generalize memRead d.srcMem d.src.toNat size s1 = r
    obtain ⟨r1, s2⟩ := r
    cases r1 with
    | error e => rfl
    | ok n =>
      simp only
      rw [memRead_framed d.srcMem (d.src.toNat + size) size f s2]
      generalize memRead d.srcMem (d.src.toNat + size) size s2 = r
      obtain ⟨r1, s3⟩ := r
      cases r1 with
      | error e => rfl
      | ok m => exact rsaFinish_framed _ _ _ _ _ f s3

theorem ptTransfer_framed (g : Bytes → Bytes) (d : Desc) : Framed (ptTransfer g d) := by
  intro f s
  unfold ptTransfer
  rw [memRead_framed d.srcMem d.src.toNat d.length.toNat f s]
  generalize memRead d.srcMem d.src.toNat d.length.toNat s = r
  obtain ⟨r1, s1⟩ := r
  cases r1 with
  | error e => rfl
  | ok v =>
    simp only
    rw [memWrite_framed]
    generalize memWrite d.dstMem d.dst.toNat (g v) s1 = r
    obtain ⟨r1, s2⟩ := r
    cases r1 <;> rfl

theorem ptSwap256With_framed (whole : Bool) (d : Desc) : Framed (ptSwap256With whole d) := by
  intro f s
  unfold ptSwap256With
  split
  · exact skipWith_framed _ f s
  · exact ptTransfer_framed _ d f s

theorem zlibInflateEffect_framed (d : Desc) : Framed (zlibInflateEffect d) := by
  intro f s
  have h : memRead d.srcMem d.src.toNat d.length.toNat { reframe f s with zctx := some ⟨[]⟩ } = _ :=
    memRead_framed d.srcMem d.src.toNat d.length.toNat f { s with zctx := some ⟨[]⟩ }
  dsimp only at h
  unfold zlibInflateEffect
  rw [h]
  generalize memRead d.srcMem d.src.toNat d.length.toNat _ = r
  obtain ⟨r1, s1⟩ := r
  cases r1 with
  | error e => rfl
  | ok input =>
    have h : memMapW d.dstMem d.dst.toNat Config.zlibChunk { reframe f s1 with zctx := some ⟨input⟩ } = _ :=
      memMapW_framed d.dstMem d.dst.toNat Config.zlibChunk f { s1 with zctx := some ⟨input⟩ }
    dsimp only at h ⊢
    rw [h]
    generalize memMapW d.dstMem d.dst.toNat Config.zlibChunk _ = r
    obtain ⟨r1, s2⟩ := r
    cases r1 with
    | error e => rfl
    | ok g => simp only [writeGranted_reframe]; rfl

/-- Every descriptor stays inside the block's frame (41_decode_dispatch.md R183, R184). -/
theorem dispatch_framed (i : Instr) : Framed (dispatch i) := by
  intro f s
  cases i with
  | aes d => exact skipWith_framed _ f s
  | xtsAes128 d => exact skipWith_framed _ f s
  | des3 d => exact skipWith_framed _ f s
  | sha256 d => exact shaEngine_framed _ d f s
  | sha384 d => exact shaEngine_framed _ d f s
  | shaUnsupported d => exact skipWith_framed _ f s
  | rsa2048 d => exact rsaEngine_framed _ d f s
  | rsa4096 d => exact rsaEngine_framed _ d f s
  | rsaSkip d => rfl
  | ptBitwiseUnimpl d => exact skipWith_framed _ f s
  | ptCopy d => exact ptTransfer_framed _ d f s
  | ptSwap256 d => exact ptSwap256With_framed _ d f s
  | ptSwapUnimpl d => exact skipWith_framed _ f s
  | zlibInflate d => exact zlibInflateEffect_framed d f s
  | zlibUnimpl d => exact skipWith_framed _ f s
  | ecc d => exact skipWith_framed _ f s
  | unknownEngine d => exact skipWith_framed _ f s
  | _ => rfl

theorem fetchExecute_reframe (a : Nat) (f s : State) :
    fetchExecute a (reframe f s) = reframe f (fetchExecute a s) := by
  unfold fetchExecute
  rw [guestMap_framed a Config.descSize false f s]
  simp only
  split
  · exact reframe_diagnose f _ _
  · unfold executeDesc
    rw [dispatch_framed]
    rfl

/-- `exec` of a descriptor row is the dispatcher on it. -/
theorem exec_descriptor {i : Instr} {d : Desc} (h : descriptorOf i = some d) (s : State) :
    exec i s = .next (dispatch i s).2 := by
  cases i <;> first | rfl | simp [descriptorOf] at h

end Sys2Proof.Machine
end

