-- ==== Sys2Proof/Laws/Drain.lean ====
section
/-! SUPPORT. The drain as its fetches and executions, followed by one update of its queue: the `tail` that moves inside
the loop is not read there (46_queue.md R284, R292). -/
namespace Sys2Proof.Machine

/-- The fetches and executions of a drain, without the advance of `tail`. -/
def fetchLoop : Nat → Nat → State → State
  | 0, _, s => s
  | n + 1, a, s => fetchLoop n (a + Config.descSize) (fetchExecute a s)

/-- A log label changes with nothing but the draining queue and that queue's id. -/
theorem diagQueue_setTail (s : State) (q : QId) (v : Word) : (s.setTail q v).diagQueue = s.diagQueue := by
  unfold State.diagQueue
  cases h : s.draining with
  | none => simp [h]
  | some p =>
    simp only [State.setTail_draining, h, Option.map_some]
    by_cases hp : p = q
    · subst hp; simp
    · simp [State.setTail, State.setQueue_queue_ne _ _ hp]

theorem setTail_eq_reframe (s : State) (q : QId) (v : Word) : s.setTail q v = reframe (s.setTail q v) (bare s) := by
  simp [reframe, bare, State.setTail, State.setQueue]

theorem reframe_reframe (f g s : State) : reframe f (reframe g s) =
    reframe { f with diag := f.diag ++ g.diag.map fun e => ⟨f.diagQueue, e.event⟩ } s := by
  simp [reframe, State.diagQueue, State.queue, Function.comp_def]

/-- Fetching and executing leaves every queue register, the events, the bus and the label alone. -/
theorem fetchExecute_frame (a : Nat) (s : State) :
    (fetchExecute a s).queues = s.queues ∧ (fetchExecute a s).host = s.host ∧
      (fetchExecute a s).busData = s.busData ∧ (fetchExecute a s).draining = s.draining := by
  have h := fetchExecute_reframe a s (bare s)
  rw [reframe_bare] at h
  rw [h]
  exact ⟨rfl, rfl, rfl, rfl⟩

theorem fetchLoop_frame (n a : Nat) (s : State) :
    (fetchLoop n a s).queues = s.queues ∧ (fetchLoop n a s).host = s.host ∧
      (fetchLoop n a s).busData = s.busData ∧ (fetchLoop n a s).draining = s.draining := by
  induction n generalizing a s with
  | zero => exact ⟨rfl, rfl, rfl, rfl⟩
  | succ n ih =>
    have h1 := ih (a + Config.descSize) (fetchExecute a s)
    have h2 := fetchExecute_frame a s
    exact ⟨h1.1.trans h2.1, h1.2.1.trans h2.2.1, h1.2.2.1.trans h2.2.2.1, h1.2.2.2.trans h2.2.2.2⟩

theorem fetchLoop_reframe (n a : Nat) (f s : State) :
    fetchLoop n a (reframe f s) = reframe f (fetchLoop n a s) := by
  induction n generalizing a s with
  | zero => rfl
  | succ n ih => rw [fetchLoop, fetchExecute_reframe, ih]; rfl

/-- Another value of `tail` does not change what is fetched and executed. -/
theorem fetchExecute_setTail (a : Nat) (q : QId) (v : Word) (s : State) :
    fetchExecute a (s.setTail q v) = (fetchExecute a s).setTail q v := by
  have h := fetchExecute_reframe a s (bare s)
  rw [reframe_bare] at h
  rw [h, setTail_eq_reframe, fetchExecute_reframe]
  have hl := diagQueue_setTail s q v
  simp only [State.setTail, State.setQueue, reframe] at hl ⊢
  rw [hl]
  rfl

theorem setTail_setTail (s : State) (q : QId) (v w : Word) : (s.setTail q v).setTail q w = s.setTail q w := by
  have e : ∀ i : QId, ((s.setTail q v).setTail q w).queues[i.val] = (s.setTail q w).queues[i.val] := by
    intro i
    have hq : ∀ t : State, t.queues[i.val] = t.queue i := fun _ => rfl
    rw [hq, hq]
    by_cases hp : i = q
    · subst hp; simp
    · simp [State.setTail, State.setQueue_queue_ne _ _ hp]
  have := queues_ext e
  have h2 : (s.setTail q v).setTail q w = { s.setTail q w with queues := ((s.setTail q v).setTail q w).queues } := rfl
  rw [h2, this]

theorem fetchLoop_setTail (n a : Nat) (q : QId) (v : Word) (s : State) :
    fetchLoop n a (s.setTail q v) = (fetchLoop n a s).setTail q v := by
  induction n generalizing a s with
  | zero => rfl
  | succ n ih => rw [fetchLoop, fetchExecute_setTail, ih]; rfl

/-- The loop of R292: the fetches and executions, and `tail` past the last one. -/
theorem drainLoop_eq (q : QId) (n a : Nat) (s : State) :
    drainLoop q (n + 1) a s =
      (fetchLoop (n + 1) a s).setTail q (BitVec.ofNat 32 (a + Config.descSize * (n + 1))) := by
  induction n generalizing a s with
  | zero => rfl
  | succ n ih =>
    rw [drainLoop, ih, drainIteration, fetchLoop_setTail, setTail_setTail]
    simp only [fetchLoop]
    congr 2
    simp only [Config.descSize]
    omega

/-- What a drain does (46_queue.md R284, R286, R292): every descriptor is fetched and executed, and its queue completes;
nothing else of any queue changes. -/
theorem drain_eq (q : QId) (s : State) :
    drain q s = { (fetchLoop (drainCount (s.queue q).tail (s.queue q).head) (s.queue q).tail.toNat
      { s with draining := some q }).setQueue q (completedQueue (s.queue q)) with draining := none } := by
  have key : ∀ t : State, t.queues = s.queues → ∀ v, completeDrain q (s.queue q).head (t.setTail q v) =
      { t.setQueue q (completedQueue (s.queue q)) with draining := none } := by
    intro t ht v
    have hq : t.queue q = s.queue q := by simp [State.queue, ht]
    simp only [completeDrain, State.setTail_queue_same, hq]
    simp only [completedQueue, State.setTail, State.setQueue]
    congr 1
    exact Vector.set_set ..
  have key0 : ∀ t : State, t.queues = s.queues → completeDrain q (s.queue q).head t =
      { t.setQueue q (completedQueue (s.queue q)) with draining := none } := by
    intro t ht
    have hq : t.queue q = s.queue q := by simp [State.queue, ht]
    simp only [completeDrain, hq]
    rfl
  unfold drain
  generalize drainCount (s.queue q).tail (s.queue q).head = n
  cases n with
  | zero => exact key0 _ rfl
  | succ n =>
    rw [drainLoop_eq]
    exact key (fetchLoop (n + 1) _ { s with draining := some q })
      (fetchLoop_frame (n + 1) _ { s with draining := some q }).1 _

/-- Every queue after a drain: the drained one is completed, the others are as before. -/
theorem drain_queue (q p : QId) (s : State) :
    (drain q s).queue p = if p = q then completedQueue (s.queue q) else s.queue p := by
  have key : ∀ t : State, t.queues = s.queues →
      ({ t.setQueue q (completedQueue (s.queue q)) with draining := none } : State).queue p =
        if p = q then completedQueue (s.queue q) else s.queue p := by
    intro t ht
    have h : t.queue p = s.queue p := by simp [State.queue, ht]
    rw [← h, ← State.setQueue_queue]
    rfl
  rw [drain_eq]
  exact key _ (fetchLoop_frame _ _ { s with draining := some q }).1

/-- A control read of a Running queue is the drain and the completed control (47_mmio.md R305). -/
theorem controlRead_running {q : QId} {s : State} (h : runBit (s.queue q).control = true) :
    controlRead q s = (drain q s).respond (completedControl (s.queue q).control) := by
  unfold controlRead
  rw [h]
  simp only [if_true]
  rw [drain_queue, if_pos rfl]
  rfl

end Sys2Proof.Machine
end

