-- ==== Sys2Proof/Laws/Engines.lean ====
section
/-! SUPPORT. One lemma for each engine's shared operation that says once everything it can do. -/
namespace Sys2Proof.Machine

/-! ### What an access depends on -/

theorem accessible_congr {s s' : State} (ha : s'.mapAnswers = s.mapAnswers) (hc : s'.mapCalls = s.mapCalls)
    (k : Nat) (mt : MemType) (a n : Nat) (w : Bool) : accessible s' k mt a n w = accessible s k mt a n w := by
  cases mt <;> simp [accessible, grantAt, ha, hc]

theorem accessible_afterRequests (s : State) (j k : Nat) (mt : MemType) (a n : Nat) (w : Bool) :
    accessible (afterRequests s j) k mt a n w = accessible s (j + k) mt a n w := by
  cases mt <;> simp [accessible, grantAt_afterRequests]

theorem spaceByte_congr {s s' : State} (hl : s'.lsb = s.lsb) (hg : s'.gm = s.gm) (mt : MemType) (a : Nat) :
    spaceByte s' mt a = spaceByte s mt a := by
  cases mt <;> simp [spaceByte, hl, hg]

theorem spaceBytes_congr {s s' : State} (hl : s'.lsb = s.lsb) (hg : s'.gm = s.gm) (mt : MemType) (a n : Nat) :
    spaceBytes s' mt a n = spaceBytes s mt a n := by
  simp [spaceBytes, spaceByte_congr hl hg]

@[simp] theorem spaceBytes_length (s : State) (mt : MemType) (a n : Nat) : (spaceBytes s mt a n).length = n := by
  simp [spaceBytes]

@[simp] theorem sourceBytes_length (s : State) (d : Desc) : (sourceBytes s d).length = d.length.toNat := by
  simp [sourceBytes]

/-! ### Stores -/

/-- A store at the front of a range of a canonical memory puts the bytes there and leaves every other byte alone. -/
theorem storedOnly_writeGranted {s : State} (h : MemoriesWf s) {mt : MemType} {a : Nat} {v : Bytes}
    (hs : mt = .scratch → a + v.length ≤ Config.lsbSize) (hl : mt = .loc → a + v.length ≤ Config.guestLimit)
    (hn : v ≠ [] → mt = .scratch ∨ mt = .loc) : StoredOnly s (writeGranted mt a v s) mt a v := by
  cases mt with
  | scratch =>
    refine ⟨fun i hi => Mem.get_write_inside h.2 (hs rfl) hi, fun m c hc => ?_⟩
    cases m <;> try rfl
    exact Mem.get_write_outside (by simpa using hc)
  | loc =>
    refine ⟨fun i hi => Mem.get_write_inside h.1 (hl rfl) hi, fun m c hc => ?_⟩
    cases m <;> try rfl
    exact Mem.get_write_outside (by simpa using hc)
  | system =>
    have hv : v = [] := by by_contra hv; simpa using hn hv
    subst hv; exact ⟨fun i hi => absurd hi (by simp), fun _ _ _ => rfl⟩
  | unnamed =>
    have hv : v = [] := by by_contra hv; simpa using hn hv
    subst hv; exact ⟨fun i hi => absurd hi (by simp), fun _ _ _ => rfl⟩

/-- A store inside the bounds keeps both canonical forms. -/
theorem memoriesWf_writeGranted {s : State} (h : MemoriesWf s) {mt : MemType} {a : Nat} {v : Bytes}
    (hs : mt = .scratch → a + v.length ≤ Config.lsbSize) (hl : mt = .loc → a + v.length ≤ Config.guestLimit) :
    MemoriesWf (writeGranted mt a v s) := by
  cases mt with
  | scratch => exact ⟨h.1, Mem.wf_write (hs rfl) h.2⟩
  | loc => exact ⟨Mem.wf_write (hl rfl) h.1, h.2⟩
  | system => exact h
  | unnamed => exact h

/-- An accessible range lies in its space; of guest memory the empty range may lie anywhere. -/
theorem accessible_bounds {s : State} {k : Nat} {mt : MemType} {a n : Nat} {w : Bool}
    (h : accessible s k mt a n w = true) :
    (mt = .scratch ∧ a + n ≤ Config.lsbSize) ∨ (mt = .loc ∧ (n = 0 ∨ a + n ≤ Config.guestLimit)) := by
  cases mt with
  | scratch => exact Or.inl ⟨rfl, of_decide_eq_true h⟩
  | loc =>
    refine Or.inr ⟨rfl, ?_⟩
    rcases of_decide_eq_true h with h | h
    · exact Or.inl h
    · by_cases hn : n = 0
      · exact Or.inl hn
      · have hl : Config.guestLimit = 0x1000000000000 := rfl
        have := (grantAt_le s k a n w).2
        exact Or.inr (by omega)
  | system => simp [accessible] at h
  | unnamed => simp [accessible] at h

/-- Storing bytes in an accessible range puts them there and leaves every other byte alone. -/
theorem storedOnly_of_accessible {s r : State} {k : Nat} {mt : MemType} {a : Nat} {v : Bytes} {w : Bool}
    (h : MemoriesWf r) (ha : accessible s k mt a v.length w = true) : StoredOnly r (writeGranted mt a v r) mt a v := by
  by_cases hv : v = []
  · subst hv
    refine ⟨fun i hi => absurd hi (by simp), fun m c _ => ?_⟩
    cases mt <;> cases m <;> rfl
  · have hb := accessible_bounds ha
    have hlen : v.length ≠ 0 := by simpa using hv
    refine storedOnly_writeGranted h (fun e => ?_) (fun e => ?_) (fun _ => ?_)
    · subst e; simpa using hb
    · subst e; simpa [hlen] using hb
    · exact hb.elim (fun x => Or.inl x.1) (fun x => Or.inr x.1)

/-- A write of no bytes is no write, whatever its address. -/
theorem memoriesWf_of_accessible {s r : State} {k : Nat} {mt : MemType} {a : Nat} {v : Bytes} {w : Bool}
    (h : MemoriesWf r) (ha : accessible s k mt a v.length w = true) : MemoriesWf (writeGranted mt a v r) := by
  by_cases hv : v = []
  · subst hv; cases mt <;> exact h
  · have hb := accessible_bounds ha
    have hlen : v.length ≠ 0 := by simpa using hv
    refine memoriesWf_writeGranted h (fun e => ?_) (fun e => ?_)
    · subst e; simpa using hb
    · subst e; simpa [hlen] using hb

/-! ### SHA -/

/-- What a feed can do (42_hash.md R202 to R204): the read fails and the context of step 1 stays, or the source bytes
join the context's message and the finish follows. -/
theorem shaEngine_cases (t : HashType) (d : Desc) (s : State) :
    (sourceAccessible s 0 d = false ∧
      shaEngine t d s = (.ofEvent (accessFailure s 0 d.srcMem d.src.toNat d.length.toNat false),
        { failedAccess s 0 d.srcMem d.src.toNat d.length.toNat false with hctx := some (hashCtxOr t s) })) ∨
    (sourceAccessible s 0 d = true ∧
      shaEngine t d s = hashFinish d { hashCtxOr t s with msg := (hashCtxOr t s).msg ++ sourceBytes s d }
        { afterRequests s (sourceRequests d) with hctx := some (hashCtxOr t s) }) := by
  have hb := spaceBytes_congr (s := s) (s' := { s with hctx := some (hashCtxOr t s) }) rfl rfl d.srcMem d.src.toNat
    d.length.toNat
  have ha := accessible_congr (s := s) (s' := { s with hctx := some (hashCtxOr t s) }) rfl rfl 0 d.srcMem d.src.toNat
    d.length.toNat false
  rcases memRead_cases d.srcMem d.src.toNat d.length.toNat { s with hctx := some (hashCtxOr t s) } with
    ⟨h1, h2⟩ | ⟨h1, h2⟩
  · refine Or.inr ⟨ha.symm.trans h1, ?_⟩
    simp only [shaEngine]
    rw [h2]
    simp only [hb]
    rfl
  · refine Or.inl ⟨ha.symm.trans h1, ?_⟩
    simp only [shaEngine]
    rw [h2]
    rfl

/-- What the finish can do (42_hash.md R205, R206). -/
theorem hashFinish_cases (d : Desc) (c : HashCtx) (s : State) :
    (d.eom = false ∧ hashFinish d c s = (.applied, { s with hctx := some c })) ∨
    (d.eom = true ∧ slotOffset d.ctxId + (digest c.type c.msg).length ≤ Config.lsbSize ∧
      hashFinish d c s = (.applied, { s with
        hctx := none, lsb := s.lsb.write (slotOffset d.ctxId) (digest c.type c.msg).reverse })) ∨
    (d.eom = true ∧ ¬ slotOffset d.ctxId + (digest c.type c.msg).length ≤ Config.lsbSize ∧
      hashFinish d c s = (.ofEvent (.scratchBounds (slotOffset d.ctxId) (digest c.type c.msg).length), { s with
        hctx := none
        diag := s.diag ++ [⟨s.diagQueue, .scratchBounds (slotOffset d.ctxId) (digest c.type c.msg).length⟩] })) := by
  cases he : d.eom with
  | false => exact Or.inl ⟨rfl, by simp [hashFinish, he]⟩
  | true =>
    rcases lsbWriteSlot_cases d.ctxId (digest c.type c.msg).reverse { s with hctx := none } with ⟨h1, h2⟩ | ⟨h1, h2⟩
    · rw [List.length_reverse] at h1
      exact Or.inr (Or.inl ⟨rfl, h1, by simp only [hashFinish, he, if_true]; rw [h2]⟩)
    · rw [List.length_reverse] at h1 h2
      exact Or.inr (Or.inr ⟨rfl, h1, by simp only [hashFinish, he, if_true]; rw [h2]; rfl⟩)

/-! ### PASSTHRU -/

/-- What a transfer can do (44_passthru.md R242): the read fails, the write fails, or the transformed bytes are stored. -/
theorem ptTransfer_cases (f : Bytes → Bytes) (d : Desc) (s : State) :
    (sourceAccessible s 0 d = false ∧
      ptTransfer f d s = (.ofEvent (accessFailure s 0 d.srcMem d.src.toNat d.length.toNat false),
        failedAccess s 0 d.srcMem d.src.toNat d.length.toNat false)) ∨
    (sourceAccessible s 0 d = true ∧
      accessible s (sourceRequests d) d.dstMem d.dst.toNat (f (sourceBytes s d)).length true = false ∧
      ptTransfer f d s =
        (.ofEvent (accessFailure s (sourceRequests d) d.dstMem d.dst.toNat (f (sourceBytes s d)).length true),
          failedAccess s (sourceRequests d) d.dstMem d.dst.toNat (f (sourceBytes s d)).length true)) ∨
    (sourceAccessible s 0 d = true ∧
      accessible s (sourceRequests d) d.dstMem d.dst.toNat (f (sourceBytes s d)).length true = true ∧
      ptTransfer f d s = (.applied, writeGranted d.dstMem d.dst.toNat (f (sourceBytes s d))
        (afterRequests s (sourceRequests d + mapRequests d.dstMem (f (sourceBytes s d)).length)))) := by
  rcases memRead_cases d.srcMem d.src.toNat d.length.toNat s with ⟨h1, h2⟩ | ⟨h1, h2⟩
  · have h2' : memRead d.srcMem d.src.toNat d.length.toNat s =
        (.ok (sourceBytes s d), afterRequests s (sourceRequests d)) := h2
    rcases memWrite_cases d.dstMem d.dst.toNat (f (sourceBytes s d)) (afterRequests s (sourceRequests d)) with
      ⟨g1, g2⟩ | ⟨g1, g2⟩
    · rw [accessible_afterRequests] at g1
      refine Or.inr (Or.inr ⟨h1, g1, ?_⟩)
      simp only [ptTransfer, h2', g2, afterRequests_add]
    · rw [accessible_afterRequests] at g1
      rw [accessFailure_afterRequests, failedAccess_afterRequests] at g2
      refine Or.inr (Or.inl ⟨h1, g1, ?_⟩)
      simp only [ptTransfer, h2', g2, Nat.add_zero]
  · refine Or.inl ⟨h1, ?_⟩
    simp only [ptTransfer, h2]

/-! ### RSA -/

/-- What the three reads can do (43_rsa.md R222): the first range that cannot be read raises its event, or the computation
starts. -/
theorem rsaEngine_reads (size : Nat) (d : Desc) (s : State) :
    (accessible s 0 d.keyMem d.key.toNat size false = false ∧
      rsaEngine size d s = (.ofEvent (accessFailure s 0 d.keyMem d.key.toNat size false),
        failedAccess s 0 d.keyMem d.key.toNat size false)) ∨
    (accessible s 0 d.keyMem d.key.toNat size false = true ∧
      accessible s (mapRequests d.keyMem size) d.srcMem d.src.toNat size false = false ∧
      rsaEngine size d s =
        (.ofEvent (accessFailure s (mapRequests d.keyMem size) d.srcMem d.src.toNat size false),
          failedAccess s (mapRequests d.keyMem size) d.srcMem d.src.toNat size false)) ∨
    (accessible s 0 d.keyMem d.key.toNat size false = true ∧
      accessible s (mapRequests d.keyMem size) d.srcMem d.src.toNat size false = true ∧
      accessible s (mapRequests d.keyMem size + mapRequests d.srcMem size) d.srcMem (d.src.toNat + size) size
        false = false ∧
      rsaEngine size d s =
        (.ofEvent (accessFailure s (mapRequests d.keyMem size + mapRequests d.srcMem size) d.srcMem
          (d.src.toNat + size) size false),
          failedAccess s (mapRequests d.keyMem size + mapRequests d.srcMem size) d.srcMem (d.src.toNat + size) size
            false)) ∨
    (rsaReadable s d size = true ∧
      rsaEngine size d s = rsaFinish d size (spaceBytes s d.keyMem d.key.toNat size)
        (spaceBytes s d.srcMem d.src.toNat size) (spaceBytes s d.srcMem (d.src.toNat + size) size)
        (afterRequests s (rsaRequests d size))) := by
  rcases memRead_cases d.keyMem d.key.toNat size s with ⟨h1, h2⟩ | ⟨h1, h2⟩
  swap
  · exact Or.inl ⟨h1, by simp only [rsaEngine, h2]⟩
  rcases memRead_cases d.srcMem d.src.toNat size (afterRequests s (mapRequests d.keyMem size)) with
    ⟨i1, i2⟩ | ⟨i1, i2⟩ <;> rw [accessible_afterRequests, Nat.add_zero] at i1
  swap
  · rw [accessFailure_afterRequests, failedAccess_afterRequests, Nat.add_zero] at i2
    exact Or.inr (Or.inl ⟨h1, i1, by simp only [rsaEngine, h2, i2]⟩)
  rw [afterRequests_add] at i2
  rcases memRead_cases d.srcMem (d.src.toNat + size) size
      (afterRequests s (mapRequests d.keyMem size + mapRequests d.srcMem size)) with ⟨j1, j2⟩ | ⟨j1, j2⟩ <;>
    rw [accessible_afterRequests, Nat.add_zero] at j1
  swap
  · rw [accessFailure_afterRequests, failedAccess_afterRequests, Nat.add_zero] at j2
    exact Or.inr (Or.inr (Or.inl ⟨h1, i1, j1, by simp only [rsaEngine, h2, i2, j2]⟩))
  rw [afterRequests_add, Nat.add_assoc, ← Nat.two_mul] at j2
  refine Or.inr (Or.inr (Or.inr ⟨by simp [rsaReadable, h1, i1, j1], ?_⟩))
  simp only [rsaEngine, h2, i2, j2]
  rw [spaceBytes_congr (s := s) (s' := afterRequests s _) rfl rfl,
    spaceBytes_congr (s := s) (s' := afterRequests s _) rfl rfl]
  rfl

/-- What the computation can do (43_rsa.md R223 to R226): the modulus is zero, the write fails, or the power is stored. -/
theorem rsaFinish_cases (d : Desc) (size : Nat) (e n m : Bytes) (s : State) :
    (natLe n = 0 ∧ rsaFinish d size e n m s = (.skipped (some (.unimplementedFunction .rsaModulusZero)),
      s.diagnose (.unimplementedFunction .rsaModulusZero))) ∨
    (natLe n ≠ 0 ∧ accessible s 0 d.dstMem d.dst.toNat size true = false ∧
      rsaFinish d size e n m s = (.ofEvent (accessFailure s 0 d.dstMem d.dst.toNat size true),
        failedAccess s 0 d.dstMem d.dst.toNat size true)) ∨
    (natLe n ≠ 0 ∧ accessible s 0 d.dstMem d.dst.toNat size true = true ∧
      rsaFinish d size e n m s = (.applied, writeGranted d.dstMem d.dst.toNat
        (bytesLe (natLe m ^ natLe e % natLe n) size) (afterRequests s (mapRequests d.dstMem size)))) := by
  unfold rsaFinish
  split
  · exact Or.inl ⟨‹_›, rfl⟩
  · rename_i hn
    rcases memWrite_cases d.dstMem d.dst.toNat (bytesLe (modexp (natLe m) (natLe e) (natLe n)) size) s with
      ⟨k1, k2⟩ | ⟨k1, k2⟩
    · rw [bytesLe_length] at k1 k2
      exact Or.inr (Or.inr ⟨hn, k1, by rw [k2]; rfl⟩)
    · rw [bytesLe_length] at k1 k2
      exact Or.inr (Or.inl ⟨hn, k1, by rw [k2]⟩)

/-! ### ZLIB_DECOMPRESS -/

/-- What the inflate can do (45_zlib.md R262): the event of the failed read, or of a destination no engine can reach, and
no inflate state; or the inflate step's output at the front of the grant, after a warning where the grant is short. -/
theorem zlibInflateEffect_cases (d : Desc) (s : State) :
    (sourceAccessible s 0 d = false ∧ (zlibInflateEffect d s).2 =
      { failedAccess s 0 d.srcMem d.src.toNat d.length.toNat false with zctx := none }) ∨
    (sourceAccessible s 0 d = true ∧ (d.dstMem = .system ∨ d.dstMem = .unnamed) ∧ (zlibInflateEffect d s).2 =
      { failedAccess s (sourceRequests d) d.dstMem d.dst.toNat Config.zlibChunk true with zctx := none }) ∨
    (sourceAccessible s 0 d = true ∧ d.dstMem = .scratch ∧ d.dst.toNat + Config.zlibChunk ≤ Config.lsbSize ∧
      (zlibInflateEffect d s).2 = { writeGranted .scratch d.dst.toNat (inflate (sourceBytes s d) Config.zlibChunk)
        (afterRequests s (sourceRequests d)) with zctx := none }) ∨
    (sourceAccessible s 0 d = true ∧ d.dstMem = .scratch ∧ ¬ d.dst.toNat + Config.zlibChunk ≤ Config.lsbSize ∧
      (zlibInflateEffect d s).2 = { (afterRequests s (sourceRequests d)).diagnose
        (.scratchBounds d.dst.toNat Config.zlibChunk) with zctx := none }) ∨
    (sourceAccessible s 0 d = true ∧ d.dstMem = .loc ∧
      grantAt s (sourceRequests d) d.dst.toNat Config.zlibChunk true = Config.zlibChunk ∧
      (zlibInflateEffect d s).2 = { writeGranted .loc d.dst.toNat (inflate (sourceBytes s d) Config.zlibChunk)
        (afterRequests s (sourceRequests d + 1)) with zctx := none }) ∨
    (sourceAccessible s 0 d = true ∧ d.dstMem = .loc ∧
      grantAt s (sourceRequests d) d.dst.toNat Config.zlibChunk true < Config.zlibChunk ∧
      (zlibInflateEffect d s).2 = { writeGranted .loc d.dst.toNat
        (inflate (sourceBytes s d) (grantAt s (sourceRequests d) d.dst.toNat Config.zlibChunk true))
        ((afterRequests s (sourceRequests d + 1)).diagnose (.partialOutput d.dst.toNat Config.zlibChunk
          (grantAt s (sourceRequests d) d.dst.toNat Config.zlibChunk true))) with zctx := none }) := by
  have hb := spaceBytes_congr (s := s) (s' := { s with zctx := some ⟨[]⟩ }) rfl rfl d.srcMem d.src.toNat d.length.toNat
  have ha := accessible_congr (s := s) (s' := { s with zctx := some ⟨[]⟩ }) rfl rfl 0 d.srcMem d.src.toNat
    d.length.toNat false
  rcases memRead_cases d.srcMem d.src.toNat d.length.toNat { s with zctx := some ⟨[]⟩ } with
    ⟨h1, h2⟩ | ⟨h1, h2⟩
  swap
  · refine Or.inl ⟨ha.symm.trans h1, ?_⟩
    simp only [zlibInflateEffect]
    rw [h2]
    rfl
  have h1' : sourceAccessible s 0 d = true := ha.symm.trans h1
  rw [hb] at h2
  have hz : (zlibInflateEffect d s).2 =
      (match memMapW d.dstMem d.dst.toNat Config.zlibChunk
          { afterRequests s (sourceRequests d) with zctx := some ⟨sourceBytes s d⟩ } with
        | (.error e, s2) => (OpResult.ofEvent e, { s2 with zctx := none })
        | (.ok g, s2) =>
          (OpResult.applied, { writeGranted d.dstMem d.dst.toNat (inflate (sourceBytes s d) g) s2 with
            zctx := none })).2 := by
    simp only [zlibInflateEffect]
    rw [h2]
    rfl
  have hg : ∀ a n w, grantAt { afterRequests s (sourceRequests d) with zctx := some ⟨sourceBytes s d⟩ } 0 a n w =
      grantAt s (sourceRequests d) a n w := fun a n w => by
    rw [← Nat.add_zero (sourceRequests d), ← grantAt_afterRequests]; rfl
  rcases memMapW_cases d.dstMem d.dst.toNat Config.zlibChunk
      { afterRequests s (sourceRequests d) with zctx := some ⟨sourceBytes s d⟩ } with
    ⟨h, e⟩ | ⟨h, hle, e⟩ | ⟨h, hle, e⟩ | ⟨h, hle, e⟩ | ⟨h, hle, e⟩
  · refine Or.inr (Or.inl ⟨h1', h, ?_⟩)
    rw [hz, e]
    rcases h with h | h <;> rw [h] <;> rfl
  · refine Or.inr (Or.inr (Or.inl ⟨h1', h, hle, ?_⟩))
    rw [hz, e, h]; rfl
  · refine Or.inr (Or.inr (Or.inr (Or.inl ⟨h1', h, hle, ?_⟩)))
    rw [hz, e, h]
    simp only [inflate_zero]
    rfl
  · rw [hg] at hle
    refine Or.inr (Or.inr (Or.inr (Or.inr (Or.inl ⟨h1', h, hle, ?_⟩))))
    rw [hz, e, h, ← afterRequests_add]; rfl
  · rw [hg] at hle e
    refine Or.inr (Or.inr (Or.inr (Or.inr (Or.inr ⟨h1', h, hle, ?_⟩))))
    rw [hz, e, h, ← afterRequests_add]; rfl

/-! ### The canonical form -/

theorem shaEngine_memoriesWf (t : HashType) (d : Desc) {s : State} (h : MemoriesWf s) :
    MemoriesWf (shaEngine t d s).2 := by
  rcases shaEngine_cases t d s with ⟨_, r⟩ | ⟨_, r⟩ <;> rw [r]
  · exact h
  · rcases hashFinish_cases d { hashCtxOr t s with msg := (hashCtxOr t s).msg ++ sourceBytes s d }
        { afterRequests s (sourceRequests d) with hctx := some (hashCtxOr t s) } with ⟨_, r⟩ | ⟨_, l, r⟩ | ⟨_, _, r⟩ <;>
      rw [r]
    · exact h
    · exact ⟨h.1, Mem.wf_write (by simpa using l) h.2⟩
    · exact h

theorem rsaEngine_memoriesWf (size : Nat) (d : Desc) {s : State} (h : MemoriesWf s) :
    MemoriesWf (rsaEngine size d s).2 := by
  rcases rsaEngine_reads size d s with ⟨_, r⟩ | ⟨_, _, r⟩ | ⟨_, _, _, r⟩ | ⟨_, r⟩ <;> rw [r]
  · exact h
  · exact h
  · exact h
  · rcases rsaFinish_cases d size (spaceBytes s d.keyMem d.key.toNat size) (spaceBytes s d.srcMem d.src.toNat size)
        (spaceBytes s d.srcMem (d.src.toNat + size) size) (afterRequests s (rsaRequests d size)) with
      ⟨_, r⟩ | ⟨_, _, r⟩ | ⟨_, l, r⟩ <;> rw [r]
    · exact h
    · exact h
    · refine memoriesWf_of_accessible (s := afterRequests s (rsaRequests d size)) (k := 0) (w := true) h ?_
      rw [bytesLe_length]
      exact l

theorem ptTransfer_memoriesWf (f : Bytes → Bytes) (d : Desc) {s : State} (h : MemoriesWf s) :
    MemoriesWf (ptTransfer f d s).2 := by
  rcases ptTransfer_cases f d s with ⟨_, r⟩ | ⟨_, _, r⟩ | ⟨_, l, r⟩ <;> rw [r]
  · exact h
  · exact h
  · exact memoriesWf_of_accessible h l

theorem zlibInflateEffect_memoriesWf (d : Desc) {s : State} (h : MemoriesWf s) :
    MemoriesWf (zlibInflateEffect d s).2 := by
  have hc : Config.zlibChunk = 4096 := rfl
  have hg : Config.guestLimit = 0x1000000000000 := rfl
  rcases zlibInflateEffect_cases d s with
    ⟨_, r⟩ | ⟨_, _, r⟩ | ⟨_, _, l, r⟩ | ⟨_, _, _, r⟩ | ⟨_, _, l, r⟩ | ⟨_, _, l, r⟩ <;> rw [r]
  · exact h
  · exact h
  · refine memoriesWf_writeGranted (s := afterRequests s _) (mt := .scratch) h (fun _ => ?_) (fun e => nomatch e)
    have := inflate_length_le (sourceBytes s d) Config.zlibChunk
    omega
  · exact h
  · refine memoriesWf_writeGranted (s := afterRequests s _) (mt := .loc) h (fun e => nomatch e) (fun _ => ?_)
    have := inflate_length_le (sourceBytes s d) Config.zlibChunk
    have := (grantAt_le s (sourceRequests d) d.dst.toNat Config.zlibChunk true).2
    omega
  · by_cases h0 : grantAt s (sourceRequests d) d.dst.toNat Config.zlibChunk true = 0
    · rw [h0, inflate_zero]
      exact h
    · refine memoriesWf_writeGranted (s := (afterRequests s _).diagnose _) (mt := .loc) h (fun e => nomatch e)
        (fun _ => ?_)
      have := inflate_length_le (sourceBytes s d) (grantAt s (sourceRequests d) d.dst.toNat Config.zlibChunk true)
      have := (grantAt_le s (sourceRequests d) d.dst.toNat Config.zlibChunk true).2
      omega

/-- Every descriptor keeps both memories in their canonical form. -/
theorem dispatch_memoriesWf (i : Instr) {s : State} (h : MemoriesWf s) : MemoriesWf (dispatch i s).2 := by
  cases i with
  | sha256 d => exact shaEngine_memoriesWf _ d h
  | sha384 d => exact shaEngine_memoriesWf _ d h
  | rsa2048 d => exact rsaEngine_memoriesWf _ d h
  | rsa4096 d => exact rsaEngine_memoriesWf _ d h
  | ptCopy d => exact ptTransfer_memoriesWf _ d h
  | ptSwap256 d =>
    simp only [dispatch, ptSwap256Effect, ptSwap256With]
    split
    · exact h
    · exact ptTransfer_memoriesWf _ d h
  | zlibInflate d => exact zlibInflateEffect_memoriesWf d h
  | _ => exact h

end Sys2Proof.Machine
end

