-- ==== Sys2Proof/Laws/PerInstr.lean ====
section
/-! SUPPORT. The family EncodeShape: one lemma per constructor of `Instr`, about the instruction as its encoding. -/
namespace Sys2Proof.Laws.EncodeShape

open Sys2Proof.Machine

/-- A descriptor row is encoded in 32 bytes (30_encoding.md R100), an MMIO row in an access that lies in the window
where the instruction is well formed (20_memory.md R61). -/
def Statement (i : Instr) : Prop :=
  match encode i with
  | .descriptor bytes => bytes.length = Config.descSize ∧ descriptorOf i ≠ none
  | .access a => descriptorOf i = none ∧ (i.wellFormed = true → a.offset + a.size ≤ Config.windowSize)

theorem encodeDesc_length (d : Desc) : (encodeDesc d).length = Config.descSize := rfl

theorem offset_le {base : Nat} (o : BitVec 12) (hb : base ≤ 0x6000) (h4 : base % 4 = 0) (h : wordAligned o = true) :
    base + o.toNat + 4 ≤ Config.windowSize := by
  have := o.isLt
  simp only [wordAligned, beq_iff_eq] at h
  simp only [Config.windowSize]
  omega

theorem queueReg_le (q : QId) (r : BitVec 12) (h : wordAligned r = true) :
    queueRegOffset q r + 4 ≤ Config.windowSize := by
  have hq : q.val < 5 := q.isLt
  exact offset_le r (by simp only [Config.qBase, Config.qStride]; omega)
    (by simp only [Config.qBase, Config.qStride]; omega) h

theorem aes (d : Desc) : Statement (.aes d) := ⟨encodeDesc_length d, by simp [descriptorOf]⟩
theorem xtsAes128 (d : Desc) : Statement (.xtsAes128 d) := ⟨encodeDesc_length d, by simp [descriptorOf]⟩
theorem des3 (d : Desc) : Statement (.des3 d) := ⟨encodeDesc_length d, by simp [descriptorOf]⟩
theorem sha256 (d : Desc) : Statement (.sha256 d) := ⟨encodeDesc_length d, by simp [descriptorOf]⟩
theorem sha384 (d : Desc) : Statement (.sha384 d) := ⟨encodeDesc_length d, by simp [descriptorOf]⟩
theorem shaUnsupported (d : Desc) : Statement (.shaUnsupported d) := ⟨encodeDesc_length d, by simp [descriptorOf]⟩
theorem rsa2048 (d : Desc) : Statement (.rsa2048 d) := ⟨encodeDesc_length d, by simp [descriptorOf]⟩
theorem rsa4096 (d : Desc) : Statement (.rsa4096 d) := ⟨encodeDesc_length d, by simp [descriptorOf]⟩
theorem rsaSkip (d : Desc) : Statement (.rsaSkip d) := ⟨encodeDesc_length d, by simp [descriptorOf]⟩
theorem ptBitwiseUnimpl (d : Desc) : Statement (.ptBitwiseUnimpl d) := ⟨encodeDesc_length d, by simp [descriptorOf]⟩
theorem ptCopy (d : Desc) : Statement (.ptCopy d) := ⟨encodeDesc_length d, by simp [descriptorOf]⟩
theorem ptSwap256 (d : Desc) : Statement (.ptSwap256 d) := ⟨encodeDesc_length d, by simp [descriptorOf]⟩
theorem ptSwapUnimpl (d : Desc) : Statement (.ptSwapUnimpl d) := ⟨encodeDesc_length d, by simp [descriptorOf]⟩
theorem zlibInflate (d : Desc) : Statement (.zlibInflate d) := ⟨encodeDesc_length d, by simp [descriptorOf]⟩
theorem zlibUnimpl (d : Desc) : Statement (.zlibUnimpl d) := ⟨encodeDesc_length d, by simp [descriptorOf]⟩
theorem ecc (d : Desc) : Statement (.ecc d) := ⟨encodeDesc_length d, by simp [descriptorOf]⟩
theorem unknownEngine (d : Desc) : Statement (.unknownEngine d) := ⟨encodeDesc_length d, by simp [descriptorOf]⟩

theorem mmioBadAccess (isWrite : Bool) (offset size : Nat) : Statement (.mmioBadAccess isWrite offset size) := by
  cases isWrite <;> refine ⟨rfl, fun h => ?_⟩ <;>
    simp only [Instr.wellFormed, Bool.and_eq_true, decide_eq_true_eq] at h <;>
    simpa [Access.offset, Access.size] using h.1

theorem globalRd (o : BitVec 12) : Statement (.globalRd o) := ⟨rfl, fun h => offset_le o (by decide) (by decide) h⟩
theorem globalWr (o : BitVec 12) (v : Word) : Statement (.globalWr o v) :=
  ⟨rfl, fun h => offset_le o (by decide) (by decide) h⟩
theorem ctrlRd (q : QId) : Statement (.ctrlRd q) := ⟨rfl, fun _ => queueReg_le q Config.regCtrl rfl⟩
theorem ctrlWr (q : QId) (v : Word) : Statement (.ctrlWr q v) := ⟨rfl, fun _ => queueReg_le q Config.regCtrl rfl⟩
theorem tailRd (q : QId) : Statement (.tailRd q) := ⟨rfl, fun _ => queueReg_le q Config.regTail rfl⟩
theorem tailWr (q : QId) (v : Word) : Statement (.tailWr q v) := ⟨rfl, fun _ => queueReg_le q Config.regTail rfl⟩
theorem headRd (q : QId) : Statement (.headRd q) := ⟨rfl, fun _ => queueReg_le q Config.regHead rfl⟩
theorem headWr (q : QId) (v : Word) : Statement (.headWr q v) := ⟨rfl, fun _ => queueReg_le q Config.regHead rfl⟩
theorem statusRd (q : QId) : Statement (.statusRd q) := ⟨rfl, fun _ => queueReg_le q Config.regStatus rfl⟩
theorem statusWr (q : QId) (v : Word) : Statement (.statusWr q v) := ⟨rfl, fun _ => queueReg_le q Config.regStatus rfl⟩
theorem queueUnknownReg (q : QId) (r : BitVec 12) (v : Option Word) : Statement (.queueUnknownReg q r v) := by
  cases v <;> refine ⟨rfl, fun h => ?_⟩ <;> simp only [Instr.wellFormed, Bool.and_eq_true] at h <;>
    exact queueReg_le q r h.1
theorem cfgRd (o : BitVec 12) : Statement (.cfgRd o) := ⟨rfl, fun h => offset_le o (by decide) (by decide) h⟩
theorem cfgWr (o : BitVec 12) (v : Word) : Statement (.cfgWr o v) :=
  ⟨rfl, fun h => offset_le o (by decide) (by decide) h⟩

end Sys2Proof.Laws.EncodeShape
end

