-- ==== Sys2Proof/Tests/Slice0.lean ====
section
/-! SUPPORT. The model's own tests: ill-formed terms refused, the decoding of every constructor from bytes written out
from 30_encoding.md and 47_mmio.md, vectors of 95_test_vectors.md, and one witness for the hypotheses of each
obligation that has some. -/
namespace Sys2Proof.Machine.Tests

-- One proof at a time: each is checked in the kernel, and many at once need more memory than one.
set_option Elab.async false

/-! ### Helpers -/

/-- The descriptor whose 256 bits are zero (V-DEC2). -/
def zeroDesc : Desc :=
  ⟨false, false, false, false, 0, 0, false, 0, 0, 0, .system, 0, false, 0, 0, 0, 0, .system⟩

/-- A descriptor from its words, the missing ones zero. -/
def desc (w0 : Word) (w1 w2 w3 w4 w5 w6 w7 : Word := 0) : Desc := descOfWords w0 w1 w2 w3 w4 w5 w6 w7

/-- 32 bytes from the first ones, the rest zero. -/
def raw (bs : Bytes) : Encoded := .descriptor (bs ++ List.replicate (32 - bs.length) 0)

/-- Bytes `a, a + 1, …`, `n` of them. -/
def ramp (a n : Nat) : Bytes := (List.range n).map fun i => BitVec.ofNat 8 (a + i)

/-- Bytes placed in an empty memory. -/
def place : List (Nat × Bytes) → Mem
  | [] => []
  | (a, bs) :: rest => (place rest).write a bs

/-- The guest memory of the vectors: a descriptor of V-DISP6 at `0x1020`, "abc", a zlib stream of "hello", and `B64`. -/
def guest : Mem := place
  [(0x1020, [0, 0, 0xF0]), (0x2000, [0x61, 0x62, 0x63]),
   (0x2400, [0x78, 0xda, 0xcb, 0x48, 0xcd, 0xc9, 0xc9, 0x07, 0x00, 0x06, 0x2c, 0x02, 0x15]), (0x4000, ramp 0 64)]

/-- Reset, with that memory and a platform that grants everything it is asked for. -/
def ready : State := { State.reset with gm := guest, mapAnswers := List.replicate 8 Config.guestLimit }

/-- The same with the platform's next answers given. -/
def granting (answers : List Nat) : State := { ready with mapAnswers := answers }

/-- Queue 0 running, with the given tail and head. -/
def running (tail head : Word) : State := ready.setQueue 0 ⟨1, tail, head, 0, 0⟩

/-- A live SHA-256 context that holds "ab". -/
def midHash : State := { ready with hctx := some ⟨.sha256, [0x61, 0x62]⟩ }

/-- The next state of an outcome. -/
def nextOf : Host.Outcome State Fault Refusal → Option State
  | .next t => some t
  | .fault _ => none
  | .refused _ => none

/-- The state after an instruction. -/
def after (i : Instr) (s : State) : Option State := nextOf (exec i s)

/-- The state after a step with one event. -/
def afterEvent (e : HostEvent) (s : State) : Option State := nextOf (step { s with host := [e] })

/-- `REV256` of 95_test_vectors.md. -/
def rev256 : Bytes :=
  [0xad, 0x15, 0x00, 0xf2, 0x61, 0xff, 0x10, 0xb4, 0x9c, 0x7a, 0x17, 0x96, 0xa3, 0x61, 0x03, 0xb0,
   0x23, 0x22, 0xae, 0x5d, 0xde, 0x40, 0x41, 0x41, 0xea, 0xcf, 0x01, 0x8f, 0xbf, 0x16, 0x78, 0xba]

/-- `REV384` of 95_test_vectors.md. -/
def rev384 : Bytes :=
  [0xa7, 0x25, 0xc8, 0x34, 0xa1, 0xec, 0xba, 0x58, 0x23, 0xcc, 0xe7, 0xa1, 0x2b, 0x07, 0x86, 0x80,
   0xed, 0x5b, 0xff, 0x43, 0x5a, 0x60, 0x8b, 0x1a, 0x63, 0xd1, 0xde, 0x0e, 0xab, 0x32, 0x2c, 0x27,
   0x07, 0x50, 0xc6, 0x9a, 0x69, 0x3d, 0xa0, 0xb5, 0x8b, 0x5e, 0xa3, 0x45, 0x3f, 0x75, 0x00, 0xcb]

/-! ### Ill-formed terms -/

/-- Every one of these terms is refused. -/
def allRefused (is : List Instr) : Bool := is.all fun i => !i.wellFormed

theorem test_wellFormed_refuses_engine : allRefused
    [.aes (desc 0x00100000), .xtsAes128 (desc 0), .des3 (desc 0), .sha256 (desc 0x00218000), .sha384 (desc 0x00220000),
     .shaUnsupported (desc 0x00200000), .rsa2048 (desc 0x00510000 512), .rsa4096 (desc 0x00520000 1024),
     .rsaSkip (desc 0x00500000), .ptBitwiseUnimpl (desc 0x00600080), .ptCopy (desc 0x00600000),
     .ptSwap256 (desc 0x00600040), .ptSwapUnimpl (desc 0x00600020), .zlibInflate (desc 0x00700018),
     .zlibUnimpl (desc 0x00700000), .ecc (desc 0x00800000), .unknownEngine (desc 0x00700000)] = true := by decide

theorem test_wellFormed_refuses_type : allRefused
    [.sha256 (desc 0x00320000), .sha384 (desc 0x00318000), .shaUnsupported (desc 0x00318000),
     .shaUnsupported (desc 0x00320000)] = true := by decide

theorem test_wellFormed_refuses_rsa_form : allRefused
    [.rsa2048 (desc 0x00410020 512), .rsa2048 (desc 0x00420000 512), .rsa2048 (desc 0x00410000 511),
     .rsa4096 (desc 0x00420020 1024), .rsa4096 (desc 0x00410000 1024), .rsa4096 (desc 0x00420000 1023),
     .rsaSkip (desc 0x00410000 512), .rsaSkip (desc 0x00420000 1024)] = true := by decide

theorem test_wellFormed_refuses_passthru_form : allRefused
    [.ptBitwiseUnimpl (desc 0x00500000), .ptCopy (desc 0x00500080), .ptCopy (desc 0x00500020),
     .ptSwap256 (desc 0x005000C0), .ptSwap256 (desc 0x00500000), .ptSwapUnimpl (desc 0x005000A0),
     .ptSwapUnimpl (desc 0x00500000), .ptSwapUnimpl (desc 0x00500040)] = true := by decide

theorem test_wellFormed_refuses_zlib_form : allRefused
    [.zlibInflate (desc 0x00600010), .zlibInflate (desc 0x00600008), .zlibUnimpl (desc 0x00600018)] = true := by decide

theorem test_wellFormed_refuses_access_form : allRefused
    [.mmioBadAccess false 0x6FFD 4, .mmioBadAccess true 0x1000 4, .globalRd 2, .globalWr 1 0, .cfgRd 3, .cfgWr 2 0,
     .queueUnknownReg 0 0x00E none, .queueUnknownReg 4 0x100 none, .queueUnknownReg 1 0 (some 5)] = true := by decide

/-! ### Decoding -/

theorem test_decode_aes : decode (raw []) = .ok (.aes zeroDesc) := by rfl

theorem test_decode_xts : decode (raw [0x00, 0x00, 0x10, 0x00]) = .ok (.xtsAes128 { zeroDesc with engine := 1 }) := by rfl

theorem test_decode_des3 : decode (raw [0x00, 0x00, 0x20, 0x00]) = .ok (.des3 { zeroDesc with engine := 2 }) := by rfl

/-- V-DEC1. -/
theorem test_decode_sha256 : decode (raw [0x18, 0x80, 0x31, 0, 3, 0, 0, 0, 0, 0x20, 0, 0, 0, 0, 2, 0]) =
    .ok (.sha256 { zeroDesc with
      engine := 3, init := true, eom := true, function := 0x0C00, length := 3, srcLo := 0x2000, srcMem := .loc }) := by
  rfl

/-- V-SHA4 and V-DEC10. -/
theorem test_decode_sha384 : decode (raw [0x18, 0x00, 0x32, 0, 3, 0, 0, 0, 0, 0x20, 0, 0, 0, 0, 0xFA, 0x01]) =
    .ok (.sha384 { zeroDesc with
      engine := 3, init := true, eom := true, function := 0x1000, length := 3, srcLo := 0x2000, srcMem := .loc,
      ctxId := 126 }) := by
  rfl

/-- V-SHA7. -/
theorem test_decode_shaUnsupported : decode (raw [0x18, 0x80, 0x30, 0x00]) =
    .ok (.shaUnsupported { zeroDesc with engine := 3, init := true, eom := true, function := 0x0400 }) := by rfl

/-- V-RSA1: every operand word. -/
theorem test_decode_rsa2048 :
    decode (raw [0, 0, 0x41, 0, 0, 2, 0, 0, 0, 0x80, 0, 0, 0, 0, 2, 0, 0, 0x90, 0, 0, 0, 0, 2, 0, 0, 0x84, 0, 0, 0, 0, 2, 0]) =
      .ok (.rsa2048 { zeroDesc with
        engine := 4, function := 0x0800, length := 512, srcLo := 0x8000, srcMem := .loc, w4 := 0x9000, w5 := 0x00020000,
        keyLo := 0x8400, keyMem := .loc }) := by
  rfl

theorem test_decode_rsa4096 : decode (raw [0, 0, 0x42, 0, 0, 4, 0, 0]) =
    .ok (.rsa4096 { zeroDesc with engine := 4, function := 0x1000, length := 1024 }) := by rfl

/-- V-RSA7. -/
theorem test_decode_rsaSkip : decode (raw [0x20, 0, 0x41, 0, 0, 2, 0, 0]) =
    .ok (.rsaSkip { zeroDesc with engine := 4, function := 0x0801, length := 512 }) := by rfl

/-- V-PT9. -/
theorem test_decode_ptBitwise : decode (raw [0x80, 0x01, 0x50, 0, 16]) =
    .ok (.ptBitwiseUnimpl { zeroDesc with engine := 5, function := 0x000C, length := 16 }) := by rfl

/-- V-DEC5: 48-bit address assembly. -/
theorem test_decode_ptCopy :
    decode (raw [0, 0, 0x50, 0, 4, 0, 0, 0, 0x9A, 0x78, 0x56, 0x34, 0x12, 0, 2, 0, 0, 0, 0, 0, 0xFF, 0xFF, 2, 0]) =
      .ok (.ptCopy { zeroDesc with
        engine := 5, length := 4, srcLo := 0x3456789A, srcHi := 0x0012, srcMem := .loc, w5 := 0x0002FFFF }) := by
  rfl

theorem test_decode_ptSwap256 : decode (raw [0x40, 0, 0x50, 0, 32]) =
    .ok (.ptSwap256 { zeroDesc with engine := 5, function := 0x0002, length := 32 }) := by rfl

/-- V-PT7. -/
theorem test_decode_ptSwapUnimpl : decode (raw [0x20, 0, 0x50, 0, 4]) =
    .ok (.ptSwapUnimpl { zeroDesc with engine := 5, function := 0x0001, length := 4 }) := by rfl

theorem test_decode_zlibInflate : decode (raw [0x18, 0, 0x60, 0, 13]) =
    .ok (.zlibInflate { zeroDesc with engine := 6, init := true, eom := true, length := 13 }) := by rfl

/-- V-ZL4. -/
theorem test_decode_zlibUnimpl : decode (raw [0x08, 0, 0x60, 0, 10]) =
    .ok (.zlibUnimpl { zeroDesc with engine := 6, init := true, length := 10 }) := by rfl

theorem test_decode_ecc : decode (raw [0, 0, 0x70, 0, 72]) = .ok (.ecc { zeroDesc with engine := 7, length := 72 }) := by
  rfl

theorem test_decode_unknownEngine : decode (raw [0, 0, 0xF0]) = .ok (.unknownEngine { zeroDesc with engine := 15 }) := by
  rfl

/-- V-DEC3: all bits set, both readings of words 4 and 5. -/
theorem test_decode_all_ones : decode (.descriptor (List.replicate 32 0xFF)) =
    .ok (.unknownEngine ⟨true, true, true, true, 0x7FFF, 15, true, 0xFFFFFFFF, 0xFFFFFFFF, 0xFFFF, .unnamed, 255, true,
      0xFFFFFFFF, 0xFFFFFFFF, 0xFFFFFFFF, 0xFFFF, .unnamed⟩) := by
  rfl

/-- V-MM4, and the queue registers of 47_mmio.md R300 by offset. -/
theorem test_decode_mmio_reads :
    decode (.access (.read 0x1000 2)) = .ok (.mmioBadAccess false 0x1000 2) ∧
    decode (.access (.read 0x0000 4)) = .ok (.globalRd 0) ∧
    decode (.access (.read 0x1000 4)) = .ok (.ctrlRd 0) ∧
    decode (.access (.read 0x2004 4)) = .ok (.tailRd 1) ∧
    decode (.access (.read 0x3008 4)) = .ok (.headRd 2) ∧
    decode (.access (.read 0x5100 4)) = .ok (.statusRd 4) ∧
    decode (.access (.read 0x100C 4)) = .ok (.queueUnknownReg 0 0x00C none) ∧
    decode (.access (.read 0x6FFC 4)) = .ok (.cfgRd 0xFFC) := ⟨rfl, rfl, rfl, rfl, rfl, rfl, rfl, rfl⟩

/-- V-MM5, V-MM15 and the writes of 47_mmio.md R300 by offset. -/
theorem test_decode_mmio_writes :
    decode (.access (.write 0x1004 [0xEF, 0xBE])) = .ok (.mmioBadAccess true 0x1004 2) ∧
    decode (.access (.write 0x0FFC [0x1F, 0, 0, 0])) = .ok (.globalWr 0xFFC 0x1F) ∧
    decode (.access (.write 0x4000 [1, 0, 0, 0])) = .ok (.ctrlWr 3 1) ∧
    decode (.access (.write 0x1004 [0, 0x10, 0, 0])) = .ok (.tailWr 0 0x1000) ∧
    decode (.access (.write 0x1008 [0x78, 0x56, 0x34, 0x12])) = .ok (.headWr 0 0x12345678) ∧
    decode (.access (.write 0x2100 [0xEF, 0xBE, 0xAD, 0xDE])) = .ok (.statusWr 1 0xDEADBEEF) ∧
    decode (.access (.write 0x5FFC [5, 0, 0, 0])) = .ok (.queueUnknownReg 4 0xFFC (some 5)) ∧
    decode (.access (.write 0x6000 [0, 0, 0, 0])) = .ok (.cfgWr 0 0) ∧
    decode (.access (.read 0x6FFD 4)) = .error (.outsideWindow 0x6FFD 4) := ⟨rfl, rfl, rfl, rfl, rfl, rfl, rfl, rfl, rfl⟩

/-- 30_encoding.md R121, the worked example, from fields that hold ignored bits of `function` besides. -/
theorem test_assemble_sha : Encoded.descriptor (assembleDesc { zeroDesc with
      engine := 3, init := true, eom := true, function := 0x4FFF, length := 3, srcLo := 0x2000, srcMem := .loc }) =
    raw [0x18, 0x80, 0x31, 0, 3, 0, 0, 0, 0, 0x20, 0, 0, 0, 0, 2, 0] := by decide

/-- 30_encoding.md R121: packed `function` and word 5 of RSA (every bit of `function`), PASSTHRU, AES, and SHA. -/
theorem test_assemble_function_and_w5 :
    (desc 0x004FFFE0 0 0 0 0 0x7FFC0000).packed = desc 0x004FFFE0 ∧
    (desc 0x005FFFE0 0 0 0 7 0xFFFFFFFF).packed = desc 0x005003E0 0 0 0 7 0x8003FFFF ∧
    (desc 0x000FFFE0 0 0 0 0 0x00060005).packed = desc 0 0 0 0 0 0x00020005 ∧
    (desc 0x003FFFE0 0 0 0 0 0xFFFFFFFF).packed = desc 0x00378000 0 0 0 0 0xFFFFFFFF := by decide

/-! ### Table words -/

theorem test_table_word_descriptor : decodeTableWord 32 0x00318000 =
    some (.sha256 { zeroDesc with engine := 3, function := 0x0C00 }) := by rfl

/-- A table word of at most 16 bits is the offset of a read. -/
theorem test_table_word_offset : decodeTableWord 16 0x2008 = some (.headRd 1) := by rfl

theorem test_fetch_word_runs :
    ((nextOf (step (State.reset.withFetchWord 32 0x00800000))).map fun t =>
      (t.diag, (t.queue 0).tail, (t.queue 0).control)) =
      some ([⟨some 0, .unknownEngine 8⟩], 0x20, 0x2) := by decide +kernel

/-! ### Vectors of 95_test_vectors.md -/

/-- V-DISP7: operands are ignored. -/
theorem test_aes : after (.aes (desc 0x0000FFFF)) ready =
    some { ready with diag := [⟨none, .unimplementedEngine 0⟩] } := by decide +kernel

/-- V-DISP2. -/
theorem test_xts : after (.xtsAes128 (desc 0x00100000 16 0x100 0x20000 0x200 0x20000)) ready =
    some { ready with diag := [⟨none, .unimplementedEngine 1⟩] } := by decide +kernel

/-- V-DISP3. -/
theorem test_des3 : after (.des3 (desc 0x00200000 8)) midHash =
    some { midHash with diag := [⟨none, .unimplementedEngine 2⟩] } := by decide +kernel

/-- V-DISP4. -/
theorem test_ecc : after (.ecc (desc 0x00700000 72)) ready =
    some { ready with diag := [⟨none, .unimplementedEngine 7⟩] } := by decide +kernel

/-- V-DISP6. -/
theorem test_unknownEngine : after (.unknownEngine (desc 0x00F00000)) ready =
    some { ready with diag := [⟨none, .unknownEngine 15⟩] } := by decide +kernel

/-- V-SHA1. -/
theorem test_sha256 : (after (.sha256 (desc 0x00318018 3 0x2000 0x20000)) ready).map
    (fun t => (t.lsb.read 0 33, t.hctx, t.diag)) = some (rev256 ++ [0], none, []) := by decide +kernel

/-- V-SHA10: `init` does not reset a live context. -/
theorem test_sha256_init_on_live_context : (after (.sha256 (desc 0x00318018 1 0x2002 0x20000)) midHash).map
    (fun t => (t.lsb.read 0 32, t.hctx)) = some (rev256, none) := by decide +kernel

/-- V-SHA4. -/
theorem test_sha384 : (after (.sha384 (desc 0x00320018 3 0x2000 0x01FA0000)) ready).map
    (fun t => (t.lsb.read 4032 48, t.hctx, t.diag)) = some (rev384, none, []) := by decide +kernel

/-- V-SHA5. -/
theorem test_sha384_slot_127 : (after (.sha384 (desc 0x00320018 3 0x2000 0x01FE0000)) ready).map
    (fun t => (t.lsb, t.hctx, t.diag)) = some ([], none, [⟨none, .scratchBounds 4064 48⟩]) := by decide +kernel

/-- V-SHA8. -/
theorem test_shaUnsupported : after (.shaUnsupported (desc 0x00308018 3 0x2000 0x20000)) midHash =
    some { midHash with diag := [⟨none, .unimplementedFunction (.shaType 1)⟩] } := by decide +kernel

/-- A state whose guest memory holds the given bytes alone. -/
def rsaState (l : List (Nat × Bytes)) : State := { ready with gm := place l }

/-- The operands of V-RSA1: modulus 3233, message 65, exponent 17. -/
def rsaStart : State := rsaState [(0x8000, [0xa1, 0x0c]), (0x8100, [0x41]), (0x8400, [0x11])]

/-- The descriptor of V-RSA1. -/
def rsaDesc : Desc := desc 0x00410000 0x200 0x8000 0x20000 0x9000 0x20000 0x8400 0x20000

/-- V-RSA1. -/
theorem test_rsa2048 : (after (.rsa2048 rsaDesc) rsaStart).map (fun t => (t.gm.read 0x9000 256, t.diag)) =
    some ([0xe6, 0x0a] ++ List.replicate 254 0, []) := by decide +kernel

/-- V-RSA5. -/
theorem test_rsa2048_zero_modulus :
    (after (.rsa2048 rsaDesc) (rsaState [(0x8100, [0x41]), (0x8400, [0x11])])).map (fun t => (t.gm.read 0x9000 2, t.diag)) =
      some ([0, 0], [⟨none, .unimplementedFunction .rsaModulusZero⟩]) := by decide +kernel

/-- V-RSA10. -/
theorem test_rsa4096 :
    (after (.rsa4096 (desc 0x00420000 0x400 0x8000 0x20000 0x9000 0x20000 0x8800 0x20000))
      (rsaState [(0x8000, [0xa1, 0x0c]), (0x8200, [0x41]), (0x8800, [0x11])])).map
        (fun t => (t.gm.read 0x9000 512, t.diag)) = some ([0xe6, 0x0a] ++ List.replicate 510 0, []) := by decide +kernel

/-- V-RSA7. -/
theorem test_rsaSkip : after (.rsaSkip (desc 0x00410020 0x200 0x8000 0x20000 0x9000 0x20000)) ready = some ready := by
  decide +kernel

/-- V-PT10. -/
theorem test_ptBitwise : after (.ptBitwiseUnimpl (desc 0x005000C0 5 0 0 0x100 0x20000)) ready =
    some { ready with diag := [⟨none, .unimplementedFunction (.ptBitwise 1)⟩] } := by decide +kernel

/-- V-PT13: overlap. -/
theorem test_ptCopy_overlap : (after (.ptCopy (desc 0x00500000 32 0x4000 0x20000 0x4010 0x20000)) ready).map
    (fun t => (t.gm.read 0x4000 16, t.gm.read 0x4010 32, t.diag)) = some (ramp 0 16, ramp 0 32, []) := by decide +kernel

/-- V-PT6. -/
theorem test_ptCopy_scratch_bounds : (after (.ptCopy (desc 0x00500000 64 0x4000 0x20000 0xFE0 0x10000)) ready).map
    (fun t => (t.lsb, t.diag)) = some ([], [⟨none, .scratchBounds 4064 64⟩]) := by decide +kernel

/-- V-PT3, the spec's value. -/
theorem test_ptSwap256 : (after (.ptSwap256 (desc 0x00500040 64 0x4000 0x20000 0x4100 0x20000)) ready).map
    (fun t => t.gm.read 0x4100 64) = some (ramp 0 64).reverse := by decide +kernel

/-- V-PT4. -/
theorem test_ptSwap256_unaligned : after (.ptSwap256 (desc 0x00500040 48 0x4000 0x20000 0x4100 0x20000)) ready =
    some { ready with diag := [⟨none, .unimplementedFunction (.ptUnalignedSwap 48)⟩] } := by decide +kernel

/-- V-PT3, the other reading. -/
theorem test_swap256_per_block : swap256 false (ramp 0 64) = (ramp 0 32).reverse ++ (ramp 32 32).reverse := by decide

/-- V-PT7. -/
theorem test_ptSwapUnimpl : after (.ptSwapUnimpl (desc 0x00500020 4 0 0x20000 4 0x20000)) ready =
    some { ready with diag := [⟨none, .unimplementedFunction (.ptByteswap 1)⟩] } := by decide +kernel

/-- V-ZL1, the engine's inflate step for the zlib container. -/
theorem test_inflate_zlib : inflateAs .zlib (guest.read 0x2400 13) 4096 = [0x68, 0x65, 0x6c, 0x6c, 0x6f] := by
  decide +kernel

/-- V-ZL8. -/
theorem test_zlibInflate_short_source :
    (after (.zlibInflate (desc 0x00600018 13 0x2400 0x20000 0x3000 0x20000)) (granting [12])).map
      (fun t => (t.gm, t.zctx, t.diag)) = some (guest, none, [⟨none, .guestMemoryError 0x2400 13 12⟩]) := by
  decide +kernel

/-- V-ZL10. -/
theorem test_zlibInflate_empty : (after (.zlibInflate (desc 0x00600018 0 0 0x20000 0x3000 0x20000)) ready).map
    (fun t => (t.gm, t.zctx, t.diag)) = some (guest, none, []) := by decide +kernel

/-- V-ZL4. -/
theorem test_zlibUnimpl : after (.zlibUnimpl (desc 0x00600008 10 0x100 0x20000 0x200 0x20000)) ready =
    some { ready with diag := [⟨none, .unimplementedFunction (.zlibStreaming true false)⟩] } := by decide +kernel

/-- V-Q1. -/
theorem test_ctrlRd_drains : (after (.ctrlRd 0) (running 0x1000 0x1020)).map
    (fun t => (t.queue 0, t.diag, t.busData)) =
      some (⟨2, 0x1020, 0x1020, 0, 0⟩, [⟨some 0, .unimplementedEngine 0⟩], [2, 0, 0, 0]) := by decide +kernel

/-- V-Q8: a descriptor whose fetch fails is skipped and the next one is executed. -/
theorem test_ctrlRd_failed_fetch :
    (after (.ctrlRd 0) { running 0x1000 0x1040 with mapAnswers := [16, 32] }).map (fun t => (t.queue 0, t.diag)) =
      some (⟨2, 0x1040, 0x1040, 0, 0⟩,
        [⟨some 0, .guestMemoryError 0x1000 32 16⟩, ⟨some 0, .unknownEngine 15⟩]) := by decide +kernel

/-- V-MM10. -/
theorem test_ctrlWr : (after (.ctrlWr 0 0) ready).map (fun t => (t.queue 0, t.busData)) =
    some (⟨0, 0, 0, 0, 0⟩, []) := by decide +kernel

/-- V-MM14, both values of `DRAIN_ON_CTRL_WRITE`. -/
theorem test_controlWrite_parameter :
    ((controlWrite true 0 1 (running 0x1000 0x1020)).queue 0).tail = 0x1020 ∧
    ((controlWrite false 0 1 (running 0x1000 0x1020)).queue 0).tail = 0x1000 := by decide +kernel

/-- V-MM13. -/
theorem test_tailRd : after (.tailRd 0) (running 0x1000 0x1020) =
    some { running 0x1000 0x1020 with busData := [0, 0x10, 0, 0] } := by decide +kernel

/-- V-MM2. -/
theorem test_tailWr : after (.tailWr 0 0x12345678) ready =
    some (ready.setQueue 0 ⟨2, 0x12345678, 0, 0, 0⟩) := by decide +kernel

/-- V-MM13. -/
theorem test_headRd : after (.headRd 0) (running 0x1000 0x1020) =
    some { running 0x1000 0x1020 with busData := [0x20, 0x10, 0, 0] } := by decide +kernel

/-- V-MM12. -/
theorem test_headWr : after (.headWr 4 0x40) ready = some (ready.setQueue 4 ⟨2, 0, 0x40, 0, 4⟩) := by decide +kernel

/-- V-MM1. -/
theorem test_statusRd : (after (.statusRd 3) ready).map (fun t => t.busData) = some [0, 0, 0, 0] := by decide +kernel

/-- V-MM3. -/
theorem test_statusWr : after (.statusWr 0 0xDEADBEEF) ready =
    some (ready.setQueue 0 ⟨2, 0, 0, 0xDEADBEEF, 0⟩) := by decide +kernel

/-- V-MM4. -/
theorem test_badAccess_no_drain : afterEvent (.access (.read 0x1000 8)) (running 0x1000 0x1020) =
    some { running 0x1000 0x1020 with
      diag := [⟨none, .badMmioAccess 0x1000 8 false⟩], busData := List.replicate 8 0 } := by decide +kernel

/-- V-MM5. -/
theorem test_badAccess_write : afterEvent (.access (.write 0x1004 [0xEF, 0xBE])) ready =
    some { ready with diag := [⟨none, .badMmioAccess 0x1004 2 true⟩] } := by decide +kernel

/-- V-MM6. -/
theorem test_globalWr : afterEvent (.access (.write 0x0000 [0x1F, 0, 0, 0])) ready =
    some { ready with diag := [⟨none, .globalControlAccess 0 (.write 0x1F)⟩] } := by decide +kernel

/-- V-MM6. -/
theorem test_globalRd : afterEvent (.access (.read 0x0000 4)) ready =
    some { ready with diag := [⟨none, .globalControlAccess 0 .read⟩], busData := [0, 0, 0, 0] } := by decide +kernel

/-- V-MM7. -/
theorem test_queueUnknownReg : afterEvent (.access (.write 0x100C [5, 0, 0, 0])) ready =
    some { ready with diag := [⟨none, .unknownRegister 0x100C (.write 5)⟩] } := by decide +kernel

/-- 47_mmio.md R313: an offset of the config region that is no word's, and so not the ready word's, reads 0. -/
theorem test_cfgRd : after (.cfgRd 1) ready = some { ready with busData := [0, 0, 0, 0] } := by
  have h : (1 : BitVec 12).toNat ≠ Config.cfgReadyOffset := by
    simp only [Config.cfgReadyOffset]; show (1 : Nat) ≠ _; omega
  show nextOf (.next (ready.respond (if (1 : BitVec 12).toNat = Config.cfgReadyOffset then Config.cfgReadyValue else 0))) = _
  rw [if_neg h]
  rfl

/-- V-MM9. -/
theorem test_cfgWr : after (.cfgWr 0 7) ready = some ready := by decide +kernel

/-- V-RST1 and V-RST3. -/
theorem test_device_reset :
    afterEvent .reset { (midHash.setQueue 2 ⟨1, 2, 3, 4, 2⟩) with lsb := [(5, 6)], diag := [⟨none, .unknownEngine 9⟩] } =
      some ready := by decide +kernel

/-- 20_memory.md R61: the model's one stop. -/
theorem test_outside_window : step { ready with host := [.access (.read 0x7000 1)] } =
    .fault (.accessOutsideWindow 0x7000 1) := by rfl

/-! ### Witnesses: states and operands that meet the hypotheses of each obligation that has some -/

theorem ready_memoriesWf : MemoriesWf ready := ⟨by decide +kernel, by decide +kernel⟩

theorem rsaStart_memoriesWf : MemoriesWf rsaStart := ⟨by decide +kernel, by decide +kernel⟩

theorem ready_invariant (h : List HostEvent) : Invariant { ready with host := h } :=
  ⟨ready_memoriesWf.1, ready_memoriesWf.2, by show ∀ q : QId, (ready.queue q).id = q.val; decide, rfl, rfl⟩

/-- One well-formed instruction of every constructor, accesses at the ends of the window among them. -/
theorem witness_DecodeEncodeAgree :
    [Instr.aes (desc 0x0000FFFF), .xtsAes128 (desc 0x00100000), .des3 (desc 0x00200000), .sha256 (desc 0x00318018 3),
     .sha384 (desc 0x00320018), .shaUnsupported (desc 0x00308018), .rsa2048 rsaDesc, .rsa4096 (desc 0x00420000 1024),
     .rsaSkip (desc 0x00410020 512), .ptBitwiseUnimpl (desc 0x00500180), .ptCopy (desc 0x00500000),
     .ptSwap256 (desc 0x00500040), .ptSwapUnimpl (desc 0x00500060), .zlibInflate (desc 0x00600018),
     .zlibUnimpl (desc 0x00600010), .ecc (desc 0x00700000), .unknownEngine (desc 0xFFFFFFFF),
     .mmioBadAccess false 0x7000 0, .mmioBadAccess true 0x6FFF 1, .globalRd 0xFFC, .globalWr 0 5, .ctrlRd 4, .ctrlWr 0 1,
     .tailRd 0, .tailWr 4 3, .headRd 1, .headWr 2 3, .statusRd 0, .statusWr 0 1, .queueUnknownReg 4 0xFFC none,
     .queueUnknownReg 0 0x00C (some 1), .cfgRd 0, .cfgWr 0xFFC 9].all Instr.wellFormed = true := by decide

theorem witness_EncodeDecodeDescriptorWords :
    (0x01FFFFFB : Word) &&& 0xFE000004 = 0 ∧ (0x83FFFFFF : Word) &&& 0x7C000000 = 0 ∧
      (0x0003FFFF : Word) &&& 0xFFFC0000 = 0 := by decide

theorem witness_EveryDescriptorDecodes :
    (ramp 0 32).length = 32 ∧ (ramp 0 31).length ≠ 32 ∧ (ramp 0 33).length ≠ 32 := by decide

/-- Descriptors with the engines the packing of R121 tells apart. -/
theorem witness_EncodeDecodeDescriptorWords_packing :
    (desc 0x003FFFE0).engine = Config.engSha ∧ (desc 0x005FFFE0 0 0 0 0 0xFFFFFFFF).engine ≠ Config.engSha := by decide

/-- The pairs of words that only reserved bits and ignored bits of `function` tell apart, one for each kind of engine. -/
theorem witness_ReservedBitsChangeNothing :
    ([((0x00318018 : Word), (0xFE39FFFC : Word)), (0x00000000, 0xFE0FFFE4), (0x00410000, 0xFE410004),
        (0x00500040, 0xFE5FFC44), (0x00600018, 0xFE6FFFFC)].all fun p =>
      p.1 &&& usedW0 (p.1.extractLsb' 20 4) == p.2 &&& usedW0 (p.1.extractLsb' 20 4)) = true ∧
    (0x00020000 : Word) &&& 0x83FFFFFF = 0x7C020000 &&& 0x83FFFFFF ∧
    (0x00010FE0 : Word) &&& 0x8003FFFF = 0x7FFD0FE0 &&& 0x8003FFFF ∧
    (0x00020000 : Word) &&& 0x0003FFFF = 0xFFFE0000 &&& 0x0003FFFF := by decide +kernel

/-- V-DEC4 against V-DEC1, and one pair for each other kind of engine. -/
theorem witness_UnusedFieldsHaveNoEffect :
    SameOperands (desc 0x00318018 3 0x2000 0x20000) (desc 0x0131801B 3 0x2000 0x80020000 24 7 9 0x30000) ∧
    SameOperands rsaDesc (desc 0x0041001B 0x200 0x8000 0x03FE0000 0x9000 0x80020000 0x8400 0x20000) ∧
    SameOperands (desc 0x00500040 32 0x4000 0x20000 0x4100 0x20000)
      (desc 0x0150005B 32 0x4000 0x83FE0000 0x4100 0x80020000 5 0x30000) ∧
    SameOperands (desc 0x00600018 13 0x2400 0x20000) (desc 0x01600FFB 13 0x2400 0x83FE0000 0 0x80000000 5 0x30000) ∧
    SameOperands (desc 0) (desc 0x0000FFFF 1 2 3 4 5 6 7) := by
  refine ⟨⟨by decide, fun _ => ⟨rfl, rfl, rfl, rfl, rfl, rfl⟩, ?_, ?_, ?_⟩,
    ⟨by decide, ?_, fun _ => ⟨rfl, rfl, rfl, rfl, ⟨rfl, rfl, rfl⟩, rfl, rfl⟩, ?_, ?_⟩,
    ⟨by decide, ?_, ?_, fun _ => ⟨rfl, rfl, ⟨rfl, rfl, rfl⟩, rfl, rfl⟩, ?_⟩,
    ⟨by decide, ?_, ?_, ?_, fun _ => ⟨rfl, rfl, ⟨rfl, rfl, rfl⟩, rfl, rfl⟩⟩, ⟨by decide, ?_, ?_, ?_, ?_⟩⟩ <;>
    exact fun h => absurd h (by decide)

theorem witness_EveryAccessInWindowDecodes :
    (Access.read 0x6FFC 4).offset + (Access.read 0x6FFC 4).size ≤ Config.windowSize ∧
    conforming (Access.read 0x6FFC 4).offset (Access.read 0x6FFC 4).size = true ∧
    (Access.read 0x7000 0).offset + (Access.read 0x7000 0).size ≤ Config.windowSize ∧
    (Access.write 0x6FFF [1]).offset + (Access.write 0x6FFF [1]).size ≤ Config.windowSize := by decide

theorem witness_DeviceResetLeavesResetValues :
    { midHash with host := [.reset, .guestStore 0 1] }.host = .reset :: [.guestStore 0 1] ∧ midHash.host = [] :=
  ⟨rfl, rfl⟩

/-- An access, a reset, a store at the top of guest memory, and no event at all. -/
theorem witness_StepKeepsRunInvariant :
    ∀ h ∈ [[HostEvent.access (.read 0x1004 4)], [.reset], [.guestStore 0xFFFFFFFFFFFF 7], []],
      Invariant { ready with host := h } ∧ (nextOf (step { ready with host := h })).isSome = true :=
  fun h hh => ⟨ready_invariant h, by revert h; decide +kernel⟩

theorem witness_StepRunsDecodedAccess :
    { ready with host := [.access (.read 0x1004 4), .reset] }.host = .access (.read 0x1004 4) :: [.reset] ∧
      decode (.access (.read 0x1004 4)) = .ok (.tailRd 0) := ⟨rfl, rfl⟩

/-- A drain of one descriptor, with the head one byte above the tail, at the top of the 32-bit range (V-Q7). -/
theorem witness_StepRunsDecodedDescriptor :
    let s := { running 0xFFFFFFE0 0xFFFFFFE1 with host := [controlReadEvent 0] }
    s.host = controlReadEvent 0 :: [] ∧ runBit (s.queue 0).control = true ∧
    drainCount (s.queue 0).tail (s.queue 0).head = 1 ∧ grantAt s 0 (s.queue 0).tail.toNat 32 false = 32 ∧
    decode (.descriptor (s.gm.read (s.queue 0).tail.toNat 32)) = .ok (.aes zeroDesc) ∧
    ∃ t, exec (.aes zeroDesc) { afterRequests s 1 with host := [], draining := some 0 } = .next t := by
  refine ⟨rfl, by decide +kernel, by decide +kernel, by decide +kernel, by decide +kernel, ⟨_, rfl⟩⟩

/-- A drain of two descriptors whose second one starts one byte below the head. -/
theorem witness_DrainExecutesOneDescriptorAtATime :
    let s := running 0x1020 0x1041
    runBit (s.queue 0).control = true ∧ (s.queue 0).tail.toNat + 32 < (s.queue 0).head.toNat ∧
    grantAt s 0 (s.queue 0).tail.toNat 32 false = 32 ∧
    decode (.descriptor (s.gm.read (s.queue 0).tail.toNat 32)) = .ok (.unknownEngine { zeroDesc with engine := 15 }) ∧
    ∃ t, exec (.unknownEngine { zeroDesc with engine := 15 }) { afterRequests s 1 with draining := some 0 } = .next t := by
  refine ⟨by decide +kernel, by decide +kernel, by decide +kernel, by decide +kernel, ⟨_, rfl⟩⟩

/-- Accesses one byte beyond the window and at its very end, and a state with no event. -/
theorem witness_StepStopsOnlyOutsideWindow :
    ({ ready with host := [.access (.read 0x6FFD 4)] }.host = .access (.read 0x6FFD 4) :: [] ∧
      Config.windowSize < (Access.read 0x6FFD 4).offset + (Access.read 0x6FFD 4).size) ∧
    (∀ a rest, { ready with host := [.access (.read 0x6FFC 4)] }.host = .access a :: rest →
      a.offset + a.size ≤ Config.windowSize) ∧
    ∀ a rest, ready.host = .access a :: rest → a.offset + a.size ≤ Config.windowSize := by
  refine ⟨⟨rfl, by decide⟩, ?_, ?_⟩
  · rintro a rest h
    cases h
    decide
  · rintro a rest h
    cases h

/-- A step that appends to the log, and a reset. -/
theorem witness_DiagnosticLogIsNeverRead :
    (∃ t, step { { ready with host := [.access (.read 0 4)] } with diag := [⟨none, .unknownEngine 9⟩] } = .next t) ∧
    ∃ t, step { { ready with host := [.reset] } with diag := [⟨none, .unknownEngine 9⟩] } = .next t :=
  ⟨⟨_, rfl⟩, ⟨_, rfl⟩⟩

theorem witness_DescriptorsWriteNoRegister :
    descriptorOf (.rsa2048 rsaDesc) = some rsaDesc ∧ ∃ t, exec (.rsa2048 rsaDesc) ready = .next t := ⟨rfl, ⟨_, rfl⟩⟩

/-- Each register changes somewhere, by its own write and by the drain of its queue. -/
theorem witness_QueueRegisterWriters :
    let s := running 0x1000 0x1020 |>.setStatus 0 9
    let changed (i : Instr) (f : Queue → Word) := (after i s).any fun t => f (t.queue 0) != f (s.queue 0)
    changed (.headWr 0 5) Queue.head = true ∧ changed (.tailWr 0 5) Queue.tail = true ∧
    changed (.statusWr 0 5) Queue.status = true ∧ changed (.ctrlWr 0 5) Queue.control = true ∧
    changed (.ctrlRd 0) Queue.tail = true ∧ changed (.ctrlRd 0) Queue.status = true ∧
    changed (.ctrlRd 0) Queue.control = true := by decide +kernel

/-- A running queue 4 with one SHA descriptor (V-SHA1, its `eom` as given). -/
def shaQueue (first : Byte) : State :=
  { ready with gm := guest.write 0x1000 [first, 0x80, 0x31, 0, 3, 0, 0, 0, 0, 0x20, 0, 0, 0, 0, 2, 0] }.setQueue 4
    ⟨1, 0x1000, 0x1020, 0, 4⟩

/-- A running queue 4 with one copy of "abc" in guest memory. -/
def copyQueue : State :=
  { ready with gm := guest.write 0x1000 [0, 0, 0x50, 0, 3, 0, 0, 0, 0, 0x20, 0, 0, 0, 0, 2, 0, 0, 0x30, 0, 0, 0, 0, 2] }.setQueue
    4 ⟨1, 0x1000, 0x1020, 0, 4⟩

/-- Drains change the scratch store, the hash context and guest memory, and a reset changes the contexts. -/
theorem witness_StoreChangesOnlyInDrains :
    (afterEvent (controlReadEvent 4) (shaQueue 0x18)).any (fun t => t.lsb != (shaQueue 0x18).lsb) = true ∧
    (afterEvent (controlReadEvent 4) (shaQueue 0x08)).any (fun t => t.hctx != (shaQueue 0x08).hctx) = true ∧
    (afterEvent (controlReadEvent 4) copyQueue).any (fun t => t.gm != copyQueue.gm) = true ∧
    (afterEvent .reset midHash).any (fun t => t.hctx != midHash.hctx) = true ∧
    (afterEvent .reset { ready with zctx := some ⟨[1]⟩ }).any (fun t => t.zctx != some ⟨[1]⟩) = true := by decide +kernel

/-- A platform store at either end of guest memory: a new byte, and a listed one taken out by the value unlisted bytes read
as. -/
theorem witness_StoreChangesOnlyInDrains_platform :
    ready.gm.wf Config.guestLimit = true ∧ (shaQueue 0x18).gm.wf Config.guestLimit = true ∧
    (afterEvent (.guestStore 0xFFFFFFFFFFFF 7) ready).map (fun t => t.gm.get 0xFFFFFFFFFFFF) = some 7 ∧
    (afterEvent (.guestStore 0x2001 0) ready).map (fun t => t.gm.read 0x2000 3) = some [0x61, 0, 0x63] ∧
    (afterEvent (.guestStore 0 9) ready).map (fun t => (t.gm.read 0 2, t.gm.wf Config.guestLimit)) =
      some ([9, 0], true) := by decide +kernel

/-- A descriptor that appends an event and one that appends none. -/
theorem witness_DescriptorLogsAtMostOneEvent :
    (descriptorOf (.aes zeroDesc) = some zeroDesc ∧ ∃ t, exec (.aes zeroDesc) ready = .next t) ∧
    (descriptorOf (.rsaSkip rsaDesc) = some rsaDesc ∧ ∃ t, exec (.rsaSkip rsaDesc) ready = .next t) :=
  ⟨⟨rfl, ⟨_, rfl⟩⟩, rfl, ⟨_, rfl⟩⟩

theorem witness_QueueIdOnlyLabelsDiagnostics :
    descriptorOf (.aes zeroDesc) = some zeroDesc ∧ ∃ t, exec (.aes zeroDesc) { ready with draining := some 3 } = .next t :=
  ⟨rfl, ⟨_, rfl⟩⟩

/-- Each kind of failing access, with the event it logs: both memory types no engine reaches, one byte past the store, an
empty range past it, short grants of no byte and of all bytes but one, and the slot past the last. -/
theorem witness_ShimCallsStayInBounds_diagnostics :
    (accessible ready 0 .system 0x100 4 false = false ∧ accessFailure ready 0 .system 0x100 4 false = .unsupportedMemType .system) ∧
    (accessible ready 0 .unnamed 0 0 true = false ∧ accessFailure ready 0 .unnamed 0 0 true = .unsupportedMemType .unnamed) ∧
    (accessible ready 0 .scratch 4095 2 false = false ∧ accessible ready 0 .scratch 4097 0 true = false ∧
      accessFailure ready 0 .scratch 4095 2 false = .scratchBounds 4095 2) ∧
    (accessible (granting [0]) 0 .loc 0x5000 16 false = false ∧
      accessFailure (granting [0]) 0 .loc 0x5000 16 false = .guestMemoryError 0x5000 16 0) ∧
    (accessible (granting [16, 15]) 1 .loc 0x5000 16 true = false ∧
      failedAccess (granting [16, 15]) 1 .loc 0x5000 16 true =
        { granting [] with mapCalls := 2, diag := [⟨none, .guestMemoryError 0x5000 16 15⟩] }) ∧
    Config.lsbSize < 1 + 4096 ∧ grantAt (granting [4095]) 0 0x3000 4096 true < 4096 ∧
    Config.lsbSize < (128#8).toNat * 32 + [(1 : Byte)].length := by decide +kernel

/-- Failing calls: V-SHIM2, V-SHIM3, V-SHIM4, V-SHIM5, V-SLOT3 and an unnamed memory type's mapping. -/
theorem witness_ShimCallsStayInBounds_failures :
    (∃ e t, memRead .unnamed 0 4 ready = (.error e, t)) ∧
    (∃ e t, memRead .loc 0x5000 16 (granting [8]) = (.error e, t)) ∧
    (∃ e t, memWrite .loc 0x5000 (ramp 0 16) (granting [15]) = (.error e, t)) ∧
    (∃ e t, memWrite .scratch 4090 (ramp 0 8) ready = (.error e, t)) ∧
    (∃ e t, memMapW .system 0 1 ready = (.error e, t)) ∧
    ∃ e t, lsbWriteSlot 127 (ramp 0 48) ready = (.error e, t) :=
  ⟨⟨_, _, rfl⟩, ⟨_, _, rfl⟩, ⟨_, _, rfl⟩, ⟨_, _, rfl⟩, ⟨_, _, rfl⟩, ⟨_, _, rfl⟩⟩

/-- Succeeding calls, at the ends of the store and with empty, full and short grants. -/
theorem witness_ShimCallsStayInBounds_successes :
    (∃ bs t, memRead .scratch 4064 32 ready = (.ok bs, t)) ∧ (∃ bs t, memRead .loc 0x2000 3 ready = (.ok bs, t)) ∧
    (∃ bs t, memRead .loc 9 0 (granting [0]) = (.ok bs, t)) ∧ (∃ t, memWrite .scratch 4090 (ramp 0 6) ready = (.ok (), t)) ∧
    (∃ t, memWrite .loc 0xFFFFFFFFFFFF [1] ready = (.ok (), t)) ∧
    (∃ t, memMapW .loc 0x30000 4096 (granting [100]) = (.ok 100, t)) ∧
    (∃ t, memMapW .scratch 0 4096 ready = (.ok 4096, t)) ∧ (∃ t, memMapW .scratch 32 4096 ready = (.ok 0, t)) ∧
    ∃ t, lsbWriteSlot 127 (ramp 0 32) ready = (.ok (), t) :=
  ⟨⟨_, _, rfl⟩, ⟨_, _, rfl⟩, ⟨_, _, rfl⟩, ⟨_, rfl⟩, ⟨_, rfl⟩, ⟨_, rfl⟩, ⟨_, rfl⟩, ⟨_, rfl⟩, ⟨_, rfl⟩⟩

/-- Both ends of the engine codes, alone and in a drain. -/
theorem witness_NoOpRoutesOnlyLog :
    (let s := running 0x1000 0x1020
     runBit (s.queue 0).control = true ∧ (s.queue 0).head.toNat = (s.queue 0).tail.toNat + 32 ∧
     grantAt s 0 (s.queue 0).tail.toNat 32 false = 32 ∧
     decode (.descriptor (s.gm.read (s.queue 0).tail.toNat 32)) = .ok (.aes zeroDesc)) ∧
    (let s := running 0x1020 0x1040
     runBit (s.queue 0).control = true ∧ (s.queue 0).head.toNat = (s.queue 0).tail.toNat + 32 ∧
     grantAt s 0 (s.queue 0).tail.toNat 32 false = 32 ∧
     decode (.descriptor (s.gm.read (s.queue 0).tail.toNat 32)) =
       .ok (.unknownEngine { zeroDesc with engine := 15 })) := by decide +kernel

/-- V-SHA2's first descriptor, an empty source, and the last byte of the scratch store. -/
theorem witness_ShaFeedAppendsSource :
    ∀ d ∈ [desc 0x00318008 2 0x2000 0xA0000, desc 0x00318008 0 0x2000 0xA0000, desc 0x00318008 1 4095 0x10000],
      d.eom = false ∧ sourceAccessible ready 0 d = true := by decide +kernel

theorem witness_ShaWithoutEomKeepsContext : (desc 0x00318008 2 0x2000 0xA0000).eom = false := by decide

/-- The last slot a digest of each type fits in, and a live context of the other type (V-SHA11). -/
theorem witness_ShaEomWritesReversedDigest :
    MemoriesWf ready ∧ MemoriesWf midHash ∧
    (let d := desc 0x00318018 3 0x2000 0x01FE0000
     d.eom = true ∧ sourceAccessible ready 0 d = true ∧ ready.hctx.getD ⟨.sha256, []⟩ = ⟨.sha256, []⟩ ∧
      d.ctxId.toNat * 32 + digestSize .sha256 ≤ Config.lsbSize) ∧
    (let d := desc 0x00320018 3 0x2000 0x01FA0000
     d.eom = true ∧ sourceAccessible ready 0 d = true ∧ ready.hctx.getD ⟨.sha384, []⟩ = ⟨.sha384, []⟩ ∧
      d.ctxId.toNat * 32 + digestSize .sha384 ≤ Config.lsbSize) ∧
    (let d := desc 0x00320010 1 0x2002 0x01FE0000
     d.eom = true ∧ sourceAccessible midHash 0 d = true ∧ midHash.hctx.getD ⟨.sha384, []⟩ = ⟨.sha256, [0x61, 0x62]⟩ ∧
      d.ctxId.toNat * 32 + digestSize .sha256 ≤ Config.lsbSize) := by
  refine ⟨ready_memoriesWf, ready_memoriesWf, ?_, ?_, ?_⟩ <;> decide +kernel

/-- The first slot a digest of each type does not fit in. -/
theorem witness_ShaDigestOutOfBoundsDestroysContext :
    (let d := desc 0x00318018 3 0x2000 0x02020000
     d.eom = true ∧ sourceAccessible ready 0 d = true ∧ ready.hctx.getD ⟨.sha256, []⟩ = ⟨.sha256, []⟩ ∧
      Config.lsbSize < d.ctxId.toNat * 32 + digestSize .sha256) ∧
    (let d := desc 0x00320018 3 0x2000 0x01FE0000
     d.eom = true ∧ sourceAccessible ready 0 d = true ∧ ready.hctx.getD ⟨.sha384, []⟩ = ⟨.sha384, []⟩ ∧
      Config.lsbSize < d.ctxId.toNat * 32 + digestSize .sha384) := by decide +kernel

/-- A short grant (V-SHA12), one byte past the store, SYSTEM (V-SHA15) and the unnamed memory type. -/
theorem witness_ShaFailedReadKeepsContext :
    sourceAccessible (granting [2]) 0 (desc 0x00318018 3 0x2000 0x20000) = false ∧
    ∀ d ∈ [desc 0x00318018 2 4095 0x10000, desc 0x00318018 3 0x2000 0, desc 0x00318018 0 0 0x30000],
      sourceAccessible ready 0 d = false := by decide +kernel

theorem witness_ShaUnsupportedTypeOnlyLogs :
    ([0x00300000, 0x00310000, 0x00328000, 0x00378018].all fun w0 : Word =>
      w0.extractLsb' 20 4 == 3#4 && w0.extractLsb' 15 4 != 3#4 && w0.extractLsb' 15 4 != 4#4) = true := by decide

/-- V-SHA2: two chunks; and no chunk before the last descriptor. -/
theorem witness_ChunkedHashEqualsOneShotHash :
    MemoriesWf ready ∧ ready.hctx = none ∧
    (let chunks := [desc 0x00318008 2 0x2000 0xA0000]
     let last := desc 0x00318010 1 0x2002 0xA0000
     (∀ d ∈ chunks, d.eom = false) ∧ last.eom = true ∧ chunksAccessible ready 0 (chunks ++ [last]) = true ∧
      last.ctxId.toNat * 32 + digestSize .sha256 ≤ Config.lsbSize) ∧
    (let last := desc 0x00320018 3 0x2000 0x01FA0000
     last.eom = true ∧ chunksAccessible ready 0 ([] ++ [last]) = true ∧
      last.ctxId.toNat * 32 + digestSize .sha384 ≤ Config.lsbSize) := by
  refine ⟨ready_memoriesWf, rfl, ?_, ?_⟩ <;> decide +kernel

/-- V-RSA1. -/
theorem witness_RsaWritesModularPower :
    RsaForm (.rsa2048 rsaDesc) rsaDesc 256 ∧ MemoriesWf rsaStart ∧ rsaReadable rsaStart rsaDesc 256 = true ∧
      rsaWritable rsaStart rsaDesc 256 = true ∧ rsaModulus rsaStart rsaDesc 256 ≠ 0 := by
  refine ⟨.rsa2048 _, rsaStart_memoriesWf, ?_, ?_, ?_⟩ <;> decide +kernel

/-- V-RSA5. -/
theorem witness_RsaZeroModulusWritesNothing :
    RsaForm (.rsa4096 rsaDesc) rsaDesc 512 ∧ rsaReadable (rsaState []) rsaDesc 512 = true ∧
      rsaModulus (rsaState []) rsaDesc 512 = 0 := by
  refine ⟨.rsa4096 _, ?_, ?_⟩ <;> decide +kernel

/-- Each of the four ranges fails in turn: the grants of the exponent, the modulus, the message and the result; and a source
and a destination of the unnamed memory type. -/
theorem witness_RsaFailureChangesNoMemory :
    RsaForm (.rsa2048 rsaDesc) rsaDesc 256 ∧
    accessible { rsaStart with mapAnswers := [255] } 0 rsaDesc.keyMem rsaDesc.key.toNat 256 false = false ∧
    (let s := { rsaStart with mapAnswers := [256, 255] }
     accessible s 0 rsaDesc.keyMem rsaDesc.key.toNat 256 false = true ∧
      accessible s (mapRequests rsaDesc.keyMem 256) rsaDesc.srcMem rsaDesc.src.toNat 256 false = false) ∧
    (let s := { rsaStart with mapAnswers := [256, 256, 0] }
     accessible s 0 rsaDesc.keyMem rsaDesc.key.toNat 256 false = true ∧
      accessible s (mapRequests rsaDesc.keyMem 256) rsaDesc.srcMem rsaDesc.src.toNat 256 false = true ∧
      accessible s (mapRequests rsaDesc.keyMem 256 + mapRequests rsaDesc.srcMem 256) rsaDesc.srcMem
        (rsaDesc.src.toNat + 256) 256 false = false) ∧
    (let s := { rsaStart with mapAnswers := [256, 256, 256, 255] }
     rsaReadable s rsaDesc 256 = true ∧ rsaModulus s rsaDesc 256 ≠ 0 ∧ rsaWritable s rsaDesc 256 = false) ∧
    (let d := desc 0x00410000 0x200 0x8000 0x30000 0x9000 0x20000 0x8400 0x20000
     RsaForm (.rsa2048 d) d 256 ∧ accessible rsaStart 0 d.keyMem d.key.toNat 256 false = true ∧
      accessible rsaStart (mapRequests d.keyMem 256) d.srcMem d.src.toNat 256 false = false) ∧
    (let d := desc 0x00410000 0x200 0x8000 0x20000 0x9000 0x30000 0x8400 0x20000
     RsaForm (.rsa2048 d) d 256 ∧ rsaReadable rsaStart d 256 = true ∧ rsaModulus rsaStart d 256 ≠ 0 ∧
      rsaWritable rsaStart d 256 = false) := by
  refine ⟨.rsa2048 _, ?_, ?_, ?_, ?_, ⟨.rsa2048 _, ?_⟩, .rsa2048 _, ?_⟩ <;> decide +kernel

/-- V-RSA6, V-RSA7, V-RSA8. -/
theorem witness_RsaUnsupportedIsSkippedSilently :
    (let d := desc 0x00410020 0x200
     d.engine = Config.engRsa ∧ d.rsaMode ≠ Config.rsaModePlain) ∧
    (let d := desc 0x00408000 0x100
     d.engine = Config.engRsa ∧ d.rsaSize.toNat ≠ 256 ∧ d.rsaSize.toNat ≠ 512) ∧
    (let d := desc 0x00410000 0x100
     d.engine = Config.engRsa ∧ d.length.toNat ≠ 2 * d.rsaSize.toNat) := by decide

/-- The key pair of V-RSA1 and V-RSA2 on two scratch buffers: the ciphertext is written behind the second modulus. -/
def rsaPair : State :=
  rsaState [(0x8000, [0xa1, 0x0c]), (0x8100, [0x41]), (0x8400, [0x11]), (0x9000, [0xa1, 0x0c]), (0x8500, [0xc1, 0x0a])]

/-- V-RSA1 with the ciphertext at `0x9100`. -/
def rsaEncrypt : Desc := desc 0x00410000 0x200 0x8000 0x20000 0x9100 0x20000 0x8400 0x20000

/-- V-RSA2 with its operands at `0x9000`. -/
def rsaDecrypt : Desc := desc 0x00410000 0x200 0x9000 0x20000 0xA000 0x20000 0x8500 0x20000

theorem rsaPair_after : ∃ t, exec (.rsa2048 rsaEncrypt) rsaPair = .next t ∧ rsaReadable t rsaDecrypt 256 = true ∧
    rsaWritable t rsaDecrypt 256 = true ∧ rsaModulus t rsaDecrypt 256 = rsaModulus rsaPair rsaEncrypt 256 ∧
    rsaMessage rsaPair rsaEncrypt 256 ^ (rsaExponent rsaPair rsaEncrypt 256 * rsaExponent t rsaDecrypt 256) %
      rsaModulus rsaPair rsaEncrypt 256 = rsaMessage rsaPair rsaEncrypt 256 :=
  ⟨(rsa2048Effect rsaEncrypt rsaPair).2, rfl, by decide +kernel⟩

theorem witness_RsaDecryptsWhatItEncrypted :
    RsaForm (.rsa2048 rsaEncrypt) rsaEncrypt 256 ∧ RsaForm (.rsa2048 rsaDecrypt) rsaDecrypt 256 ∧ MemoriesWf rsaPair ∧
    rsaReadable rsaPair rsaEncrypt 256 = true ∧ rsaWritable rsaPair rsaEncrypt 256 = true ∧
    rsaModulus rsaPair rsaEncrypt 256 ≠ 0 ∧ rsaDecrypt.srcMem = rsaEncrypt.dstMem ∧
    rsaDecrypt.src.toNat + 256 = rsaEncrypt.dst.toNat := by
  refine ⟨.rsa2048 _, .rsa2048 _, ⟨?_, ?_⟩, ?_⟩ <;> decide +kernel

/-- V-PT13, an empty copy (V-PT5's length), and a copy that ends at the end of the scratch store. -/
theorem witness_PassthruCopiesBytes :
    MemoriesWf ready ∧
    ∀ d ∈ [desc 0x00500000 32 0x4000 0x20000 0x4010 0x20000, desc 0x00500000 0 0x4000 0x20000 0x4010 0x20000,
        desc 0x00500000 64 0x4000 0x20000 4032 0x10000],
      sourceAccessible ready 0 d = true ∧
        accessible ready (sourceRequests d) d.dstMem d.dst.toNat d.length.toNat true = true :=
  ⟨ready_memoriesWf, by decide +kernel⟩

/-- V-PT3 and V-PT5. -/
theorem witness_PassthruSwapReversesBytes :
    MemoriesWf ready ∧
    ∀ d ∈ [desc 0x00500040 64 0x4000 0x20000 0x4100 0x20000, desc 0x00500040 0 0x4000 0x20000 0x4100 0x20000],
      d.length.toNat % 32 = 0 ∧ sourceAccessible ready 0 d = true ∧
        accessible ready (sourceRequests d) d.dstMem d.dst.toNat d.length.toNat true = true :=
  ⟨ready_memoriesWf, by decide +kernel⟩

theorem witness_SwapReadingsAgreeOnOneBlock :
    63 < (ramp 0 64).length ∧ (ramp 0 64).length % 32 = 0 ∧ (desc 0x00500040 32 0x4000 0x20000).length = 32 := by decide

/-- V-PT11 and V-PT14, and destinations of the unnamed memory type and one byte past the store, for a copy and for a
swap. -/
theorem witness_PassthruFailureChangesNoMemory :
    sourceAccessible ready 0 (desc 0x00500000 8 0 0 4095 0x10000) = false ∧
    (let d := desc 0x00500000 16 0x4000 0x20000 0x4100 0x20000
     sourceAccessible (granting [16, 8]) 0 d = true ∧
      accessible (granting [16, 8]) (sourceRequests d) d.dstMem d.dst.toNat d.length.toNat true = false) ∧
    (∀ d ∈ [desc 0x00500040 32 0x4000 0x20000 0x4100 0x30000, desc 0x00500040 32 0x4000 0x20000 4065 0x10000],
      d.length.toNat % 32 = 0 ∧ sourceAccessible ready 0 d = true ∧
        accessible ready (sourceRequests d) d.dstMem d.dst.toNat d.length.toNat true = false) ∧
    (let d := desc 0x00500040 32 0x4000 0x20000 0x4100 0x20000
     d.length.toNat % 32 = 0 ∧ sourceAccessible (granting [31]) 0 d = false) := by decide +kernel

/-- V-PT6, and a source range that ends one byte past the store. -/
theorem witness_PassthruScratchOverflowIsFlagged :
    (let d := desc 0x00500000 1 4096 0x10000 0x4100 0x20000
     d.srcMem = .scratch ∧ Config.lsbSize < d.src.toNat + d.length.toNat) ∧
    (let d := desc 0x00500000 64 0x4000 0x20000 0xFE0 0x10000
     sourceAccessible ready 0 d = true ∧ d.dstMem = .scratch ∧ Config.lsbSize < d.dst.toNat + d.length.toNat) ∧
    (let d := desc 0x00500040 32 0x4000 0x20000 4065 0x10000
     d.length.toNat % 32 = 0 ∧ sourceAccessible ready 0 d = true ∧ d.dstMem = .scratch ∧
      Config.lsbSize < d.dst.toNat + d.length.toNat) := by decide +kernel

/-- V-PT9, V-PT10 and the largest code. -/
theorem witness_PassthruBitwiseOnlyLogs :
    ([0x00500180, 0x005000C0, 0x00500380].all fun w0 : Word =>
      w0.extractLsb' 20 4 == 5#4 && w0.extractLsb' 7 3 != 0#3) = true := by decide

/-- V-PT4, V-PT7, V-PT8. -/
theorem witness_PassthruUnsupportedSwapsOnlyLog :
    (desc 0x00500040 48).length.toNat % 32 ≠ 0 ∧ (desc 0x00500040 31).length.toNat % 32 ≠ 0 ∧
    ∀ d ∈ [desc 0x00500020 4, desc 0x00500060 4],
      d.engine = Config.engPassthru ∧ d.bitwise = Config.bitwiseNoop ∧ (d.byteswap = 1 ∨ d.byteswap = 3) := by decide

/-- V-ZL1's stream in both containers. -/
theorem witness_InflateStepGivesPlaintext :
    guest.read 0x2400 13 ≠ [] ∧ plaintextOf .zlib (guest.read 0x2400 13) = some [0x68, 0x65, 0x6c, 0x6c, 0x6f] ∧
    plaintextOf .raw [0xcb, 0x48, 0xcd, 0xc9, 0xc9, 0x07, 0x00] = some [0x68, 0x65, 0x6c, 0x6c, 0x6f] := by decide +kernel

/-- V-ZL1, V-ZL2, V-ZL3 and V-ZL10: grants of 4096, 3 and 0 bytes, and an empty source. -/
theorem witness_ZlibInflatesIntoGuestMemory :
    MemoriesWf ready ∧ ready.zctx = none ∧
    (let d := desc 0x00600018 13 0x2400 0x20000 0x3000 0x20000
     d.dstMem = .loc ∧ ∀ g ∈ [4096, 3, 0], sourceAccessible (granting [13, g]) 0 d = true ∧
      grantAt (granting [13, g]) (sourceRequests d) d.dst.toNat 4096 true = g) ∧
    (let d := desc 0x00600018 0 0 0x20000 0x3000 0x20000
     sourceAccessible (granting [4096]) 0 d = true ∧
      grantAt (granting [4096]) (sourceRequests d) d.dst.toNat 4096 true = 4096) := by
  refine ⟨ready_memoriesWf, rfl, ?_, ?_⟩ <;> decide +kernel

/-- V-ZL6 and V-ZL7. -/
theorem witness_ZlibScratchDestinationIsAllOrNothing :
    MemoriesWf ready ∧ ready.zctx = none ∧
    (let d := desc 0x00600018 13 0x2400 0x20000 0 0x10000
     sourceAccessible ready 0 d = true ∧ d.dstMem = .scratch ∧ d.dst = 0) ∧
    (let d := desc 0x00600018 13 0x2400 0x20000 1 0x10000
     sourceAccessible ready 0 d = true ∧ d.dstMem = .scratch ∧ d.dst ≠ 0) := by
  refine ⟨ready_memoriesWf, rfl, ?_, ?_⟩ <;> decide +kernel

/-- V-ZL8, V-ZL11 and the unnamed memory type. -/
theorem witness_ZlibFailureLeavesNoContext :
    sourceAccessible (granting [12]) 0 (desc 0x00600018 13 0x2400 0x20000 0x3000 0x20000) = false ∧
    sourceAccessible ready 0 (desc 0x00600018 13 0x2400 0x30000 0x3000 0) = false ∧
    (let d := desc 0x00600018 13 0x2400 0x20000 0x3000 0
     sourceAccessible ready 0 d = true ∧ d.dstMem = .system) ∧
    (let d := desc 0x00600018 13 0x2400 0x20000 0x3000 0x30000
     sourceAccessible ready 0 d = true ∧ d.dstMem = .unnamed) := by decide +kernel

/-- V-ZL4 and V-ZL5. -/
theorem witness_ZlibStreamingOnlyLogs :
    ([0x00600008, 0x00600010, 0x00600000].all fun w0 : Word =>
      w0.extractLsb' 20 4 == 6#4 && w0.extractLsb' 3 2 != 3#2) = true := by decide

/-- V-Q10 and V-Q12: halt set or not, and all reserved bits set. -/
theorem witness_ControlReadCompletesDrain :
    queuePhase ((running 0x1000 0x1020).queue 0).control = .running ∧
    queuePhase (((running 0x1000 0x1020).setControl 0 3).queue 0).control = .running ∧
    queuePhase (((running 0x1000 0x1020).setControl 0 0xFFFFFFFD).queue 0).control = .running := by decide +kernel

/-- V-Q11 and V-MM10: halted, and neither bit set. -/
theorem witness_ControlReadOfHaltedQueueHasNoEffect :
    runBit (((running 0x1000 0x1020).setControl 0 2).queue 0).control = false ∧
    runBit (((running 0x1000 0x1020).setControl 0 0xFFFFFFFC).queue 0).control = false := by decide +kernel

/-- V-Q1 as written by the host, and the largest tail. -/
theorem witness_LifecycleDrainsExactlyOne :
    runBit (1 : Word) = true ∧
    (let s := ready.setTail 0 0x1000
     (s.queue 0).tail.toNat + 32 < 2 ^ 32 ∧ grantAt s 0 (s.queue 0).tail.toNat 32 false = 32 ∧
      decode (.descriptor (s.gm.read (s.queue 0).tail.toNat 32)) = .ok (.aes zeroDesc)) ∧
    (let s := ready.setTail 0 0xFFFFFFDF
     (s.queue 0).tail.toNat + 32 < 2 ^ 32 ∧ grantAt s 0 (s.queue 0).tail.toNat 32 false = 32 ∧
      decode (.descriptor (s.gm.read (s.queue 0).tail.toNat 32)) = .ok (.aes zeroDesc)) := by decide +kernel

/-- V-Q2 and V-Q3. -/
theorem witness_EmptyDrainOnlyCompletes :
    ∀ s ∈ [running 0x1000 0x1000, running 0x1040 0x1000],
      runBit (s.queue 0).control = true ∧ (s.queue 0).head.toNat ≤ (s.queue 0).tail.toNat := by decide +kernel

/-- The fetch of the only descriptor is granted 0, 16 and 31 bytes; that of the first of two (V-Q8), 16, also with the head
one byte into the second. -/
theorem witness_UnreadableDescriptorIsSkipped :
    (∀ g ∈ [0, 16, 31],
      let s := { running 0x1000 0x1020 with mapAnswers := [g] }
      runBit (s.queue 0).control = true ∧ drainCount (s.queue 0).tail (s.queue 0).head = 1 ∧
      grantAt s 0 (s.queue 0).tail.toNat 32 false = g ∧ g < 32) ∧
    (let s := { running 0x1000 0x1040 with mapAnswers := [16, 32] }
     runBit (s.queue 0).control = true ∧ grantAt s 0 (s.queue 0).tail.toNat 32 false = 16 ∧
      (s.queue 0).tail.toNat + 32 < (s.queue 0).head.toNat) ∧
    (let s := { running 0x1000 0x1021 with mapAnswers := [16, 32] }
     runBit (s.queue 0).control = true ∧ grantAt s 0 (s.queue 0).tail.toNat 32 false = 16 ∧
      (s.queue 0).tail.toNat + 32 < (s.queue 0).head.toNat) := by decide +kernel

/-- V-Q3, V-Q4, V-Q6: no, two and three descriptors. -/
theorem witness_DrainCountCoversPendingWork :
    (0x1060 : Word).toNat = (0x1000 : Word).toNat + 32 * 3 ∧ drainCount 0x1000 0x1030 = 2 ∧ drainCount 0x1040 0x1000 = 0 ∧
      drainCount 0 0xFFFFFFFF = 2 ^ 27 := by decide

/-- V-Q13. -/
theorem witness_DrainIgnoresOtherQueues :
    (1 : QId) ≠ 0 ∧ ∃ t, exec (.ctrlRd 0) (running 0x1000 0x1020) = .next t := ⟨by decide, ⟨_, rfl⟩⟩

/-- V-MM4: widths 1, 2 and 8, an offset that is not aligned, a write, and the last byte of the window. -/
theorem witness_BadAccessOnlyLogs :
    ∀ a ∈ [Access.read 0x1000 1, .read 0x1000 2, .read 0x1000 8, .read 0x1002 4, .write 0x1004 [0xEF, 0xBE],
        .read 0x6FFF 1],
      { running 0x1000 0x1020 with host := [.access a] }.host = .access a :: [] ∧
      a.offset + a.size ≤ Config.windowSize ∧ (a.size ≠ 4 ∨ a.offset % 4 ≠ 0) := by decide +kernel

/-- The ready word lies at an offset of the region, whichever it is, and other words do not. -/
theorem witness_ConfigRegionIsConstant :
    (∃ o : BitVec 12, o.toNat = Config.cfgReadyOffset) ∧
      ∃ o : BitVec 12, wordAligned o = true ∧ o.toNat ≠ Config.cfgReadyOffset := by
  have hlt := Config.cfgReadyIndex.isLt
  refine ⟨⟨BitVec.ofNat 12 Config.cfgReadyOffset, ?_⟩, ?_⟩
  · simp only [BitVec.toNat_ofNat, Config.cfgReadyOffset]; omega
  · by_cases h : Config.cfgReadyOffset = 0
    · exact ⟨4, by decide, by rw [h]; decide⟩
    · exact ⟨0, by decide, fun e => h e.symm⟩

end Sys2Proof.Machine.Tests
end

/-! Which steps change the scratch store, the contexts and guest memory (00_scope.md R18): the decoder's answers to an
access, inverted; what an MMIO instruction leaves alone; and everything one step can do to the stores. -/
namespace Sys2Proof

/-! ### The instruction of an access -/

/-- Only the offset of register `r` of queue `q` is routed there (47_mmio.md R300). -/
theorem eq_queueRegOffset_of_route {o : Nat} {q : QId} {r : BitVec 12} (h : route o = .queue q r) :
    o = queueRegOffset q r := by
  unfold route at h
  split at h
  · cases h
  split at h
  · next hin =>
    split at h
    · obtain ⟨rfl, rfl⟩ := Route.queue.inj h
      simp only [Config.qBase, Config.nQueues, Config.qStride] at hin
      simp only [queueRegOffset, Config.qBase, Config.nQueues, Config.qStride, Fin.ofNat, BitVec.toNat_ofNat]
      omega
    · cases h
  split at h <;> cases h

/-- A conforming read is an MMIO row, and CTRL_RD only at the offset of a `control` register (47_mmio.md R305, R318). -/
theorem decodeRead_ok {o : Nat} {i : Instr} (h : decodeRead o = .ok i) :
    Machine.descriptorOf i = none ∧ ∀ q, i = .ctrlRd q → o = queueRegOffset q Config.regCtrl := by
  unfold decodeRead at h
  split at h
  · cases h; exact ⟨rfl, nofun⟩
  · next q r hr =>
    have ho := eq_queueRegOffset_of_route hr
    split at h
    · next hc => cases h; exact ⟨rfl, fun p hp => by cases hp; rw [ho, hc]⟩
    repeat' split at h
    all_goals cases h; exact ⟨rfl, nofun⟩
  · cases h; exact ⟨rfl, nofun⟩
  · cases h

/-- A conforming write is an MMIO row, and never CTRL_RD. -/
theorem decodeWrite_ok {o : Nat} {v : Word} {i : Instr} (h : decodeWrite o v = .ok i) :
    Machine.descriptorOf i = none ∧ ∀ q, i ≠ .ctrlRd q := by
  unfold decodeWrite at h
  repeat' split at h
  all_goals cases h
  all_goals exact ⟨rfl, nofun⟩

/-- An access is an MMIO row, and CTRL_RD only as the 4-byte read of a `control` register. -/
theorem decodeAccess_ok {a : Access} {i : Instr} (h : decodeAccess a = .ok i) :
    Machine.descriptorOf i = none ∧ ∀ q, i = .ctrlRd q → a = .read (queueRegOffset q Config.regCtrl) 4 := by
  unfold decodeAccess at h
  split at h
  · cases h
  split at h
  · cases h; exact ⟨rfl, nofun⟩
  next hconf =>
    cases a with
    | read o n =>
      obtain ⟨hrow, hctrl⟩ := decodeRead_ok h
      have hn : n = 4 := by
        simp only [conforming, Access.size, Access.offset, Bool.not_eq_true', Bool.not_eq_false, Bool.and_eq_true,
          beq_iff_eq] at hconf
        exact hconf.1
      exact ⟨hrow, fun q hq => by rw [hctrl q hq, hn]⟩
    | write o data =>
      obtain ⟨hrow, hctrl⟩ := decodeWrite_ok h
      exact ⟨hrow, fun q hq => absurd hq (hctrl q)⟩

end Sys2Proof

namespace Sys2Proof.Machine

/-! ### What leaves the stores alone -/

/-- The scratch store, guest memory and both contexts are unchanged (10_state.md sections 3 and 4, 20_memory.md R67). -/
structure SameStores (s t : State) : Prop where
  lsb : t.lsb = s.lsb
  gm : t.gm = s.gm
  hctx : t.hctx = s.hctx
  zctx : t.zctx = s.zctx

/-- A control read of a queue whose run bit is clear only answers (46_queue.md R281, 47_mmio.md R305). -/
theorem controlRead_halted {q : QId} {s : State} (h : runBit (s.queue q).control = false) :
    controlRead q s = s.respond (s.queue q).control := by
  simp [controlRead, h]

theorem unknownAccess_sameStores (o : Nat) (v : Option Word) (s : State) : SameStores s (unknownAccess o v s) := by
  cases v <;> exact ⟨rfl, rfl, rfl, rfl⟩

/-- An MMIO row changes a store only as a control read that drains (47_mmio.md R319). -/
theorem exec_mmio_sameStores {i : Instr} {s t : State} (hrow : descriptorOf i = none)
    (hhalt : ∀ q, i = .ctrlRd q → runBit (s.queue q).control = false) (h : exec i s = .next t) : SameStores s t := by
  cases i with
  | ctrlRd q =>
    obtain rfl : controlRead q s = t := Host.Outcome.next.inj h
    rw [controlRead_halted (hhalt q rfl)]
    exact ⟨rfl, rfl, rfl, rfl⟩
  | queueUnknownReg q r v =>
    obtain rfl := Host.Outcome.next.inj h
    exact unknownAccess_sameStores _ v s
  | mmioBadAccess _ _ _ | globalRd _ | globalWr _ _ | ctrlWr _ _ | tailRd _ | tailWr _ _ | headRd _ | headWr _ _
  | statusRd _ | statusWr _ _ | cfgRd _ | cfgWr _ _ =>
    obtain rfl := Host.Outcome.next.inj h
    exact ⟨rfl, rfl, rfl, rfl⟩
  | _ => cases hrow

/-- An access changes a store only as the read of the `control` of a queue whose run bit is set. -/
theorem serveAccess_cases {a : Access} {s t : State} (h : serveAccess a s = .next t) :
    SameStores s t ∨
      ∃ q, a = .read (queueRegOffset q Config.regCtrl) 4 ∧ runBit (s.queue q).control = true := by
  unfold serveAccess at h
  split at h
  · next i hi =>
    obtain ⟨hrow, hctrl⟩ := decodeAccess_ok hi
    by_cases hdrain : ∃ q, i = .ctrlRd q ∧ runBit (s.queue q).control = true
    · obtain ⟨q, hq, hrun⟩ := hdrain
      exact .inr ⟨q, hctrl q hq, hrun⟩
    · exact .inl (exec_mmio_sameStores hrow
        (fun q hq => Bool.eq_false_iff.mpr fun hrun => hdrain ⟨q, hq, hrun⟩) h)
  · cases h
  · cases h; exact .inl (unknownAccess_sameStores _ _ s)
  · cases h; exact .inl ⟨rfl, rfl, rfl, rfl⟩

/-! ### What a step can do to the stores -/

/-- The step on a store of the platform (00_scope.md R18; log entry 4). -/
theorem step_guestStore {s : State} {a : BitVec 48} {v : Byte} {rest : List HostEvent}
    (h : s.host = .guestStore a v :: rest) :
    step s = .next { s with host := rest, gm := s.gm.set a.toNat v } := by
  simp only [step, stepOnce, h, serveEvent]

/-- Everything a step can do to the stores: nothing, a drain, a device reset, which keeps guest memory
(70_reset_and_hazards.md R382), or a store of the platform, which keeps the block's own. -/
theorem step_stores_cases {s t : State} (h : step s = .next t) :
    SameStores s t ∨ NextEventDrains s ∨ (s.host.head? = some .reset ∧ t.gm = s.gm) ∨
      ∃ a v rest, s.host = .guestStore a v :: rest ∧ t = { s with host := rest, gm := s.gm.set a.toNat v } := by
  cases hhost : s.host with
  | nil =>
    simp only [step, stepOnce, hhost] at h
    cases h
    exact .inl ⟨rfl, rfl, rfl, rfl⟩
  | cons e rest =>
    cases e with
    | access a =>
      simp only [step, stepOnce, hhost, serveEvent] at h
      rcases serveAccess_cases h with ⟨hlsb, hgm, hhctx, hzctx⟩ | ⟨q, rfl, hrun⟩
      · exact .inl ⟨hlsb, hgm, hhctx, hzctx⟩
      · exact .inr (.inl ⟨q, by rw [hhost]; rfl, hrun⟩)
    | reset =>
      simp only [step, stepOnce, hhost, serveEvent] at h
      cases h
      exact .inr (.inr (.inl ⟨rfl, rfl⟩))
    | guestStore a v =>
      rw [step_guestStore hhost] at h
      cases h
      exact .inr (.inr (.inr ⟨a, v, rest, rfl, rfl⟩))

/-- Settles O19: the four things a step can do to the stores, and for the platform's store the laws of `Mem.set`. -/
theorem storeChangesOnlyInDrains : Obligations.StoreChangesOnlyInDrains := by
  unfold Obligations.StoreChangesOnlyInDrains
  refine ⟨fun s t h => ?_, fun s a v rest hhost =>
    ⟨_, step_guestStore hhost, rfl, Mem.get_set_same, fun _ => Mem.get_set_ne⟩⟩
  rcases step_stores_cases h with ⟨hlsb, hgm, hhctx, hzctx⟩ | hdrain | ⟨hreset, hgm⟩ | ⟨a, v, rest, hhost, rfl⟩
  · exact ⟨fun hne => by simp [hlsb, hhctx, hzctx] at hne, fun hne => absurd hgm hne⟩
  · exact ⟨fun _ => .inr hdrain, fun _ => .inl hdrain⟩
  · exact ⟨fun _ => .inl hreset, fun hne => absurd hgm hne⟩
  · exact ⟨fun hne => by simp at hne,
      fun _ => .inr ⟨a, v, by rw [hhost]; rfl, fun _ => Mem.get_set_ne⟩⟩

end Sys2Proof.Machine

/-! The diagnostic log is written and never read (10_state.md R37): an earlier log in front of the log passes through
every operation, and so through every event but a device reset, which alone empties it (R41). -/
namespace Sys2Proof.Machine

/-! ### An earlier log in front of the log -/

/-- The state with the entries `l` logged before its own. -/
def State.withEarlierLog (s : State) (l : List DiagEntry) : State := { s with diag := l ++ s.diag }

/-- An outcome with its next state mapped; faults and refusals stay. -/
def mapNext (f : State → State) : Host.Outcome State Fault Refusal → Host.Outcome State Fault Refusal
  | .next s => .next (f s)
  | .fault r => .fault r
  | .refused r => .refused r

@[simp] theorem State.withEarlierLog_queue (s : State) (l : List DiagEntry) (q : QId) :
    (s.withEarlierLog l).queue q = s.queue q := rfl

/-- A state with any log is the one with the empty log, with that log put in front. -/
theorem State.with_diag_eq (s : State) (l : List DiagEntry) :
    { s with diag := l } = State.withEarlierLog { s with diag := [] } l := by
  simp [State.withEarlierLog]

/-- A diagnostic goes to the end of the log, under a label the log has no part in (60_exceptions.md R341). -/
theorem diagnose_withEarlierLog (s : State) (l : List DiagEntry) (e : DiagEvent) :
    (s.withEarlierLog l).diagnose e = (s.diagnose e).withEarlierLog l := by
  simp [State.withEarlierLog, State.diagnose, State.diagQueue]

theorem respondZero_withEarlierLog (v : Option Word) (s : State) (l : List DiagEntry) :
    respondZero v (s.withEarlierLog l) = (respondZero v s).withEarlierLog l := by
  cases v <;> rfl

/-! ### Descriptors and drains -/

/-- The log belongs to the frame: an earlier log of the frame is an earlier log of the state in it. -/
theorem reframe_withEarlierLog (f s : State) (l : List DiagEntry) :
    reframe (f.withEarlierLog l) s = (reframe f s).withEarlierLog l := by
  simp [reframe, State.withEarlierLog, State.diagQueue]

/-- A state with an earlier log is its bare state in a frame with that earlier log. -/
theorem withEarlierLog_eq_reframe (s : State) (l : List DiagEntry) :
    s.withEarlierLog l = reframe (s.withEarlierLog l) (bare s) := by
  rw [reframe_withEarlierLog, reframe_bare]

/-- An operation that stays inside its frame does not read the log. -/
theorem Framed.withEarlierLog {α : Type} {op : State → α × State} (h : Framed op) (s : State) (l : List DiagEntry) :
    op (s.withEarlierLog l) = ((op s).1, (op s).2.withEarlierLog l) := by
  have hs : op s = ((op (bare s)).1, reframe s (op (bare s)).2) := by rw [← h, reframe_bare]
  rw [withEarlierLog_eq_reframe, h, hs, reframe_withEarlierLog]

theorem fetchLoop_withEarlierLog (n a : Nat) (s : State) (l : List DiagEntry) :
    fetchLoop n a (s.withEarlierLog l) = (fetchLoop n a s).withEarlierLog l := by
  have hs : fetchLoop n a s = reframe s (fetchLoop n a (bare s)) := by rw [← fetchLoop_reframe, reframe_bare]
  rw [withEarlierLog_eq_reframe, fetchLoop_reframe, hs, reframe_withEarlierLog]

/-- A drain is its fetches and executions, then an update of its queue and of the mark (46_queue.md R292). -/
theorem drain_withEarlierLog (q : QId) (s : State) (l : List DiagEntry) :
    drain q (s.withEarlierLog l) = (drain q s).withEarlierLog l := by
  have hloop (n a : Nat) := fetchLoop_withEarlierLog n a { s with draining := some q } l
  simp only [State.withEarlierLog] at hloop
  simp only [drain_eq, State.withEarlierLog, State.queue_with_diag, hloop]
  rfl

theorem controlRead_withEarlierLog (q : QId) (s : State) (l : List DiagEntry) :
    controlRead q (s.withEarlierLog l) = (controlRead q s).withEarlierLog l := by
  cases hrun : runBit (s.queue q).control with
  | true =>
    rw [controlRead_running hrun, controlRead_running (s := s.withEarlierLog l) hrun, drain_withEarlierLog]
    rfl
  | false =>
    rw [controlRead_halted hrun, controlRead_halted (s := s.withEarlierLog l) hrun]
    rfl

/-! ### MMIO accesses -/

theorem badAccess_withEarlierLog (isWrite : Bool) (o n : Nat) (s : State) (l : List DiagEntry) :
    badAccess isWrite o n (s.withEarlierLog l) = (badAccess isWrite o n s).withEarlierLog l := by
  unfold badAccess
  rw [diagnose_withEarlierLog]
  rfl

theorem globalAccess_withEarlierLog (o : Nat) (v : Option Word) (s : State) (l : List DiagEntry) :
    globalAccess o v (s.withEarlierLog l) = (globalAccess o v s).withEarlierLog l := by
  unfold globalAccess
  rw [diagnose_withEarlierLog, respondZero_withEarlierLog]

theorem unknownAccess_withEarlierLog (o : Nat) (v : Option Word) (s : State) (l : List DiagEntry) :
    unknownAccess o v (s.withEarlierLog l) = (unknownAccess o v s).withEarlierLog l := by
  unfold unknownAccess
  rw [diagnose_withEarlierLog, respondZero_withEarlierLog]

/-! ### Instructions, events and steps -/

/-- No instruction reads the log. -/
theorem exec_withEarlierLog (i : Instr) (s : State) (l : List DiagEntry) :
    exec i (s.withEarlierLog l) = mapNext (·.withEarlierLog l) (exec i s) := by
  cases hrow : descriptorOf i with
  | some d =>
    rw [exec_descriptor hrow, exec_descriptor hrow, (dispatch_framed i).withEarlierLog]
    rfl
  | none =>
    cases i with
    | mmioBadAccess w o n => exact congrArg Host.Outcome.next (badAccess_withEarlierLog w o n s l)
    | globalRd o => exact congrArg Host.Outcome.next (globalAccess_withEarlierLog _ none s l)
    | globalWr o v => exact congrArg Host.Outcome.next (globalAccess_withEarlierLog _ (some v) s l)
    | ctrlRd q => exact congrArg Host.Outcome.next (controlRead_withEarlierLog q s l)
    | queueUnknownReg q r v => exact congrArg Host.Outcome.next (unknownAccess_withEarlierLog _ v s l)
    | ctrlWr _ _ | tailRd _ | tailWr _ _ | headRd _ | headWr _ _ | statusRd _ | statusWr _ _ | cfgRd _
    | cfgWr _ _ => rfl
    | _ => cases hrow

theorem serveAccess_withEarlierLog (a : Access) (s : State) (l : List DiagEntry) :
    serveAccess a (s.withEarlierLog l) = mapNext (·.withEarlierLog l) (serveAccess a s) := by
  unfold serveAccess
  split
  · exact exec_withEarlierLog _ s l
  · rfl
  · exact congrArg Host.Outcome.next (unknownAccess_withEarlierLog _ _ s l)
  · rfl

/-- The step with no coming event (00_scope.md R18; log entry 4). -/
theorem step_idle {s : State} (h : s.host = []) : step s = .next s := by
  simp only [step, stepOnce, h]

/-- The step on a device reset (70_reset_and_hazards.md R380). -/
theorem step_reset {s : State} {rest : List HostEvent} (h : s.host = .reset :: rest) :
    step s = .next (deviceReset { s with host := rest }) := by
  simp only [step, stepOnce, h, serveEvent]

/-- The step on an access (00_scope.md R18). -/
theorem step_access {s : State} {a : Access} {rest : List HostEvent} (h : s.host = .access a :: rest) :
    step s = serveAccess a { s with host := rest } := by
  simp only [step, stepOnce, h, serveEvent]

/-- A step without a device reset does not read the log. -/
theorem step_withEarlierLog {s : State} (l : List DiagEntry) (h : s.host.head? ≠ some .reset) :
    step (s.withEarlierLog l) = mapNext (·.withEarlierLog l) (step s) := by
  cases hhost : s.host with
  | nil => rw [step_idle hhost, step_idle (s := s.withEarlierLog l) hhost]; rfl
  | cons e rest =>
    cases e with
    | access a =>
      rw [step_access hhost, step_access (s := s.withEarlierLog l) hhost]
      exact serveAccess_withEarlierLog a { s with host := rest } l
    | reset => simp [hhost] at h
    | guestStore a v => rw [step_guestStore hhost, step_guestStore (s := s.withEarlierLog l) hhost]; rfl

/-- Such a step from any log is the step from the empty log, with that log put in front. -/
theorem step_with_diag {s : State} (l : List DiagEntry) (h : s.host.head? ≠ some .reset) :
    step { s with diag := l } = mapNext (·.withEarlierLog l) (step { s with diag := [] }) := by
  rw [State.with_diag_eq]
  exact step_withEarlierLog (s := { s with diag := [] }) l h

/-! ### The obligations -/

/-- Every queue after a device reset (10_state.md R41). -/
theorem deviceReset_queue (s : State) (q : QId) : (deviceReset s).queue q = Queue.reset q.val :=
  Vector.getElem_ofFn q.isLt

/-- Settles O9: the two steps, and the reset content of each queue. -/
theorem deviceResetLeavesResetValues : Obligations.DeviceResetLeavesResetValues := by
  unfold Obligations.DeviceResetLeavesResetValues
  exact ⟨fun s rest h => ⟨_, step_reset h, deviceReset_queue _, rfl, rfl, rfl, rfl, rfl, rfl⟩,
    fun s => step_idle⟩

/-- Settles O16: a reset leaves the same state whatever the log was; any other step appends what it appends to an empty
log. -/
theorem diagnosticLogIsNeverRead : Obligations.DiagnosticLogIsNeverRead := by
  unfold Obligations.DiagnosticLogIsNeverRead
  intro s l l' t h
  by_cases hreset : s.host.head? = some .reset
  · obtain ⟨rest, hhost⟩ := List.head?_eq_some_iff.mp hreset
    rw [step_reset (s := { s with diag := l }) hhost] at h
    cases h
    exact ⟨_, step_reset (s := { s with diag := l' }) hhost, rfl, .inr ⟨hreset, rfl, rfl⟩⟩
  · rw [step_with_diag l hreset] at h
    rw [step_with_diag l' hreset]
    cases hstep : step { s with diag := [] } with
    | next u =>
      rw [hstep] at h
      cases h
      exact ⟨_, rfl, rfl, .inl ⟨u.diag, rfl, rfl⟩⟩
    | fault r => rw [hstep] at h; cases h
    | refused r => rw [hstep] at h; cases h

end Sys2Proof.Machine

/-! The row of a descriptor and its execution depend on the fields its engine uses alone (30_encoding.md R115): each
engine reads the descriptor through its source range, its destination and its own operands. -/
namespace Sys2Proof.Machine

/-! ### The row of a descriptor -/

/-- The engine codes of 30_encoding.md R108: eight are named, and the codes with bit 3 set name no engine. -/
theorem engine_cases (e : BitVec 4) :
    e = Config.engAes ∨ e = Config.engXts ∨ e = Config.engDes3 ∨ e = Config.engSha ∨ e = Config.engRsa ∨
      e = Config.engPassthru ∨ e = Config.engZlib ∨ e = Config.engEcc ∨ e.getLsbD 3 = true := by
  revert e; decide

/-- The decoder's row carries the descriptor it was given (30_encoding.md R119). -/
theorem descriptorOf_classify (d : Desc) : descriptorOf (classify d) = some d := by
  unfold classify
  split_ifs <;> rfl

/-- A decoded descriptor never traps (30_encoding.md R114, 60_exceptions.md R340). -/
theorem exec_classify (d : Desc) (s : State) : exec (classify d) s = .next (executeDesc d s) :=
  exec_descriptor (descriptorOf_classify d) s

/-! ### What each engine reads of its descriptor -/

section
variable {d d' : Desc}

theorem SameSource.length_eq (h : SameSource d d') : d.length = d'.length := by
  obtain ⟨-, -, hlen⟩ := h
  exact hlen

theorem hashFinish_congr (heom : d.eom = d'.eom) (hslot : d.ctxId = d'.ctxId) (ctx : HashCtx) (s : State) :
    hashFinish d ctx s = hashFinish d' ctx s := by
  simp only [hashFinish, heom, hslot]

/-- SHA reads its source, its slot and `eom`: whatever `init` is, a live context is continued (42_hash.md R202). -/
theorem shaEngine_congr (heom : d.eom = d'.eom) (hslot : d.ctxId = d'.ctxId) (hsource : SameSource d d')
    (t : HashType) (s : State) : shaEngine t d s = shaEngine t d' s := by
  obtain ⟨hsrc, hmem, hlen⟩ := hsource
  simp only [shaEngine, hsrc, hmem, hlen, hashFinish_congr heom hslot]

theorem rsaFinish_congr (hdest : SameDestination d d') (size : Nat) (e n m : Bytes) (s : State) :
    rsaFinish d size e n m s = rsaFinish d' size e n m s := by
  obtain ⟨hdst, hdstMem⟩ := hdest
  simp only [rsaFinish, hdst, hdstMem]

/-- RSA reads its key, its source and its destination (43_rsa.md R220, R222). -/
theorem rsaEngine_congr (hkey : d.key = d'.key) (hkeyMem : d.keyMem = d'.keyMem) (hsource : SameSource d d')
    (hdest : SameDestination d d') (size : Nat) (s : State) : rsaEngine size d s = rsaEngine size d' s := by
  obtain ⟨hsrc, hmem, -⟩ := hsource
  simp only [rsaEngine, hkey, hkeyMem, hsrc, hmem, rsaFinish_congr hdest]

/-- PASSTHRU reads its source and its destination (44_passthru.md R240 to R242). -/
theorem ptTransfer_congr (hsource : SameSource d d') (hdest : SameDestination d d') (f : Bytes → Bytes) (s : State) :
    ptTransfer f d s = ptTransfer f d' s := by
  obtain ⟨hsrc, hmem, hlen⟩ := hsource
  obtain ⟨hdst, hdstMem⟩ := hdest
  simp only [ptTransfer, hsrc, hmem, hlen, hdst, hdstMem]

theorem ptSwap256With_congr (hsource : SameSource d d') (hdest : SameDestination d d') (whole : Bool) (s : State) :
    ptSwap256With whole d s = ptSwap256With whole d' s := by
  simp only [ptSwap256With, hsource.length_eq, ptTransfer_congr hsource hdest]

/-- ZLIB_DECOMPRESS reads its source and its destination (45_zlib.md R260, R262). -/
theorem zlibInflateEffect_congr (hsource : SameSource d d') (hdest : SameDestination d d') (s : State) :
    zlibInflateEffect d s = zlibInflateEffect d' s := by
  obtain ⟨hsrc, hmem, hlen⟩ := hsource
  obtain ⟨hdst, hdstMem⟩ := hdest
  simp only [zlibInflateEffect, hsrc, hmem, hlen, hdst, hdstMem]

/-! ### Execution, by engine -/

/-- SHA: the row by the hash type, which the diagnostic of an unsupported one records (42_hash.md R201, R208). -/
theorem executeDesc_sha_congr (he : d.engine = Config.engSha) (he' : d'.engine = Config.engSha)
    (htype : d.shaType = d'.shaType) (heom : d.eom = d'.eom) (hslot : d.ctxId = d'.ctxId)
    (hsource : SameSource d d') (s : State) : executeDesc d s = executeDesc d' s := by
  unfold executeDesc
  rw [classify_sha d he, classify_sha d' he', htype]
  split_ifs
  · exact congrArg Prod.snd (shaEngine_congr heom hslot hsource .sha256 s)
  · exact congrArg Prod.snd (shaEngine_congr heom hslot hsource .sha384 s)
  · simp only [dispatch, shaUnsupportedEffect, htype]

/-- RSA: the row by mode, size and length (30_encoding.md R119, 43_rsa.md R227). -/
theorem executeDesc_rsa_congr (he : d.engine = Config.engRsa) (he' : d'.engine = Config.engRsa)
    (hmode : d.rsaMode = d'.rsaMode) (hsize : d.rsaSize = d'.rsaSize) (hkey : d.key = d'.key)
    (hkeyMem : d.keyMem = d'.keyMem) (hsource : SameSource d d') (hdest : SameDestination d d') (s : State) :
    executeDesc d s = executeDesc d' s := by
  have h2048 : d.isRsa2048 = d'.isRsa2048 := by simp only [Desc.isRsa2048, hmode, hsize, hsource.length_eq]
  have h4096 : d.isRsa4096 = d'.isRsa4096 := by simp only [Desc.isRsa4096, hmode, hsize, hsource.length_eq]
  unfold executeDesc
  rw [classify_rsa d he, classify_rsa d' he', h2048, h4096]
  split_ifs
  · exact congrArg Prod.snd (rsaEngine_congr hkey hkeyMem hsource hdest 256 s)
  · exact congrArg Prod.snd (rsaEngine_congr hkey hkeyMem hsource hdest 512 s)
  · rfl

/-- PASSTHRU: the row by the bitwise code, then by the byteswap code (44_passthru.md R243 to R246). -/
theorem executeDesc_passthru_congr (he : d.engine = Config.engPassthru) (he' : d'.engine = Config.engPassthru)
    (hbitwise : d.bitwise = d'.bitwise) (hswap : d.byteswap = d'.byteswap) (hsource : SameSource d d')
    (hdest : SameDestination d d') (s : State) : executeDesc d s = executeDesc d' s := by
  unfold executeDesc
  rw [classify_passthru d he, classify_passthru d' he', hbitwise, hswap]
  split_ifs
  · simp only [dispatch, ptBitwiseUnimplEffect, hbitwise]
  · exact congrArg Prod.snd (ptTransfer_congr hsource hdest id s)
  · exact congrArg Prod.snd (ptSwap256With_congr hsource hdest Config.ptSwap256Whole s)
  · simp only [dispatch, ptSwapUnimplEffect, hswap]

/-- ZLIB_DECOMPRESS: the row by `init` and `eom` (45_zlib.md R264). -/
theorem executeDesc_zlib_congr (he : d.engine = Config.engZlib) (he' : d'.engine = Config.engZlib)
    (hinit : d.init = d'.init) (heom : d.eom = d'.eom) (hsource : SameSource d d') (hdest : SameDestination d d')
    (s : State) : executeDesc d s = executeDesc d' s := by
  unfold executeDesc
  rw [classify_zlib d he, classify_zlib d' he', hinit, heom]
  split_ifs
  · exact congrArg Prod.snd (zlibInflateEffect_congr hsource hdest s)
  · simp only [dispatch, zlibUnimplEffect, hinit, heom]

/-- Descriptors of one engine that agree on its operands are executed alike; the engines that are not implemented read
nothing, and the codes that name no engine only themselves (41_decode_dispatch.md R186 to R193). -/
theorem executeDesc_congr (h : SameOperands d d') (s : State) : executeDesc d s = executeDesc d' s := by
  obtain ⟨heng, hsha, hrsa, hpt, hzlib⟩ := h
  rcases engine_cases d.engine with he | he | he | he | he | he | he | he | he <;> have he' := heng ▸ he
  · unfold executeDesc; rw [classify_aes d he, classify_aes d' he']; rfl
  · unfold executeDesc; rw [classify_xts d he, classify_xts d' he']; rfl
  · unfold executeDesc; rw [classify_des3 d he, classify_des3 d' he']; rfl
  · obtain ⟨htype, heom, hslot, hsource⟩ := hsha he
    exact executeDesc_sha_congr he he' htype heom hslot hsource s
  · obtain ⟨hmode, hsize, hkey, hkeyMem, hsource, hdest⟩ := hrsa he
    exact executeDesc_rsa_congr he he' hmode hsize hkey hkeyMem hsource hdest s
  · obtain ⟨hbitwise, hswap, hsource, hdest⟩ := hpt he
    exact executeDesc_passthru_congr he he' hbitwise hswap hsource hdest s
  · obtain ⟨hinit, heom, hsource, hdest⟩ := hzlib he
    exact executeDesc_zlib_congr he he' hinit heom hsource hdest s
  · unfold executeDesc; rw [classify_ecc d he, classify_ecc d' he']; rfl
  · unfold executeDesc
    rw [classify_unknown d he, classify_unknown d' he']
    simp only [dispatch, unknownEngineEffect, heng]

end

/-- Settles O5: execution is `executeDesc`, which reads the operands of the engine alone. -/
theorem unusedFieldsHaveNoEffect : Obligations.UnusedFieldsHaveNoEffect := by
  unfold Obligations.UnusedFieldsHaveNoEffect
  intro d d' s h
  rw [exec_classify, exec_classify, executeDesc_congr h]

end Sys2Proof.Machine

/-! Words that agree under a mask agree in every field the mask covers; so reserved bits, and the bits of `function` an
engine ignores, are in none of the operands it uses (30_encoding.md R106, R107, R114). -/
namespace Sys2Proof.Machine

/-! ### Fields under a mask -/

/-- A field that the mask covers. -/
theorem extractLsb'_eq_of_and_eq {w start len : Nat} {x y m : BitVec w} (h : x &&& m = y &&& m)
    (hm : m.extractLsb' start len = BitVec.allOnes len) : x.extractLsb' start len = y.extractLsb' start len := by
  have hfield := congrArg (BitVec.extractLsb' start len) h
  simpa [BitVec.extractLsb'_and, hm] using hfield

/-- A bit that the mask covers. -/
theorem getLsbD_eq_of_and_eq {w k : Nat} {x y m : BitVec w} (h : x &&& m = y &&& m) (hm : m.getLsbD k = true) :
    x.getLsbD k = y.getLsbD k := by
  have hbit := congrArg (BitVec.getLsbD · k) h
  simpa [hm] using hbit

/-- A field of a field. -/
theorem extractLsb'_extractLsb' {w s n i k : Nat} (x : BitVec w) (h : i + k ≤ n) :
    (x.extractLsb' s n).extractLsb' i k = x.extractLsb' (s + i) k := by
  apply BitVec.eq_of_getLsbD_eq
  intro j hj
  simp [hj, show i + j < n by omega, Nat.add_assoc]

/-! ### The fields of decoded words -/

section
variable (w0 w1 w2 w3 w4 w5 w6 w7 : Word)

theorem descOfWords_engine : (descOfWords w0 w1 w2 w3 w4 w5 w6 w7).engine = w0.extractLsb' 20 4 := rfl

theorem descOfWords_shaType : (descOfWords w0 w1 w2 w3 w4 w5 w6 w7).shaType = w0.extractLsb' 15 4 :=
  extractLsb'_extractLsb' w0 (by decide)

theorem descOfWords_rsaMode : (descOfWords w0 w1 w2 w3 w4 w5 w6 w7).rsaMode = w0.extractLsb' 5 3 :=
  extractLsb'_extractLsb' w0 (by decide)

theorem descOfWords_rsaSize : (descOfWords w0 w1 w2 w3 w4 w5 w6 w7).rsaSize = w0.extractLsb' 8 12 :=
  extractLsb'_extractLsb' w0 (by decide)

theorem descOfWords_byteswap : (descOfWords w0 w1 w2 w3 w4 w5 w6 w7).byteswap = w0.extractLsb' 5 2 :=
  extractLsb'_extractLsb' w0 (by decide)

theorem descOfWords_bitwise : (descOfWords w0 w1 w2 w3 w4 w5 w6 w7).bitwise = w0.extractLsb' 7 3 :=
  extractLsb'_extractLsb' w0 (by decide)

end

/-! ### What the mask of W0 covers -/

/-- Every engine uses its own code. -/
theorem usedW0_engine (e : BitVec 4) : (usedW0 e).extractLsb' 20 4 = BitVec.allOnes 4 := by
  revert e; decide

/-- Every engine's mask keeps `init`. -/
theorem usedW0_init (e : BitVec 4) : (usedW0 e).getLsbD 3 = true := by
  revert e; decide

/-- Every engine's mask keeps `eom`. -/
theorem usedW0_eom (e : BitVec 4) : (usedW0 e).getLsbD 4 = true := by
  revert e; decide

/-! ### Words that differ in reserved and ignored bits only -/

section
variable {w3 v3 w5 v5 w7 v7 : Word}

/-- The source's fields lie outside the reserved bits of W3 (30_encoding.md R103). -/
theorem sameSource_descOfWords (h3 : w3 &&& 0x83FFFFFF = v3 &&& 0x83FFFFFF)
    (w0 v0 w1 w2 w4 w6 : Word) :
    SameSource (descOfWords w0 w1 w2 w3 w4 w5 w6 w7) (descOfWords v0 w1 w2 v3 w4 v5 w6 v7) := by
  have hhi : w3.extractLsb' 0 16 = v3.extractLsb' 0 16 := extractLsb'_eq_of_and_eq h3 (by decide)
  have hmem : w3.extractLsb' 16 2 = v3.extractLsb' 16 2 := extractLsb'_eq_of_and_eq h3 (by decide)
  exact ⟨congrArg (· ++ w2) hhi, congrArg memTypeOfCode hmem, rfl⟩

/-- The destination's fields lie outside the bits 30:18 of W5 (30_encoding.md R104). -/
theorem sameDestination_descOfWords (h5 : w5 &&& 0x8003FFFF = v5 &&& 0x8003FFFF)
    (w0 v0 w1 w2 w4 w6 : Word) :
    SameDestination (descOfWords w0 w1 w2 w3 w4 w5 w6 w7) (descOfWords v0 w1 w2 v3 w4 v5 w6 v7) := by
  have hhi : w5.extractLsb' 0 16 = v5.extractLsb' 0 16 := extractLsb'_eq_of_and_eq h5 (by decide)
  have hmem : w5.extractLsb' 16 2 = v5.extractLsb' 16 2 := extractLsb'_eq_of_and_eq h5 (by decide)
  exact ⟨congrArg (· ++ w4) hhi, congrArg memTypeOfCode hmem⟩

/-- Words that differ in reserved bits and in ignored bits of `function` alone have the same operands. -/
theorem sameOperands_descOfWords {w0 v0 : Word}
    (h0 : w0 &&& usedW0 (w0.extractLsb' 20 4) = v0 &&& usedW0 (w0.extractLsb' 20 4))
    (h3 : w3 &&& 0x83FFFFFF = v3 &&& 0x83FFFFFF) (h5 : w5 &&& 0x8003FFFF = v5 &&& 0x8003FFFF)
    (h7 : w7 &&& 0x0003FFFF = v7 &&& 0x0003FFFF) (w1 w2 w4 w6 : Word) :
    SameOperands (descOfWords w0 w1 w2 w3 w4 w5 w6 w7) (descOfWords v0 w1 w2 v3 w4 v5 w6 v7) := by
  have heom : w0.getLsbD 4 = v0.getLsbD 4 := getLsbD_eq_of_and_eq h0 (usedW0_eom _)
  have hsource := sameSource_descOfWords (w5 := w5) (v5 := v5) (w7 := w7) (v7 := v7) h3 w0 v0 w1 w2 w4 w6
  have hdest := sameDestination_descOfWords (w3 := w3) (v3 := v3) (w7 := w7) (v7 := v7) h5 w0 v0 w1 w2 w4 w6
  refine ⟨extractLsb'_eq_of_and_eq h0 (usedW0_engine _), fun hsha => ?_, fun hrsa => ?_, fun hpt => ?_, fun _ => ?_⟩
  · rw [descOfWords_engine] at hsha
    rw [hsha] at h0
    have hslot : w3.extractLsb' 18 8 = v3.extractLsb' 18 8 := extractLsb'_eq_of_and_eq h3 (by decide)
    refine ⟨?_, heom, hslot, hsource⟩
    rw [descOfWords_shaType, descOfWords_shaType]
    exact extractLsb'_eq_of_and_eq h0 (by decide)
  · rw [descOfWords_engine] at hrsa
    rw [hrsa] at h0
    have hkeyHi : w7.extractLsb' 0 16 = v7.extractLsb' 0 16 := extractLsb'_eq_of_and_eq h7 (by decide)
    have hkeyMem : w7.extractLsb' 16 2 = v7.extractLsb' 16 2 := extractLsb'_eq_of_and_eq h7 (by decide)
    refine ⟨?_, ?_, congrArg (· ++ w6) hkeyHi, congrArg memTypeOfCode hkeyMem, hsource, hdest⟩
    · rw [descOfWords_rsaMode, descOfWords_rsaMode]
      exact extractLsb'_eq_of_and_eq h0 (by decide)
    · rw [descOfWords_rsaSize, descOfWords_rsaSize]
      exact extractLsb'_eq_of_and_eq h0 (by decide)
  · rw [descOfWords_engine] at hpt
    rw [hpt] at h0
    refine ⟨?_, ?_, hsource, hdest⟩
    · rw [descOfWords_bitwise, descOfWords_bitwise]
      exact extractLsb'_eq_of_and_eq h0 (by decide)
    · rw [descOfWords_byteswap, descOfWords_byteswap]
      exact extractLsb'_eq_of_and_eq h0 (by decide)
  · exact ⟨getLsbD_eq_of_and_eq h0 (usedW0_init _), heom, hsource, hdest⟩

end

/-- Settles O4: the two descriptors have the same operands, and execution answers a next state for any descriptor. -/
theorem reservedBitsChangeNothing : Obligations.ReservedBitsChangeNothing := by
  unfold Obligations.ReservedBitsChangeNothing
  intro w0 v0 w1 w2 w3 v3 w4 w5 v5 w6 w7 v7 s h0 h3 h5 h7
  have hoperands := sameOperands_descOfWords h0 h3 h5 h7 w1 w2 w4 w6
  rw [exec_classify, exec_classify, executeDesc_congr hoperands]
  exact ⟨rfl, _, rfl⟩

end Sys2Proof.Machine

/-! Descriptors and their words, in both directions: the words of a descriptor decode to it, and words whose reserved bits
are zero come back from what they decode to (30_encoding.md R118, R121). -/
namespace Sys2Proof

/-! ### The words of a descriptor decode to it -/

/-- The words of a descriptor: three are made of fields, five are fields. -/
theorem descWords_eq (d : Desc) :
    descWords d = [(descWords d)[0]'(by simp [descWords]), d.length, d.srcLo, (descWords d)[3]'(by simp [descWords]),
      d.w4, d.w5, d.keyLo, (descWords d)[7]'(by simp [descWords])] := rfl

/-- A field of a word, bit by bit. -/
theorem extractLsb'_eq_of_bits {w s n : Nat} {x : BitVec w} {f : BitVec n}
    (h : ∀ k < n, x.getLsbD (s + k) = f.getLsbD k) : x.extractLsb' s n = f := by
  apply BitVec.eq_of_getLsbD_eq
  intro k hk
  simp [hk, h k hk]

/-- The fields of W0 (30_encoding.md R101). -/
theorem word0_fields (d : Desc) :
    ((descWords d)[0]'(by simp [descWords])).extractLsb' 5 15 = d.function ∧
      ((descWords d)[0]'(by simp [descWords])).extractLsb' 20 4 = d.engine := by
  constructor <;> refine extractLsb'_eq_of_bits fun k hk => ?_ <;> rw [word0_bit]
  · grind
  · grind

/-- The fields of W3 (30_encoding.md R103). -/
theorem word3_fields (d : Desc) :
    ((descWords d)[3]'(by simp [descWords])).extractLsb' 0 16 = d.srcHi ∧
      ((descWords d)[3]'(by simp [descWords])).extractLsb' 16 2 = memTypeCode d.srcMem ∧
      ((descWords d)[3]'(by simp [descWords])).extractLsb' 18 8 = d.ctxId := by
  refine ⟨?_, ?_, ?_⟩ <;> refine extractLsb'_eq_of_bits fun k hk => ?_ <;> rw [word3_bit]
  · grind
  · grind
  · grind

/-- The fields of W7 (30_encoding.md R105). -/
theorem word7_fields (d : Desc) :
    ((descWords d)[7]'(by simp [descWords])).extractLsb' 0 16 = d.keyHi ∧
      ((descWords d)[7]'(by simp [descWords])).extractLsb' 16 2 = memTypeCode d.keyMem := by
  constructor <;> refine extractLsb'_eq_of_bits fun k hk => ?_ <;> rw [word7_bit]
  · grind
  · grind

/-- Every field is read back from the word the encoder put it in (30_encoding.md R101 to R105). -/
theorem descOfWords_descWords (d : Desc) :
    descOfWords ((descWords d)[0]'(by simp [descWords])) d.length d.srcLo ((descWords d)[3]'(by simp [descWords]))
      d.w4 d.w5 d.keyLo ((descWords d)[7]'(by simp [descWords])) = d := by
  obtain ⟨hfunction, hengine⟩ := word0_fields d
  obtain ⟨hsrcHi, hsrcMem, hctxId⟩ := word3_fields d
  obtain ⟨hkeyHi, hkeyMem⟩ := word7_fields d
  simp only [descOfWords, hfunction, hengine, hsrcHi, hsrcMem, hctxId, hkeyHi, hkeyMem, memTypeOfCode_code, word0_bit,
    word3_bit]
  rfl

/-- Word `i` is read back from the bytes of a list of words (30_encoding.md R100). -/
theorem descWord_flatMap_wordBytes (ws : List Word) (i : Nat) (h : i < ws.length) :
    descWord (ws.flatMap wordBytes) i = ws[i] := by
  induction ws generalizing i with
  | nil => exact absurd h (Nat.not_lt_zero i)
  | cons w ws ih =>
    cases i with
    | zero => exact le32_wordBytes_append w _
    | succ i => exact ih i (Nat.lt_of_succ_lt_succ h)

/-- A descriptor is decoded from its bytes. -/
theorem decodeDesc_encodeDesc (d : Desc) : decodeDesc (encodeDesc d) = d := by
  have h (i : Nat) (hi : i < 8) : descWord (encodeDesc d) i = (descWords d)[i] :=
    descWord_flatMap_wordBytes (descWords d) i hi
  unfold decodeDesc
  rw [h 0 (by decide), h 1 (by decide), h 2 (by decide), h 3 (by decide), h 4 (by decide), h 5 (by decide),
    h 6 (by decide), h 7 (by decide)]
  exact descOfWords_descWords d

/-- The bytes of a descriptor decode to its row. -/
theorem decode_encodeDesc (d : Desc) : decode (.descriptor (encodeDesc d)) = .ok (classify d) := by
  rw [decode, if_pos (Laws.EncodeShape.encodeDesc_length d), decodeDesc_encodeDesc]

/-! ### Words with zero reserved bits come back from their descriptor -/

/-- A bit under a mask that selects nothing of the word. -/
theorem getLsbD_eq_false_of_and_eq_zero {w k : Nat} {x m : BitVec w} (h : x &&& m = 0) (hm : m.getLsbD k = true) :
    x.getLsbD k = false := by
  have hbit := congrArg (BitVec.getLsbD · k) h
  simpa [hm] using hbit

section
variable (w0 w1 w2 w3 w4 w5 w6 w7 : Word)

theorem word0_descOfWords (h : w0 &&& 0xFE000004 = 0) :
    (descWords (descOfWords w0 w1 w2 w3 w4 w5 w6 w7))[0]'(by simp [descWords]) = w0 := by
  apply BitVec.eq_of_getLsbD_eq
  intro k hk
  have hreserved : k = 2 ∨ 25 ≤ k → w0.getLsbD k = false := fun hr =>
    getLsbD_eq_false_of_and_eq_zero h (by revert k; decide)
  rw [word0_bit]
  simp only [descOfWords, BitVec.getLsbD_extractLsb']
  grind

theorem word3_descOfWords (h : w3 &&& 0x7C000000 = 0) :
    (descWords (descOfWords w0 w1 w2 w3 w4 w5 w6 w7))[3]'(by simp [descWords]) = w3 := by
  apply BitVec.eq_of_getLsbD_eq
  intro k hk
  have hreserved : 26 ≤ k ∧ k < 31 → w3.getLsbD k = false := fun hr =>
    getLsbD_eq_false_of_and_eq_zero h (by revert k; decide)
  rw [word3_bit]
  simp only [descOfWords, BitVec.getLsbD_extractLsb', memTypeCode_ofCode]
  grind

theorem word7_descOfWords (h : w7 &&& 0xFFFC0000 = 0) :
    (descWords (descOfWords w0 w1 w2 w3 w4 w5 w6 w7))[7]'(by simp [descWords]) = w7 := by
  apply BitVec.eq_of_getLsbD_eq
  intro k hk
  have hreserved : 18 ≤ k → w7.getLsbD k = false := fun hr =>
    getLsbD_eq_false_of_and_eq_zero h (by revert k; decide)
  rw [word7_bit]
  simp only [descOfWords, BitVec.getLsbD_extractLsb', memTypeCode_ofCode]
  grind

/-- The reserved bits that W0, W3 and W7 have in the model are all the decoder drops (log entry 19). -/
theorem descWords_descOfWords (h0 : w0 &&& 0xFE000004 = 0) (h3 : w3 &&& 0x7C000000 = 0)
    (h7 : w7 &&& 0xFFFC0000 = 0) :
    descWords (descOfWords w0 w1 w2 w3 w4 w5 w6 w7) = [w0, w1, w2, w3, w4, w5, w6, w7] := by
  rw [descWords_eq, word0_descOfWords _ _ _ _ _ _ _ _ h0, word3_descOfWords _ _ _ _ _ _ _ _ h3,
    word7_descOfWords _ _ _ _ _ _ _ _ h7]
  rfl

end

end Sys2Proof

namespace Sys2Proof.Machine

/-! ### What packing keeps and clears -/

/-- Packing keeps every operand of the engine (30_encoding.md R106, R107, R121). -/
theorem sameOperands_packed (d : Desc) : SameOperands d d.packed := by
  obtain ⟨hdst, hdstMem, -⟩ := d.packed_dst
  have hsource : SameSource d d.packed := ⟨rfl, rfl, rfl⟩
  have hdest : SameDestination d d.packed := ⟨hdst.symm, hdstMem.symm⟩
  refine ⟨rfl, fun hsha => ?_, fun hrsa => ?_, fun hpt => ?_, fun _ => ⟨rfl, rfl, hsource, hdest⟩⟩
  · exact ⟨(d.packed_shaType hsha).symm, rfl, rfl, hsource⟩
  · obtain ⟨hmode, hsize⟩ := d.packed_rsa hrsa
    exact ⟨hmode.symm, hsize.symm, rfl, rfl, hsource, hdest⟩
  · obtain ⟨hbitwise, hswap⟩ := d.packed_passthru hpt
    exact ⟨hbitwise.symm, hswap.symm, hsource, hdest⟩

/-- Every engine's mask keeps the bits of W0 that are neither reserved nor of `function`. -/
theorem usedW0_outside_function (e : BitVec 4) :
    ∀ k < 25, k ≠ 2 → ¬ (5 ≤ k ∧ k < 20) → (usedW0 e).getLsbD k = true := by
  revert e; decide

/-- Every bit set in `function` packed is one its engine uses. -/
theorem usedW0_of_packedFunction (d : Desc) :
    ∀ k < 15, d.packedFunction.getLsbD k = true → (usedW0 d.engine).getLsbD (5 + k) = true := by
  unfold Desc.packedFunction usedW0
  split_ifs
  · generalize d.shaType = t
    revert t; decide
  · have hall : ∀ k < 15, (0x01FFFFFB : Word).getLsbD (5 + k) = true := by decide
    exact fun k hk _ => hall k hk
  · generalize d.byteswap = b, d.bitwise = c
    revert b c; decide
  · decide

/-- W0 packed has no bit that its engine ignores. -/
theorem word0_packed_and_not_used (d : Desc) : (descWords d.packed).headD 0 &&& ~~~usedW0 d.engine = 0 := by
  apply BitVec.eq_of_getLsbD_eq
  intro k hk
  have houtside := usedW0_outside_function d.engine k
  have hfunction := usedW0_of_packedFunction d (k - 5)
  have hpacked : d.packed.function = d.packedFunction := rfl
  have hword := word0_bit d.packed k
  rw [descWords_eq, List.headD_cons, BitVec.getLsbD_and, BitVec.getLsbD_not, hword, hpacked]
  by_cases hrange : 5 ≤ k ∧ k < 20
  · rw [show 5 + (k - 5) = k by omega] at hfunction
    grind
  · grind

/-- Word 5 packed from the destination's fields has no bit outside them. -/
theorem packDstWord_and_reserved (hi : BitVec 16) (mt : MemType) (fixed : Bool) :
    packDstWord hi mt fixed &&& 0x7FFC0000 = 0 := by
  apply BitVec.eq_of_getLsbD_eq
  intro k hk
  have hmask : (0x7FFC0000 : Word).getLsbD k = true → 18 ≤ k ∧ k ≠ 31 := by revert k; decide
  rw [BitVec.getLsbD_and, packDstWord_bit]
  grind

/-- Settles O2: the two round trips, and what packing keeps and clears. -/
theorem encodeDecodeDescriptorWords : Obligations.EncodeDecodeDescriptorWords := by
  unfold Obligations.EncodeDecodeDescriptorWords
  refine ⟨descWords_descOfWords, fun d => ⟨decode_encodeDesc d.packed, sameOperands_packed d, rfl,
    word0_packed_and_not_used d, fun hsha => ?_, fun hne => ?_⟩⟩
  · exact if_pos hsha
  · obtain ⟨hdst, hdstMem, hfixed⟩ := d.packed_dst
    have hw5 : d.packed.w5 = packDstWord d.dstHi d.dstMem d.fixedDst := if_neg hne
    exact ⟨hdst, hdstMem, hfixed, hw5 ▸ packDstWord_and_reserved _ _ _⟩

end Sys2Proof.Machine

/-! The shim's calls one by one (40_shim_scratch.md R150 to R159): how a call that fails leaves the state, and where a call
that succeeds reads and writes. Each is read off the lemma that says what the call can do. -/
namespace Sys2Proof.Machine

/-! ### Ranges and the bytes outside them -/

/-- The two ways a range is accessible: inside the scratch store, or granted in full by the platform. -/
theorem accessible_cases {s : State} {k : Nat} {mt : MemType} {a n : Nat} {w : Bool}
    (h : accessible s k mt a n w = true) :
    (mt = .scratch ∧ a + n ≤ Config.lsbSize) ∨ (mt = .loc ∧ (n = 0 ∨ grantAt s k a n w = n)) := by
  cases mt with
  | scratch => exact .inl ⟨rfl, of_decide_eq_true h⟩
  | loc => exact .inr ⟨rfl, of_decide_eq_true h⟩
  | system => cases h
  | unnamed => cases h

/-- A store changes no byte outside its range, in any state. -/
theorem spaceByte_writeGranted_outside {mt m : MemType} {addr a : Nat} {v : Bytes} (s : State)
    (h : m ≠ mt ∨ a < addr ∨ addr + v.length ≤ a) :
    spaceByte (writeGranted mt addr v s) m a = spaceByte s m a := by
  cases mt with
  | scratch =>
    cases m with
    | scratch => exact Mem.get_write_outside (h.resolve_left (· rfl))
    | _ => rfl
  | loc =>
    cases m with
    | loc => exact Mem.get_write_outside (h.resolve_left (· rfl))
    | _ => rfl
  | system => rfl
  | unnamed => rfl

/-! ### `memRead` -/

theorem memRead_of_not_accessible {mt : MemType} {addr n : Nat} {s : State}
    (h : accessible s 0 mt addr n false = false) :
    memRead mt addr n s = (.error (accessFailure s 0 mt addr n false), failedAccess s 0 mt addr n false) := by
  rcases memRead_cases mt addr n s with ⟨hacc, -⟩ | ⟨-, hfail⟩
  · exact absurd (h.symm.trans hacc) Bool.false_ne_true
  · exact hfail

theorem memRead_error {mt : MemType} {addr n : Nat} {e : DiagEvent} {s t : State}
    (h : memRead mt addr n s = (.error e, t)) : t = failedAccess s 0 mt addr n false := by
  rcases memRead_cases mt addr n s with ⟨-, hok⟩ | ⟨-, hfail⟩
  · cases hok.symm.trans h
  · exact (congrArg Prod.snd (hfail.symm.trans h)).symm

theorem memRead_ok {mt : MemType} {addr n : Nat} {bs : Bytes} {s t : State} (h : memRead mt addr n s = (.ok bs, t)) :
    accessible s 0 mt addr n false = true ∧ bs = spaceBytes s mt addr n ∧
      t = afterRequests s (mapRequests mt n) := by
  rcases memRead_cases mt addr n s with ⟨hacc, hok⟩ | ⟨-, hfail⟩
  · cases hok.symm.trans h
    exact ⟨hacc, rfl, rfl⟩
  · cases hfail.symm.trans h

/-! ### `memWrite` -/

theorem memWrite_of_not_accessible {mt : MemType} {addr : Nat} {v : Bytes} {s : State}
    (h : accessible s 0 mt addr v.length true = false) :
    memWrite mt addr v s =
      (.error (accessFailure s 0 mt addr v.length true), failedAccess s 0 mt addr v.length true) := by
  rcases memWrite_cases mt addr v s with ⟨hacc, -⟩ | ⟨-, hfail⟩
  · exact absurd (h.symm.trans hacc) Bool.false_ne_true
  · exact hfail

theorem memWrite_error {mt : MemType} {addr : Nat} {v : Bytes} {e : DiagEvent} {s t : State}
    (h : memWrite mt addr v s = (.error e, t)) : t = failedAccess s 0 mt addr v.length true := by
  rcases memWrite_cases mt addr v s with ⟨-, hok⟩ | ⟨-, hfail⟩
  · cases hok.symm.trans h
  · exact (congrArg Prod.snd (hfail.symm.trans h)).symm

theorem memWrite_ok {mt : MemType} {addr : Nat} {v : Bytes} {s t : State} (h : memWrite mt addr v s = (.ok (), t)) :
    accessible s 0 mt addr v.length true = true ∧
      t = writeGranted mt addr v (afterRequests s (mapRequests mt v.length)) := by
  rcases memWrite_cases mt addr v s with ⟨hacc, hok⟩ | ⟨-, hfail⟩
  · exact ⟨hacc, (congrArg Prod.snd (hok.symm.trans h)).symm⟩
  · cases hfail.symm.trans h

/-! ### `memMapW` -/

/-- Decision D25: a mapping of SYSTEM, or of the unnamed memory type, fails like any other access to it. -/
theorem memMapW_of_noMemory {mt : MemType} (h : mt = .system ∨ mt = .unnamed) (addr n : Nat) (s : State) :
    memMapW mt addr n s = (.error (accessFailure s 0 mt addr n true), failedAccess s 0 mt addr n true) := by
  rcases h with rfl | rfl
  · rfl
  · rfl

/-- Decision D32: a scratch mapping past the store's end grants nothing, and warns. -/
theorem memMapW_scratch_outside {addr n : Nat} (h : Config.lsbSize < addr + n) (s : State) :
    memMapW .scratch addr n s = (.ok 0, s.diagnose (.scratchBounds addr n)) := by
  rcases memMapW_cases .scratch addr n s with ⟨hmt, -⟩ | ⟨-, hin, -⟩ | ⟨-, -, hwarn⟩ | ⟨⟨⟩, -⟩ | ⟨⟨⟩, -⟩
  · exact absurd hmt (by decide)
  · omega
  · exact hwarn

theorem memMapW_loc_short {addr n : Nat} {s : State} (h : grantAt s 0 addr n true < n) :
    memMapW .loc addr n s = (.ok (grantAt s 0 addr n true),
      (afterRequests s 1).diagnose (.partialOutput addr n (grantAt s 0 addr n true))) := by
  rcases memMapW_cases .loc addr n s with ⟨hmt, -⟩ | ⟨⟨⟩, -⟩ | ⟨⟨⟩, -⟩ | ⟨-, hfull, -⟩ | ⟨-, -, hwarn⟩
  · exact absurd hmt (by decide)
  · omega
  · exact hwarn

theorem memMapW_error {mt : MemType} {addr n : Nat} {e : DiagEvent} {s t : State}
    (h : memMapW mt addr n s = (.error e, t)) : t = failedAccess s 0 mt addr n true := by
  rcases memMapW_cases mt addr n s with ⟨hmt, -⟩ | ⟨-, -, hok⟩ | ⟨-, -, hok⟩ | ⟨-, -, hok⟩ | ⟨-, -, hok⟩
  · exact (congrArg Prod.snd ((memMapW_of_noMemory hmt addr n s).symm.trans h)).symm
  all_goals cases hok.symm.trans h

/-- A mapping that does not fail grants all of a range inside the scratch store or nothing of that store, or what the
platform grants of guest memory. -/
theorem memMapW_ok {mt : MemType} {addr n g : Nat} {s t : State} (h : memMapW mt addr n s = (.ok g, t)) :
    SameMemories s t ∧
      ((mt = .scratch ∧ (g = 0 ∨ g = n ∧ addr + n ≤ Config.lsbSize)) ∨ (mt = .loc ∧ g = grantAt s 0 addr n true)) := by
  rcases memMapW_cases mt addr n s with
    ⟨-, hfail⟩ | ⟨hmt, hin, hok⟩ | ⟨hmt, -, hok⟩ | ⟨hmt, hfull, hok⟩ | ⟨hmt, -, hok⟩
  · cases hfail.symm.trans h
  · cases hok.symm.trans h
    exact ⟨⟨rfl, rfl⟩, .inl ⟨hmt, .inr ⟨rfl, hin⟩⟩⟩
  · cases hok.symm.trans h
    exact ⟨⟨rfl, rfl⟩, .inl ⟨hmt, .inl rfl⟩⟩
  · cases hok.symm.trans h
    exact ⟨⟨rfl, rfl⟩, .inr ⟨hmt, hfull.symm⟩⟩
  · cases hok.symm.trans h
    exact ⟨⟨rfl, rfl⟩, .inr ⟨hmt, rfl⟩⟩

/-- The bytes granted lie in the range asked for, and of the scratch store inside it. -/
theorem memMapW_ok_bounds {mt : MemType} {addr n g : Nat} {s t : State} (h : memMapW mt addr n s = (.ok g, t)) :
    g ≤ n ∧ (mt = .scratch → 0 < g → addr + g ≤ Config.lsbSize) ∧ (mt = .loc → g = grantAt s 0 addr n true) := by
  obtain ⟨-, ⟨rfl, hscratch⟩ | ⟨rfl, rfl⟩⟩ := memMapW_ok h
  · exact ⟨by omega, fun _ hpos => by omega, fun hloc => nomatch hloc⟩
  · exact ⟨(grantAt_le s 0 addr n true).1, fun hscratch => (nomatch hscratch), fun _ => rfl⟩

/-! ### `lsbWriteSlot` -/

/-- 40_shim_scratch.md R156: a slot is 32 bytes. -/
theorem slotOffset_eq (id : BitVec 8) : slotOffset id = id.toNat * 32 := rfl

theorem lsbWriteSlot_outside {id : BitVec 8} {v : Bytes} (h : Config.lsbSize < id.toNat * 32 + v.length) (s : State) :
    lsbWriteSlot id v s = (.error (.scratchBounds (id.toNat * 32) v.length),
      s.diagnose (.scratchBounds (id.toNat * 32) v.length)) := by
  rw [← slotOffset_eq] at h ⊢
  rcases lsbWriteSlot_cases id v s with ⟨hin, -⟩ | ⟨-, hfail⟩
  · omega
  · exact hfail

theorem lsbWriteSlot_error {id : BitVec 8} {v : Bytes} {e : DiagEvent} {s t : State}
    (h : lsbWriteSlot id v s = (.error e, t)) : t = s.diagnose e := by
  rcases lsbWriteSlot_cases id v s with ⟨-, hok⟩ | ⟨-, hfail⟩
  · cases hok.symm.trans h
  · cases hfail.symm.trans h
    rfl

/-- A slot is written as the scratch range at its offset. -/
theorem lsbWriteSlot_ok {id : BitVec 8} {v : Bytes} {s t : State} (h : lsbWriteSlot id v s = (.ok (), t)) :
    id.toNat * 32 + v.length ≤ Config.lsbSize ∧ t = writeGranted .scratch (id.toNat * 32) v s := by
  rw [← slotOffset_eq]
  rcases lsbWriteSlot_cases id v s with ⟨hin, hok⟩ | ⟨-, hfail⟩
  · exact ⟨hin, (congrArg Prod.snd (hok.symm.trans h)).symm⟩
  · cases hfail.symm.trans h

/-! ### Failed and successful calls -/

/-- 40_shim_scratch.md R159: whichever call fails, stores, contexts and queue registers stay. -/
theorem shimCall_error_frame {mt : MemType} {addr n : Nat} {id : BitVec 8} {v : Bytes} {e : DiagEvent} {s t : State}
    (h : memRead mt addr n s = (.error e, t) ∨ memWrite mt addr v s = (.error e, t) ∨
      memMapW mt addr n s = (.error e, t) ∨ lsbWriteSlot id v s = (.error e, t)) :
    t.lsb = s.lsb ∧ t.gm = s.gm ∧ t.hctx = s.hctx ∧ t.zctx = s.zctx ∧ t.queues = s.queues := by
  rcases h with hread | hwrite | hmap | hslot
  · obtain rfl := memRead_error hread
    exact ⟨rfl, rfl, rfl, rfl, rfl⟩
  · obtain rfl := memWrite_error hwrite
    exact ⟨rfl, rfl, rfl, rfl, rfl⟩
  · obtain rfl := memMapW_error hmap
    exact ⟨rfl, rfl, rfl, rfl, rfl⟩
  · obtain rfl := lsbWriteSlot_error hslot
    exact ⟨rfl, rfl, rfl, rfl, rfl⟩

theorem memRead_ok_in_bounds {mt : MemType} {addr n : Nat} {bs : Bytes} {s t : State}
    (h : memRead mt addr n s = (.ok bs, t)) :
    bs.length = n ∧ SameMemories s t ∧
      ((mt = .scratch ∧ addr + n ≤ Config.lsbSize ∧ bs = s.lsb.read addr n) ∨
        (mt = .loc ∧ (n = 0 ∨ grantAt s 0 addr n false = n) ∧ bs = s.gm.read addr n)) := by
  obtain ⟨hacc, rfl, rfl⟩ := memRead_ok h
  refine ⟨spaceBytes_length .., ⟨rfl, rfl⟩, ?_⟩
  rcases accessible_cases hacc with ⟨rfl, hin⟩ | ⟨rfl, hgrant⟩
  · exact .inl ⟨rfl, hin, Mem.read_eq_map.symm⟩
  · exact .inr ⟨rfl, hgrant, Mem.read_eq_map.symm⟩

theorem memWrite_ok_in_bounds {mt : MemType} {addr : Nat} {v : Bytes} {s t : State}
    (h : memWrite mt addr v s = (.ok (), t)) :
    (v = [] ∨ mt = .scratch ∧ addr + v.length ≤ Config.lsbSize ∨
        mt = .loc ∧ grantAt s 0 addr v.length true = v.length) ∧
      ∀ m a, (m ≠ mt ∨ a < addr ∨ addr + v.length ≤ a) → spaceByte t m a = spaceByte s m a := by
  obtain ⟨hacc, rfl⟩ := memWrite_ok h
  refine ⟨?_, fun m a hout => (spaceByte_writeGranted_outside _ hout).trans (spaceByte_congr rfl rfl m a)⟩
  rcases accessible_cases hacc with hscratch | ⟨hloc, hempty | hgrant⟩
  · exact .inr (.inl hscratch)
  · exact .inl (List.length_eq_zero_iff.mp hempty)
  · exact .inr (.inr ⟨hloc, hgrant⟩)

/-- Bytes written at the front of the view granted stay inside it. -/
theorem memMapW_ok_in_bounds {mt : MemType} {addr n g : Nat} (v : Bytes) {s t : State}
    (h : memMapW mt addr n s = (.ok g, t)) :
    g ≤ n ∧ SameMemories s t ∧ (mt = .scratch → 0 < g → addr + g ≤ Config.lsbSize) ∧
      (mt = .loc → g = grantAt s 0 addr n true) ∧
      ∀ m a, v.length ≤ g → (m ≠ mt ∨ a < addr ∨ addr + g ≤ a) →
        spaceByte (writeGranted mt addr v t) m a = spaceByte s m a := by
  obtain ⟨hle, hscratch, hloc⟩ := memMapW_ok_bounds h
  obtain ⟨⟨hgm, hlsb⟩, -⟩ := memMapW_ok h
  refine ⟨hle, ⟨hgm, hlsb⟩, hscratch, hloc, fun m a hlen hout => ?_⟩
  have hout' : m ≠ mt ∨ a < addr ∨ addr + v.length ≤ a :=
    hout.imp_right (Or.imp_right fun hend => (Nat.add_le_add_left hlen addr).trans hend)
  exact (spaceByte_writeGranted_outside t hout').trans (spaceByte_congr hlsb hgm m a)

theorem lsbWriteSlot_ok_in_bounds {id : BitVec 8} {v : Bytes} {s t : State} (h : lsbWriteSlot id v s = (.ok (), t)) :
    id.toNat * 32 + v.length ≤ Config.lsbSize ∧
      ∀ m a, (m ≠ .scratch ∨ a < id.toNat * 32 ∨ id.toNat * 32 + v.length ≤ a) →
        spaceByte t m a = spaceByte s m a := by
  obtain ⟨hin, rfl⟩ := lsbWriteSlot_ok h
  exact ⟨hin, fun m a => spaceByte_writeGranted_outside s⟩

/-- Settles O22: the frame of every failed call, the bounds of every successful one, and the event each failure logs. -/
theorem shimCallsStayInBounds : Obligations.ShimCallsStayInBounds := by
  unfold Obligations.ShimCallsStayInBounds
  intro mt addr n id v s t
  refine ⟨fun _ => shimCall_error_frame, fun _ => memRead_ok_in_bounds, memWrite_ok_in_bounds,
    fun _ => memMapW_ok_in_bounds v, lsbWriteSlot_ok_in_bounds, memRead_of_not_accessible, memWrite_of_not_accessible,
    fun hmt => memMapW_of_noMemory hmt addr n s, ?_, ?_, fun hout => lsbWriteSlot_outside hout s⟩
  · rintro rfl hout
    exact memMapW_scratch_outside hout s
  · rintro rfl hshort
    exact memMapW_loc_short hshort

end Sys2Proof.Machine

/-! One granted descriptor inside a drain is `exec` of the row it decodes to (46_queue.md R284, R285); and the no-op
routes, which log one diagnostic wherever they run (41_decode_dispatch.md R185 to R189, R193). -/
namespace Sys2Proof.Machine

/-! ### Executing what a drain fetches -/

/-- 32 bytes decode to the row of their fields (41_decode_dispatch.md R180). -/
theorem decode_descriptor {bytes : Bytes} (h : bytes.length = Config.descSize) :
    decode (.descriptor bytes) = .ok (classify (decodeDesc bytes)) :=
  if_pos h

/-- A granted fetch executes the decoded row after its one mapping request (46_queue.md R284). -/
theorem exec_eq_fetchExecute {a : Nat} {i : Instr} {s : State} (hgrant : grantAt s 0 a 32 false = 32)
    (hdecode : decode (.descriptor (s.gm.read a 32)) = .ok i) :
    exec i (afterRequests s 1) = .next (fetchExecute a s) := by
  have hfetch : fetchExecute a s = executeDesc (decodeDesc (s.gm.read a 32)) (afterRequests s 1) := by
    simp only [fetchExecute, guestMap_fst, guestMap_snd, hgrant, lt_irrefl, if_false]
    rfl
  obtain rfl : classify (decodeDesc (s.gm.read a 32)) = i :=
    Except.ok.inj ((decode_descriptor Mem.length_read).symm.trans hdecode)
  rw [exec_classify, hfetch]

/-! ### A drain of one descriptor -/

/-- One descriptor is pending where `head` is 32 bytes above `tail` (46_queue.md R283). -/
theorem drainCount_eq_one {tail head : Word} (h : head.toNat = tail.toNat + 32) : drainCount tail head = 1 := by
  unfold drainCount
  rw [if_pos (by omega)]
  omega

/-- A drain of one granted descriptor is `exec` of its row on the marked queue, then the completion
(46_queue.md R284, R286). -/
theorem drain_one {q : QId} {i : Instr} {s t : State} (hcount : drainCount (s.queue q).tail (s.queue q).head = 1)
    (hgrant : grantAt s 0 (s.queue q).tail.toNat 32 false = 32)
    (hdecode : decode (.descriptor (s.gm.read (s.queue q).tail.toNat 32)) = .ok i)
    (hexec : exec i { afterRequests s 1 with draining := some q } = .next t) :
    drain q s = { t.setQueue q (completedQueue (s.queue q)) with draining := none } := by
  have hfetch : exec i { afterRequests s 1 with draining := some q } =
      .next (fetchExecute (s.queue q).tail.toNat { s with draining := some q }) :=
    exec_eq_fetchExecute (s := { s with draining := some q }) hgrant hdecode
  obtain rfl : fetchExecute (s.queue q).tail.toNat { s with draining := some q } = t :=
    Host.Outcome.next.inj (hfetch.symm.trans hexec)
  rw [drain_eq, hcount]
  rfl

/-! ### The no-op routes -/

/-- A control read that drains one descriptor which only logs: its event goes to the log under the queue's id, and the
mapping request, the completed queue and the answer are all else that changes (46_queue.md R286, 60_exceptions.md R341). -/
theorem controlRead_logs {q : QId} {i : Instr} {e : DiagEvent} {s : State}
    (hexec : ∀ s : State, exec i s = .next (s.diagnose e)) (hrun : runBit (s.queue q).control = true)
    (hcount : drainCount (s.queue q).tail (s.queue q).head = 1)
    (hgrant : grantAt s 0 (s.queue q).tail.toNat 32 false = 32)
    (hdecode : decode (.descriptor (s.gm.read (s.queue q).tail.toNat 32)) = .ok i) :
    controlRead q s =
      { (afterRequests s 1).setQueue q (completedQueue (s.queue q)) with
        diag := s.diag ++ [⟨some (s.queue q).id, e⟩]
        draining := none
        busData := wordBytes (completedControl (s.queue q).control) } := by
  rw [controlRead_running hrun, drain_one hcount hgrant hdecode (hexec _)]
  rfl

/-- Settles O23: each of the five rows only logs, alone and as the one descriptor of a drain. -/
theorem noOpRoutesOnlyLog : Obligations.NoOpRoutesOnlyLog := by
  unfold Obligations.NoOpRoutesOnlyLog
  intro i e d hroute
  have hexec : ∀ s : State, exec i s = .next (s.diagnose e) := by
    intro s
    rcases hroute with ⟨rfl, rfl⟩ | ⟨rfl, rfl⟩ | ⟨rfl, rfl⟩ | ⟨rfl, rfl⟩ | ⟨rfl, rfl⟩
    all_goals rfl
  refine ⟨fun s => ⟨_, hexec s, rfl⟩, fun s q hrun hhead hgrant hdecode => ?_⟩
  have hread := controlRead_logs hexec hrun (drainCount_eq_one hhead) hgrant hdecode
  exact ⟨_, congrArg Host.Outcome.next hread, ⟨rfl, rfl⟩, rfl, rfl, rfl,
    State.setQueue_queue_same (afterRequests s 1) q _, fun p => State.setQueue_queue_ne (afterRequests s 1) _⟩

end Sys2Proof.Machine

/-! The SHA rows of a live or new context without `eom`, and of a hash type the engine does not support (42_hash.md R201
to R208). -/
namespace Sys2Proof.Machine

/-! ### A supported hash type -/

/-- The two supported rows run the one engine, each with its own type (42_hash.md R200). -/
theorem exec_hashInstr (ty : HashType) (d : Desc) (s : State) :
    exec (hashInstr ty d) s = .next (shaEngine ty d s).2 := by
  cases ty with
  | sha256 => rfl
  | sha384 => rfl

/-- Without `eom` the finish only keeps the context it is given (42_hash.md R206). -/
theorem hashFinish_of_not_eom {d : Desc} (heom : d.eom = false) (ctx : HashCtx) (s : State) :
    hashFinish d ctx s = (.applied, { s with hctx := some ctx }) := by
  simp [hashFinish, heom]

/-- Without `eom` a context is alive afterwards: the one of step 1 after a failed read, else that one with the source
bytes fed (42_hash.md R203, R206; decision D22). -/
theorem shaEngine_of_not_eom {d : Desc} (heom : d.eom = false) (ty : HashType) (s : State) :
    (shaEngine ty d s).2.hctx.isSome = true ∧ SameMemories s (shaEngine ty d s).2 := by
  rcases shaEngine_cases ty d s with ⟨-, hfail⟩ | ⟨-, hfeed⟩
  · rw [hfail]
    exact ⟨rfl, rfl, rfl⟩
  · rw [hfeed, hashFinish_of_not_eom heom]
    exact ⟨rfl, rfl, rfl⟩

/-- Settles O25: both outcomes of the source read leave a context and both memories. -/
theorem shaWithoutEomKeepsContext : Obligations.ShaWithoutEomKeepsContext := by
  unfold Obligations.ShaWithoutEomKeepsContext
  intro ty d s heom
  exact ⟨_, exec_hashInstr ty d s, shaEngine_of_not_eom heom ty s⟩

/-! ### An unsupported hash type -/

/-- Both type codes tested, the row that is left (42_hash.md R201). -/
theorem classify_sha_unsupported {d : Desc} (hengine : d.engine = Config.engSha)
    (h256 : d.shaType ≠ Config.typeSha256) (h384 : d.shaType ≠ Config.typeSha384) :
    classify d = .shaUnsupported d := by
  rw [classify_sha d hengine, if_neg h256, if_neg h384]

/-- The row is skipped with its diagnostic, before any context or memory action (42_hash.md R201, R208). -/
theorem dispatch_shaUnsupported (d : Desc) (s : State) :
    dispatch (.shaUnsupported d) s = (.skipped (some (.unimplementedFunction (.shaType d.shaType))),
      s.diagnose (.unimplementedFunction (.shaType d.shaType))) := rfl

theorem exec_shaUnsupported (d : Desc) (s : State) :
    exec (.shaUnsupported d) s = .next (s.diagnose (.unimplementedFunction (.shaType d.shaType))) := rfl

/-- Settles O29: the type field of the words selects the row, and the row logs that field. -/
theorem shaUnsupportedTypeOnlyLogs : Obligations.ShaUnsupportedTypeOnlyLogs := by
  unfold Obligations.ShaUnsupportedTypeOnlyLogs
  intro w0 w1 w2 w3 w4 w5 w6 w7 s hengine h256 h384
  rw [← descOfWords_shaType w0 w1 w2 w3 w4 w5 w6 w7] at h256 h384 ⊢
  exact ⟨classify_sha_unsupported hengine h256 h384, congrArg Prod.fst (dispatch_shaUnsupported _ s),
    _, exec_shaUnsupported _ s, rfl⟩

end Sys2Proof.Machine

/-! The PASSTHRU row of a bitwise operation other than NOOP (44_passthru.md R246). -/
namespace Sys2Proof.Machine

/-- The bitwise code is tested before the byteswap code (44_passthru.md R246). -/
theorem classify_passthru_bitwise {d : Desc} (hengine : d.engine = Config.engPassthru)
    (hbitwise : d.bitwise ≠ Config.bitwiseNoop) : classify d = .ptBitwiseUnimpl d := by
  rw [classify_passthru d hengine, if_pos hbitwise]

/-- The row is skipped with its diagnostic, before any mapping of source, destination or key (44_passthru.md R246). -/
theorem dispatch_ptBitwiseUnimpl (d : Desc) (s : State) :
    dispatch (.ptBitwiseUnimpl d) s = (.skipped (some (.unimplementedFunction (.ptBitwise d.bitwise))),
      s.diagnose (.unimplementedFunction (.ptBitwise d.bitwise))) := rfl

theorem exec_ptBitwiseUnimpl (d : Desc) (s : State) :
    exec (.ptBitwiseUnimpl d) s = .next (s.diagnose (.unimplementedFunction (.ptBitwise d.bitwise))) := rfl

/-- Settles O41: the bitwise field of the words selects the row, and the row logs that field. -/
theorem passthruBitwiseOnlyLogs : Obligations.PassthruBitwiseOnlyLogs := by
  unfold Obligations.PassthruBitwiseOnlyLogs
  intro w0 w1 w2 w3 w4 w5 w6 w7 s hengine hbitwise
  rw [← descOfWords_bitwise w0 w1 w2 w3 w4 w5 w6 w7] at hbitwise ⊢
  exact ⟨classify_passthru_bitwise hengine hbitwise, congrArg Prod.fst (dispatch_ptBitwiseUnimpl _ s),
    _, exec_ptBitwiseUnimpl _ s, rfl⟩

end Sys2Proof.Machine

/-! The ZLIB row of a descriptor that is not one complete stream, `init` with `eom` (45_zlib.md R264). -/
namespace Sys2Proof.Machine

/-- A two-bit field is 3 where both its bits are set. -/
theorem extractLsb'_two_eq_three {w k : Nat} {x : BitVec w} (hlow : x.getLsbD k = true)
    (hhigh : x.getLsbD (k + 1) = true) : x.extractLsb' k 2 = 3#2 := by
  apply BitVec.eq_of_getLsbD_eq
  intro j hj
  match j with
  | 0 => simpa using hlow
  | 1 => simpa using hhigh

/-- Words whose `W0[4:3]` is not 3 do not carry both `init` and `eom` (30_encoding.md R101). -/
theorem descOfWords_init_and_eom {w0 : Word} (h : w0.extractLsb' 3 2 ≠ 3#2) (w1 w2 w3 w4 w5 w6 w7 : Word) :
    ((descOfWords w0 w1 w2 w3 w4 w5 w6 w7).init && (descOfWords w0 w1 w2 w3 w4 w5 w6 w7).eom) = false := by
  rw [← Bool.not_eq_true, Bool.and_eq_true]
  rintro ⟨hinit, heom⟩
  exact h (extractLsb'_two_eq_three hinit heom)

/-- Any combination but `init` with `eom` is left to the streaming row (45_zlib.md R264). -/
theorem classify_zlib_streaming {d : Desc} (hengine : d.engine = Config.engZlib)
    (hbits : (d.init && d.eom) = false) : classify d = .zlibUnimpl d := by
  rw [classify_zlib d hengine, hbits, if_neg Bool.false_ne_true]

/-- The row is skipped with its diagnostic, before any mapping and with no inflate state created (45_zlib.md R264). -/
theorem dispatch_zlibUnimpl (d : Desc) (s : State) :
    dispatch (.zlibUnimpl d) s = (.skipped (some (.unimplementedFunction (.zlibStreaming d.init d.eom))),
      s.diagnose (.unimplementedFunction (.zlibStreaming d.init d.eom))) := rfl

theorem exec_zlibUnimpl (d : Desc) (s : State) :
    exec (.zlibUnimpl d) s = .next (s.diagnose (.unimplementedFunction (.zlibStreaming d.init d.eom))) := rfl

/-- Settles O47: `W0[4:3]` selects the row, and the row logs its two bits. -/
theorem zlibStreamingOnlyLogs : Obligations.ZlibStreamingOnlyLogs := by
  unfold Obligations.ZlibStreamingOnlyLogs
  intro w0 w1 w2 w3 w4 w5 w6 w7 s hengine hbits
  have hstreaming := descOfWords_init_and_eom hbits w1 w2 w3 w4 w5 w6 w7
  exact ⟨classify_zlib_streaming hengine hstreaming, congrArg Prod.fst (dispatch_zlibUnimpl _ s),
    _, exec_zlibUnimpl _ s, rfl⟩

end Sys2Proof.Machine

/-! What an instruction writes to the queue registers (10_state.md R20 to R26): a descriptor none, an MMIO write the one
register it names, a control read of a Running queue its completion. -/
namespace Sys2Proof.Machine

/-- `QueueUpdate i q r r'`: the instruction `i` may turn the registers `r` of queue `q` into `r'`. A control write has
no drain in it, as `DRAIN_ON_CTRL_WRITE` is false (46_queue.md R282, decision D11). -/
inductive QueueUpdate : Instr → QId → Queue → Queue → Prop
  | same (i : Instr) (q : QId) (r : Queue) : QueueUpdate i q r r
  | drained (q : QId) (r : Queue) : QueueUpdate (.ctrlRd q) q r (completedQueue r)
  | control (q : QId) (r : Queue) (v : Word) : QueueUpdate (.ctrlWr q v) q r { r with control := v }
  | tail (q : QId) (r : Queue) (v : Word) : QueueUpdate (.tailWr q v) q r { r with tail := v }
  | head (q : QId) (r : Queue) (v : Word) : QueueUpdate (.headWr q v) q r { r with head := v }
  | status (q : QId) (r : Queue) (v : Word) : QueueUpdate (.statusWr q v) q r { r with status := v }

/-- An update of one queue is an update of each, since the others stay (46_queue.md R289). -/
theorem QueueUpdate.setQueue {i : Instr} {q : QId} {r : Queue} {s : State} (h : QueueUpdate i q (s.queue q) r)
    (p : QId) : QueueUpdate i p (s.queue p) ((s.setQueue q r).queue p) := by
  by_cases hp : p = q
  · subst hp
    rwa [State.setQueue_queue_same]
  · rw [State.setQueue_queue_ne s r hp]
    exact .same i p _

/-- An operation that stays inside its frame writes no queue register. -/
theorem Framed.queues_eq {α : Type} {op : State → α × State} (h : Framed op) (s : State) :
    (op s).2.queues = s.queues := by
  have hs : op s = ((op (bare s)).1, reframe s (op (bare s)).2) := by rw [← h, reframe_bare]
  rw [hs]
  rfl

/-- An access to an offset with no register writes none (47_mmio.md R315). -/
theorem unknownAccess_queue (o : Nat) (v : Option Word) (s : State) (p : QId) :
    (unknownAccess o v s).queue p = s.queue p := by
  cases v <;> rfl

/-- A control read completes the queue it reads, where that is Running, and changes no other (46_queue.md R286, R289). -/
theorem controlRead_queueUpdate (q p : QId) (s : State) :
    QueueUpdate (.ctrlRd q) p (s.queue p) ((controlRead q s).queue p) := by
  cases hrun : runBit (s.queue q).control with
  | false =>
    rw [controlRead_halted hrun]
    exact .same _ p _
  | true =>
    rw [controlRead_running hrun, State.respond_queue, drain_queue, ← State.setQueue_queue]
    exact QueueUpdate.setQueue (.drained q _) p

/-- Everything an instruction can do to the registers of a queue. -/
theorem exec_queueUpdate {i : Instr} {s t : State} (h : exec i s = .next t) (p : QId) :
    QueueUpdate i p (s.queue p) (t.queue p) := by
  cases hrow : descriptorOf i with
  | some d =>
    obtain rfl : (dispatch i s).2 = t := Host.Outcome.next.inj ((exec_descriptor hrow s).symm.trans h)
    have hq : (dispatch i s).2.queue p = s.queue p := by simp only [State.queue, (dispatch_framed i).queues_eq]
    rw [hq]
    exact .same i p _
  | none =>
    cases i with
    | ctrlRd q =>
      obtain rfl := Host.Outcome.next.inj h
      exact controlRead_queueUpdate q p s
    | ctrlWr q v =>
      obtain rfl := Host.Outcome.next.inj h
      exact QueueUpdate.setQueue (.control q _ v) p
    | tailWr q v =>
      obtain rfl := Host.Outcome.next.inj h
      exact QueueUpdate.setQueue (.tail q _ v) p
    | headWr q v =>
      obtain rfl := Host.Outcome.next.inj h
      exact QueueUpdate.setQueue (.head q _ v) p
    | statusWr q v =>
      obtain rfl := Host.Outcome.next.inj h
      exact QueueUpdate.setQueue (.status q _ v) p
    | queueUnknownReg q r v =>
      obtain rfl := Host.Outcome.next.inj h
      rw [unknownAccess_queue]
      exact .same _ p _
    | mmioBadAccess _ _ _ | globalRd _ | globalWr _ _ | tailRd _ | headRd _ | statusRd _ | cfgRd _ | cfgWr _ _ =>
      obtain rfl := Host.Outcome.next.inj h
      exact .same _ p _
    | _ => cases hrow

/-- Settles O18: each kind of update changes the registers its instruction names, and a completion leaves `head`. -/
theorem queueRegisterWriters : Obligations.QueueRegisterWriters := by
  unfold Obligations.QueueRegisterWriters
  intro i s t q h
  have hupdate := exec_queueUpdate h q
  generalize s.queue q = r, t.queue q = r' at hupdate ⊢
  cases hupdate with
  | same => simp
  | drained => simp [completedQueue]
  | control | tail | head | status => simp

end Sys2Proof.Machine

/-! The first descriptor of a drain, and the drain of the rest from the next one on (46_queue.md R284, R292). -/
namespace Sys2Proof.Machine

/-! ### One iteration -/

theorem word_add_descSize_toNat {w : Word} (h : w.toNat + 32 < 2 ^ 32) : (w + 32).toNat = w.toNat + 32 :=
  BitVec.toNat_add_of_lt h

/-- A descriptor with more behind it leaves one fewer pending (46_queue.md R283). -/
theorem drainCount_succ {tail head : Word} (h : tail.toNat + 32 < head.toNat) :
    drainCount tail head = drainCount (tail + 32) head + 1 := by
  have hnext := word_add_descSize_toNat (w := tail) (by omega)
  unfold drainCount
  rw [if_pos (by omega), if_pos (by omega), hnext]
  omega

theorem setQueue_setQueue (s : State) (q : QId) (r r' : Queue) : (s.setQueue q r).setQueue q r' = s.setQueue q r' := by
  simp only [State.setQueue, Vector.set_set]

theorem with_draining_self {s : State} {x : Option QId} (h : s.draining = x) : { s with draining := x } = s := by
  rw [← h]

/-- The mark of a drain in progress is set by the drain itself, whatever it was. -/
theorem drain_congr {q : QId} {s s' : State} (h : { s with draining := none } = { s' with draining := none }) :
    drain q s = drain q s' :=
  calc drain q s = drain q { s with draining := none } := rfl
    _ = drain q { s' with draining := none } := by rw [h]
    _ = drain q s' := rfl

/-- Where more are pending, a drain is its first iteration and then the drain from the next descriptor on
(46_queue.md R284, R292). -/
theorem drain_succ {q : QId} {s : State} (h : (s.queue q).tail.toNat + 32 < (s.queue q).head.toNat) :
    drain q s = drain q ((fetchExecute (s.queue q).tail.toNat { s with draining := some q }).setTail q
      ((s.queue q).tail + 32)) := by
  have hnext := word_add_descSize_toNat (w := (s.queue q).tail) (by omega)
  obtain ⟨hqueues, -, -, hdraining⟩ := fetchExecute_frame (s.queue q).tail.toNat { s with draining := some q }
  generalize hfirst : fetchExecute (s.queue q).tail.toNat { s with draining := some q } = first at hqueues hdraining ⊢
  have hq : first.queue q = s.queue q := by simp only [State.queue, hqueues]
  have hmark := with_draining_self (s := first.setTail q ((s.queue q).tail + 32)) hdraining
  rw [drain_eq, drain_eq, State.setTail_queue_same, hq, hmark, drainCount_succ h, fetchLoop, hfirst, hnext,
    fetchLoop_setTail, State.setTail, setQueue_setQueue]
  rfl

/-- Of a Running queue a control read sees the control before the drain, and the drain (47_mmio.md R305). -/
theorem controlRead_congr {q : QId} {s s' : State} (hrun : runBit (s.queue q).control = true)
    (hcontrol : (s'.queue q).control = (s.queue q).control) (hdrain : drain q s = drain q s') :
    controlRead q s = controlRead q s' := by
  rw [controlRead_running hrun, controlRead_running (by rw [hcontrol]; exact hrun), hdrain, hcontrol]

/-! ### A fetch that is granted too little -/

/-- A short grant is logged, and that is all (46_queue.md R285, decision D15). -/
theorem fetchExecute_short {a g : Nat} {s : State} (hgrant : grantAt s 0 a 32 false = g) (hg : g < 32) :
    fetchExecute a s = (afterRequests s 1).diagnose (.guestMemoryError a 32 g) := by
  simp only [fetchExecute, guestMap_fst, guestMap_snd, hgrant, if_pos hg]

/-- Settles O52: the short fetch as the one iteration of the drain, and as the first with the rest behind it. -/
theorem unreadableDescriptorIsSkipped : Obligations.UnreadableDescriptorIsSkipped := by
  unfold Obligations.UnreadableDescriptorIsSkipped
  intro s q g hrun hgrant hg
  have hfetch := fetchExecute_short (s := { s with draining := some q }) hgrant hg
  refine ⟨fun hcount => congrArg Host.Outcome.next ?_, fun hmore => congrArg Host.Outcome.next ?_⟩
  · rw [controlRead_running hrun, drain_eq, hcount, fetchLoop, fetchLoop, hfetch]
    rfl
  · refine controlRead_congr hrun (by rw [State.queue_with_diag, State.setTail_queue_same]; rfl) ?_
    rw [drain_succ hmore, hfetch]
    exact drain_congr rfl

end Sys2Proof.Machine

/-! The host's use of a queue: write `head`, set run, read `control` (46_queue.md R291). -/
namespace Sys2Proof.Machine

/-- A completion clears run and sets halt (46_queue.md R286). -/
theorem completedControl_flags (v : Word) :
    runBit (completedControl v) = false ∧ haltBit (completedControl v) = true := by
  simp [runBit, haltBit, completedControl]

/-- The state in which a host has written `head` and then `control` of a queue. -/
def submitted (q : QId) (head control : Word) (s : State) : State :=
  ((s.setHead q head).setControl q control).acknowledge

theorem submitted_queue (q : QId) (head control : Word) (s : State) :
    (submitted q head control s).queue q = { s.queue q with head := head, control := control } := by
  simp [submitted]

/-- Writing `head`, then `control`, then reading `control`: neither write drains (46_queue.md R282, decision D11), so the
read is from the state both have written. -/
theorem execList_submit (q : QId) (head control : Word) (s : State) :
    execList [.headWr q head, .ctrlWr q control, .ctrlRd q] s = .next (controlRead q (submitted q head control s)) := rfl

/-- A control read that drains one granted descriptor is `exec` of its row on the marked queue, then the completion and
the answer (46_queue.md R284, R286, 47_mmio.md R305). -/
theorem controlRead_one {q : QId} {i : Instr} {s t : State} (hrun : runBit (s.queue q).control = true)
    (hcount : drainCount (s.queue q).tail (s.queue q).head = 1)
    (hgrant : grantAt s 0 (s.queue q).tail.toNat 32 false = 32)
    (hdecode : decode (.descriptor (s.gm.read (s.queue q).tail.toNat 32)) = .ok i)
    (hexec : exec i { afterRequests s 1 with draining := some q } = .next t) :
    controlRead q s = { t.setQueue q (completedQueue (s.queue q)) with
      draining := none, busData := wordBytes (completedControl (s.queue q).control) } := by
  rw [controlRead_running hrun, drain_one hcount hgrant hdecode hexec]
  rfl

/-- A control read leaves the Running queue it reads completed (46_queue.md R286). -/
theorem controlRead_queue_same {q : QId} {s : State} (hrun : runBit (s.queue q).control = true) :
    (controlRead q s).queue q = completedQueue (s.queue q) := by
  rw [controlRead_running hrun, State.respond_queue, drain_queue, if_pos rfl]

/-- Settles O50: the drain counts one descriptor, and a drain of one is `exec` of its row and the completion. -/
theorem lifecycleDrainsExactlyOne : Obligations.LifecycleDrainsExactlyOne := by
  unfold Obligations.LifecycleDrainsExactlyOne
  intro s q v i htail hrun hgrant hdecode
  have hcount := drainCount_eq_one (word_add_descSize_toNat htail)
  have hexec := exec_eq_fetchExecute (s := { submitted q ((s.queue q).tail + 32) v s with draining := some q })
    hgrant hdecode
  generalize fetchExecute (s.queue q).tail.toNat _ = u at hexec
  have hread := controlRead_one (s := submitted q ((s.queue q).tail + 32) v s) (q := q) (i := i) (t := u)
  have hend := controlRead_queue_same (s := submitted q ((s.queue q).tail + 32) v s) (q := q)
  simp only [submitted_queue] at hread hend
  obtain ⟨hclear, hhalt⟩ := completedControl_flags v
  refine ⟨_, u, hexec, execList_submit .., ?_⟩
  rw [hend hrun, hread hrun hcount hgrant hdecode hexec]
  exact ⟨rfl, rfl, rfl, rfl, rfl, rfl, rfl, hclear, hhalt, rfl⟩

end Sys2Proof.Machine

/-! The registers of a queue as direct accessors of its fields (47_mmio.md R304). -/
namespace Sys2Proof.Machine

/-- With `DRAIN_ON_CTRL_WRITE` false a control write only stores, whatever its run bit (47_mmio.md R306, 46_queue.md R282,
decision D11). -/
theorem controlWrite_false (q : QId) (v : Word) (s : State) :
    controlWrite false q v s = (s.setControl q v).acknowledge := rfl

theorem exec_ctrlWr (q : QId) (v : Word) (s : State) :
    exec (.ctrlWr q v) s = .next (s.setControl q v).acknowledge :=
  congrArg Host.Outcome.next (controlWrite_false q v s)

/-- A control read answers with the control of the state it leaves, a drain's included (47_mmio.md R305, decision D12). -/
theorem controlRead_busData (q : QId) (s : State) :
    (controlRead q s).busData = wordBytes ((controlRead q s).queue q).control := rfl

theorem exec_tailRd (q : QId) (s : State) : exec (.tailRd q) s = .next (s.respond (s.queue q).tail) := rfl
theorem exec_headRd (q : QId) (s : State) : exec (.headRd q) s = .next (s.respond (s.queue q).head) := rfl
theorem exec_statusRd (q : QId) (s : State) : exec (.statusRd q) s = .next (s.respond (s.queue q).status) := rfl

/-- An instruction that only answers with a word changes only the bus value, which holds the word's four bytes
(20_memory.md R68). -/
theorem exists_busData_of_exec {i : Instr} {s : State} {v : Word} (h : exec i s = .next (s.respond v)) :
    ∃ b, exec i s = .next { s with busData := b } ∧ le32 b = v ∧ b.length = 4 :=
  ⟨wordBytes v, h, le32_wordBytes v, wordBytes_length v⟩

/-- Settles O56: a write stores into its field, a control read answers with the control it leaves, and the other three
reads only answer. -/
theorem queueRegistersAreDirectAccessors : Obligations.QueueRegistersAreDirectAccessors := by
  unfold Obligations.QueueRegistersAreDirectAccessors
  intro s q v
  refine ⟨⟨exec_ctrlWr q v s, rfl, rfl, rfl⟩, ⟨controlRead q s, rfl, ?_, ?_⟩, exists_busData_of_exec (exec_tailRd q s),
    exists_busData_of_exec (exec_headRd q s), exists_busData_of_exec (exec_statusRd q s)⟩
  · rw [controlRead_busData, le32_wordBytes]
  · rw [controlRead_busData, wordBytes_length]

end Sys2Proof.Machine

/-! What a descriptor appends to the log (60_exceptions.md R341, R345): each engine ends at its first failing test, and the
one warning, of the mapping of ZLIB's destination, is followed by no call that can fail. -/
namespace Sys2Proof.Machine

/-- The event is none of the MMIO front-end's, codes 7, 9 and 10 (60_exceptions.md R341). -/
def DiagEvent.OfDescriptor (e : DiagEvent) : Prop := e.code ∈ [1, 2, 3, 4, 5, 6, 8]

/-- The log of `t` is that of `s`, or that with one event of a descriptor more, under the label of `s`. -/
def LogsAtMostOne (s t : State) : Prop :=
  t.diag = s.diag ∨ ∃ e, t.diag = s.diag ++ [⟨s.diagQueue, e⟩] ∧ e.OfDescriptor

/-! ### The operations that log, and the stores, which do not -/

theorem diagnose_logsAtMostOne {e : DiagEvent} (h : e.OfDescriptor) (s : State) :
    LogsAtMostOne s (s.diagnose e) := .inr ⟨e, rfl, h⟩

theorem skipWith_logsAtMostOne {e : DiagEvent} (h : e.OfDescriptor) (s : State) :
    LogsAtMostOne s (skipWith e s).2 := diagnose_logsAtMostOne h s

/-- A failed access logs one aborting event (40_shim_scratch.md R158). -/
theorem failedAccess_logsAtMostOne (s : State) (k : Nat) (mt : MemType) (a n : Nat) (w : Bool) :
    LogsAtMostOne s (failedAccess s k mt a n w) :=
  have haborting : [4, 5, 6] ⊆ [1, 2, 3, 4, 5, 6, 8] := by decide
  .inr ⟨_, rfl, haborting (accessFailure_code s k mt a n w)⟩

@[simp] theorem writeGranted_diag (mt : MemType) (a : Nat) (v : Bytes) (s : State) :
    (writeGranted mt a v s).diag = s.diag := by cases mt <;> rfl

/-! ### The engines -/

/-- The write of the digest is the finish's only call that can fail (42_hash.md R205, decision D23). -/
theorem hashFinish_logsAtMostOne (d : Desc) (c : HashCtx) (s : State) : LogsAtMostOne s (hashFinish d c s).2 := by
  rcases hashFinish_cases d c s with ⟨-, r⟩ | ⟨-, -, r⟩ | ⟨-, -, r⟩ <;> rw [r]
  · exact .inl rfl
  · exact .inl rfl
  · exact .inr ⟨_, rfl, by simp [DiagEvent.OfDescriptor, DiagEvent.code]⟩

theorem shaEngine_logsAtMostOne (t : HashType) (d : Desc) (s : State) : LogsAtMostOne s (shaEngine t d s).2 := by
  rcases shaEngine_cases t d s with ⟨-, r⟩ | ⟨-, r⟩ <;> rw [r]
  · exact failedAccess_logsAtMostOne s ..
  · exact hashFinish_logsAtMostOne d _ { afterRequests s (sourceRequests d) with hctx := some (hashCtxOr t s) }

theorem rsaFinish_logsAtMostOne (d : Desc) (size : Nat) (e n m : Bytes) (s : State) :
    LogsAtMostOne s (rsaFinish d size e n m s).2 := by
  rcases rsaFinish_cases d size e n m s with ⟨-, r⟩ | ⟨-, -, r⟩ | ⟨-, -, r⟩ <;> rw [r]
  · exact diagnose_logsAtMostOne (by simp [DiagEvent.OfDescriptor, DiagEvent.code]) s
  · exact failedAccess_logsAtMostOne s ..
  · exact .inl (writeGranted_diag ..)

/-- The first range that cannot be read ends the operation (43_rsa.md R222). -/
theorem rsaEngine_logsAtMostOne (size : Nat) (d : Desc) (s : State) : LogsAtMostOne s (rsaEngine size d s).2 := by
  rcases rsaEngine_reads size d s with ⟨-, r⟩ | ⟨-, -, r⟩ | ⟨-, -, -, r⟩ | ⟨-, r⟩ <;> rw [r]
  · exact failedAccess_logsAtMostOne s ..
  · exact failedAccess_logsAtMostOne s ..
  · exact failedAccess_logsAtMostOne s ..
  · exact rsaFinish_logsAtMostOne d size _ _ _ (afterRequests s (rsaRequests d size))

/-- A transfer whose source cannot be read does not map its destination (44_passthru.md R242). -/
theorem ptTransfer_logsAtMostOne (f : Bytes → Bytes) (d : Desc) (s : State) :
    LogsAtMostOne s (ptTransfer f d s).2 := by
  rcases ptTransfer_cases f d s with ⟨-, r⟩ | ⟨-, -, r⟩ | ⟨-, -, r⟩ <;> rw [r]
  · exact failedAccess_logsAtMostOne s ..
  · exact failedAccess_logsAtMostOne s ..
  · exact .inl (writeGranted_diag ..)

theorem ptSwap256With_logsAtMostOne (whole : Bool) (d : Desc) (s : State) :
    LogsAtMostOne s (ptSwap256With whole d s).2 := by
  unfold ptSwap256With
  split
  · exact skipWith_logsAtMostOne (by simp [DiagEvent.OfDescriptor, DiagEvent.code]) s
  · exact ptTransfer_logsAtMostOne (swap256 whole) d s

/-- After the mapping of the destination, which warns of a short grant, the output is only stored (40_shim_scratch.md R154,
45_zlib.md R260). -/
theorem zlibInflateEffect_logsAtMostOne (d : Desc) (s : State) : LogsAtMostOne s (zlibInflateEffect d s).2 := by
  rcases zlibInflateEffect_cases d s with
    ⟨-, r⟩ | ⟨-, -, r⟩ | ⟨-, -, -, r⟩ | ⟨-, -, -, r⟩ | ⟨-, -, -, r⟩ | ⟨-, -, -, r⟩ <;> rw [r]
  · exact failedAccess_logsAtMostOne s ..
  · exact failedAccess_logsAtMostOne s ..
  · exact .inl (writeGranted_diag ..)
  · exact diagnose_logsAtMostOne (by simp [DiagEvent.OfDescriptor, DiagEvent.code]) (afterRequests s _)
  · exact .inl (writeGranted_diag ..)
  · exact .inr ⟨_, writeGranted_diag .., by simp [DiagEvent.OfDescriptor, DiagEvent.code]⟩

/-! ### The dispatcher -/

/-- The no-op and unsupported rows log their one event, RSA_SKIP logs none (43_rsa.md R227), and the other descriptor rows
are their engines; no MMIO row reaches the dispatcher. -/
theorem dispatch_logsAtMostOne (i : Instr) (s : State) : LogsAtMostOne s (dispatch i s).2 := by
  cases i with
  | aes _ | xtsAes128 _ | des3 _ | ecc _ | unknownEngine _ | shaUnsupported _ | ptBitwiseUnimpl _ | ptSwapUnimpl _
  | zlibUnimpl _ => exact skipWith_logsAtMostOne (by simp [DiagEvent.OfDescriptor, DiagEvent.code]) s
  | sha256 d | sha384 d => exact shaEngine_logsAtMostOne _ d s
  | rsa2048 d | rsa4096 d => exact rsaEngine_logsAtMostOne _ d s
  | ptCopy d => exact ptTransfer_logsAtMostOne id d s
  | ptSwap256 d => exact ptSwap256With_logsAtMostOne _ d s
  | zlibInflate d => exact zlibInflateEffect_logsAtMostOne d s
  | _ => exact .inl rfl

/-- Settles O20: a descriptor is the dispatcher on its row, and each engine logs at most one event. -/
theorem descriptorLogsAtMostOneEvent : Obligations.DescriptorLogsAtMostOneEvent := by
  unfold Obligations.DescriptorLogsAtMostOneEvent
  intro i d s t hrow hexec
  obtain rfl : (dispatch i s).2 = t := Host.Outcome.next.inj ((exec_descriptor hrow s).symm.trans hexec)
  exact dispatch_logsAtMostOne i s

end Sys2Proof.Machine

/-! The decoder against the encoder, instruction by instruction (30_encoding.md R118, R119; 47_mmio.md R300): every row
is the one its own conditions select, and an access is the one its instruction names. -/
namespace Sys2Proof.Machine

/-! ### Descriptor rows -/

/-- A descriptor row is encoded as its descriptor. -/
theorem encode_descriptor {i : Instr} {d : Desc} (h : descriptorOf i = some d) :
    encode i = .descriptor (encodeDesc d) := by
  cases i <;> cases h
  all_goals rfl

/-- Both implemented byteswap codes tested, the row that is left (44_passthru.md R245). -/
theorem classify_passthru_swapUnimpl {d : Desc} (hengine : d.engine = Config.engPassthru)
    (hbitwise : d.bitwise = Config.bitwiseNoop) (hcopy : d.byteswap ≠ Config.swapNoop)
    (h256 : d.byteswap ≠ Config.swap256) : classify d = .ptSwapUnimpl d := by
  rw [classify_passthru d hengine, if_neg (not_not.mpr hbitwise), if_neg hcopy, if_neg h256]

/-- The conditions of an instruction's row select that row (30_encoding.md R119). -/
theorem classify_of_wellFormed {i : Instr} {d : Desc} (hrow : descriptorOf i = some d) (h : i.wellFormed = true) :
    classify d = i := by
  cases i with
  | aes _ => cases hrow; exact classify_aes d (eq_of_beq h)
  | xtsAes128 _ => cases hrow; exact classify_xts d (eq_of_beq h)
  | des3 _ => cases hrow; exact classify_des3 d (eq_of_beq h)
  | ecc _ => cases hrow; exact classify_ecc d (eq_of_beq h)
  | unknownEngine _ => cases hrow; exact classify_unknown d h
  | sha256 _ | sha384 _ =>
    cases hrow
    simp only [Instr.wellFormed, Bool.and_eq_true, beq_iff_eq] at h
    simp [classify_sha d, h]
  | shaUnsupported _ =>
    cases hrow
    simp only [Instr.wellFormed, Bool.and_eq_true, beq_iff_eq, bne_iff_ne] at h
    obtain ⟨⟨hengine, h256⟩, h384⟩ := h
    exact classify_sha_unsupported hengine h256 h384
  | rsa2048 _ | rsaSkip _ =>
    cases hrow
    simp only [Instr.wellFormed, Bool.and_eq_true, beq_iff_eq, Bool.not_eq_true'] at h
    simp [classify_rsa d, h]
  | rsa4096 _ =>
    cases hrow
    simp only [Instr.wellFormed, Bool.and_eq_true, beq_iff_eq] at h
    obtain ⟨hengine, h4096⟩ := h
    have h2048 : d.isRsa2048 = false := by
      simp only [Desc.isRsa4096, Bool.and_eq_true, beq_iff_eq] at h4096
      simp [Desc.isRsa2048, h4096]
    simp [classify_rsa d hengine, h2048, h4096]
  | ptBitwiseUnimpl _ =>
    cases hrow
    simp only [Instr.wellFormed, Bool.and_eq_true, beq_iff_eq, bne_iff_ne] at h
    obtain ⟨hengine, hbitwise⟩ := h
    exact classify_passthru_bitwise hengine hbitwise
  | ptCopy _ | ptSwap256 _ =>
    cases hrow
    simp only [Instr.wellFormed, Bool.and_eq_true, beq_iff_eq] at h
    simp [classify_passthru d, h]
  | ptSwapUnimpl _ =>
    cases hrow
    simp only [Instr.wellFormed, Bool.and_eq_true, beq_iff_eq, bne_iff_ne] at h
    obtain ⟨⟨⟨hengine, hbitwise⟩, hcopy⟩, h256⟩ := h
    exact classify_passthru_swapUnimpl hengine hbitwise hcopy h256
  | zlibInflate _ | zlibUnimpl _ =>
    cases hrow
    simp only [Instr.wellFormed, Bool.and_eq_true, beq_iff_eq, Bool.not_eq_true'] at h
    simp [classify_zlib d, h]
  | _ => cases hrow

/-- The row the decoder selects has its own conditions met. -/
theorem classify_wellFormed (d : Desc) : (classify d).wellFormed = true := by
  rcases engine_cases d.engine with he | he | he | he | he | he | he | he | he
  · rw [classify_aes d he]; exact beq_iff_eq.mpr he
  · rw [classify_xts d he]; exact beq_iff_eq.mpr he
  · rw [classify_des3 d he]; exact beq_iff_eq.mpr he
  · rw [classify_sha d he]; split_ifs <;> simp_all [Instr.wellFormed]
  · rw [classify_rsa d he]; split_ifs <;> simp [Instr.wellFormed, *]
  · rw [classify_passthru d he]; split_ifs <;> simp_all [Instr.wellFormed]
  · rw [classify_zlib d he]
    cases hbits : d.init && d.eom <;> simp [Instr.wellFormed, he, hbits]
  · rw [classify_ecc d he]; exact beq_iff_eq.mpr he
  · rw [classify_unknown d he]; exact he

/-- Settles O3: the row of the decoded fields, or the length error. -/
theorem everyDescriptorDecodes : Obligations.EveryDescriptorDecodes := by
  unfold Obligations.EveryDescriptorDecodes
  exact fun bytes => ⟨fun hlen => ⟨_, decode_descriptor hlen, classify_wellFormed _, descriptorOf_classify _⟩,
    fun hlen => if_neg hlen⟩

/-! ### Accesses -/

/-- A 4-byte access at an aligned offset of the window is routed by its direction (47_mmio.md R301, R318). -/
theorem decode_read32 {o : Nat} (hin : o + 4 ≤ Config.windowSize) (halign : o % 4 = 0) :
    decode (read32 o) = decodeRead o := by
  have hconf : conforming o 4 = true := by simp [conforming, halign]
  simp [decode, read32, decodeAccess, Access.offset, Access.size, hconf, Nat.not_lt.mpr hin]

theorem decode_write32 {o : Nat} (v : Word) (hin : o + 4 ≤ Config.windowSize) (halign : o % 4 = 0) :
    decode (write32 o v) = decodeWrite o v := by
  have hconf : conforming o 4 = true := by simp [conforming, halign]
  simp [decode, write32, decodeAccess, Access.offset, Access.size, hconf, Nat.not_lt.mpr hin]

/-- An access of the window of another size or alignment is MMIO_BAD_ACCESS (47_mmio.md R301). -/
theorem decode_badAccess {a : Access} (hin : a.offset + a.size ≤ Config.windowSize)
    (hconf : conforming a.offset a.size = false) :
    decode (.access a) = .ok (.mmioBadAccess a.isWrite a.offset a.size) := by
  simp [decode, decodeAccess, Nat.not_lt.mpr hin, hconf]

/-- The instruction of a read of register `r` of queue `q` (47_mmio.md R305 to R315). -/
theorem decodeRead_queue (q : QId) (r : BitVec 12) :
    decodeRead (queueRegOffset q r) =
      .ok (if r = Config.regCtrl then .ctrlRd q else if r = Config.regTail then .tailRd q
        else if r = Config.regHead then .headRd q else if r = Config.regStatus then .statusRd q
        else .queueUnknownReg q r none) := by
  unfold decodeRead
  rw [route_queue]
  dsimp only
  split_ifs <;> rfl

theorem decodeWrite_queue (q : QId) (r : BitVec 12) (v : Word) :
    decodeWrite (queueRegOffset q r) v =
      .ok (if r = Config.regCtrl then .ctrlWr q v else if r = Config.regTail then .tailWr q v
        else if r = Config.regHead then .headWr q v else if r = Config.regStatus then .statusWr q v
        else .queueUnknownReg q r (some v)) := by
  unfold decodeWrite
  rw [route_queue]
  dsimp only
  split_ifs <;> rfl

theorem decodeRead_global (o : BitVec 12) : decodeRead (Config.globalBase + o.toNat) = .ok (.globalRd o) := by
  unfold decodeRead; rw [route_global]

theorem decodeWrite_global (o : BitVec 12) (v : Word) :
    decodeWrite (Config.globalBase + o.toNat) v = .ok (.globalWr o v) := by
  unfold decodeWrite; rw [route_global]

theorem decodeRead_config (o : BitVec 12) : decodeRead (Config.cfgBase + o.toNat) = .ok (.cfgRd o) := by
  unfold decodeRead; rw [route_config]

theorem decodeWrite_config (o : BitVec 12) (v : Word) :
    decodeWrite (Config.cfgBase + o.toNat) v = .ok (.cfgWr o v) := by
  unfold decodeWrite; rw [route_config]

theorem wordAligned_iff {r : BitVec 12} : wordAligned r = true ↔ r.toNat % 4 = 0 := beq_iff_eq

theorem isQueueReg_iff {r : BitVec 12} : isQueueReg r = true ↔
    r = Config.regCtrl ∨ r = Config.regTail ∨ r = Config.regHead ∨ r = Config.regStatus := by
  simp only [isQueueReg, Bool.or_eq_true, beq_iff_eq, or_assoc]

section
variable {q : QId} {r o : BitVec 12}

/-- A 4-byte access at a whole word of a region is routed by its direction. -/
theorem decode_read32_region {base : Nat} (hbase : base ≤ 0x6000) (hword : base % 4 = 0) (h : wordAligned o = true) :
    decode (read32 (base + o.toNat)) = decodeRead (base + o.toNat) := by
  have halign := wordAligned_iff.mp h
  exact decode_read32 (Laws.EncodeShape.offset_le o hbase hword h) (by omega)

theorem decode_write32_region {base : Nat} (v : Word) (hbase : base ≤ 0x6000) (hword : base % 4 = 0)
    (h : wordAligned o = true) : decode (write32 (base + o.toNat) v) = decodeWrite (base + o.toNat) v := by
  have halign := wordAligned_iff.mp h
  exact decode_write32 v (Laws.EncodeShape.offset_le o hbase hword h) (by omega)

/-- The queue regions start at whole words of the window (47_mmio.md R300). -/
theorem queueRegion_base (q : QId) :
    Config.qBase + q.val * Config.qStride ≤ 0x6000 ∧ (Config.qBase + q.val * Config.qStride) % 4 = 0 := by
  have hq : q.val < 5 := q.isLt
  simp only [Config.qBase, Config.qStride]
  omega

theorem decode_read32_queue (h : wordAligned r = true) :
    decode (read32 (queueRegOffset q r)) = decodeRead (queueRegOffset q r) :=
  decode_read32_region (queueRegion_base q).1 (queueRegion_base q).2 h

theorem decode_write32_queue (v : Word) (h : wordAligned r = true) :
    decode (write32 (queueRegOffset q r) v) = decodeWrite (queueRegOffset q r) v :=
  decode_write32_region v (queueRegion_base q).1 (queueRegion_base q).2 h

/-- An offset of a queue region that holds no register is QUEUE_UNKNOWN_REG (47_mmio.md R315). -/
theorem decode_queueUnknownReg (v : Option Word) (h : wordAligned r = true) (hreg : isQueueReg r = false) :
    decode (encode (.queueUnknownReg q r v)) = .ok (.queueUnknownReg q r v) := by
  simp only [← Bool.not_eq_true, isQueueReg_iff, not_or] at hreg
  obtain ⟨hctrl, htail, hhead, hstatus⟩ := hreg
  cases v with
  | none =>
    rw [encode, decode_read32_queue h, decodeRead_queue, if_neg hctrl, if_neg htail, if_neg hhead, if_neg hstatus]
  | some v =>
    rw [encode, decode_write32_queue v h, decodeWrite_queue, if_neg hctrl, if_neg htail, if_neg hhead,
      if_neg hstatus]

end

/-- The event of a control read is the access that CTRL_RD encodes (47_mmio.md R305). -/
theorem decode_ctrlRd (q : QId) : decode (.access (.read (queueRegOffset q Config.regCtrl) 4)) = .ok (.ctrlRd q) := by
  change decode (read32 (queueRegOffset q Config.regCtrl)) = _
  rw [decode_read32_queue rfl, decodeRead_queue]
  rfl

/-- The MMIO rows come back from their accesses. -/
theorem decode_encode_mmio {i : Instr} (hrow : descriptorOf i = none) (h : i.wellFormed = true) :
    decode (encode i) = .ok i := by
  cases i with
  | mmioBadAccess isWrite o n =>
    simp only [Instr.wellFormed, Bool.and_eq_true, decide_eq_true_eq, Bool.not_eq_true'] at h
    obtain ⟨hin, hconf⟩ := h
    cases isWrite with
    | false => exact decode_badAccess (a := .read o n) hin hconf
    | true =>
      have hlen : (List.replicate n (0 : Byte)).length = n := List.length_replicate
      have hdecode := decode_badAccess (a := .write o (List.replicate n 0))
      simp only [Access.offset, Access.size, hlen] at hdecode
      exact hdecode hin hconf
  | globalRd o => rw [encode, decode_read32_region (by decide) (by decide) h, decodeRead_global]
  | globalWr o v => rw [encode, decode_write32_region v (by decide) (by decide) h, decodeWrite_global]
  | ctrlRd q => exact decode_ctrlRd q
  | tailRd q | headRd q | statusRd q => rw [encode, decode_read32_queue rfl, decodeRead_queue]; rfl
  | ctrlWr q v | tailWr q v | headWr q v | statusWr q v =>
    rw [encode, decode_write32_queue v rfl, decodeWrite_queue]; rfl
  | queueUnknownReg q r v =>
    simp only [Instr.wellFormed, Bool.and_eq_true, Bool.not_eq_true'] at h
    obtain ⟨halign, hreg⟩ := h
    exact decode_queueUnknownReg v halign hreg
  | cfgRd o => rw [encode, decode_read32_region (by decide) (by decide) h, decodeRead_config]
  | cfgWr o v => rw [encode, decode_write32_region v (by decide) (by decide) h, decodeWrite_config]
  | _ => cases hrow

/-- Settles O1: a descriptor row comes back from its fields, an MMIO row from its access. -/
theorem decodeEncodeAgree : Obligations.DecodeEncodeAgree := by
  unfold Obligations.DecodeEncodeAgree
  intro i h
  cases hrow : descriptorOf i with
  | some d => rw [encode_descriptor hrow, decode_encodeDesc, classify_of_wellFormed hrow h]
  | none => exact decode_encode_mmio hrow h

/-! ### Every access of the window -/

/-- The 4-byte access at `o` that `v` is the value of: a read where there is none (47_mmio.md R317). -/
def access32 (o : Nat) : Option Word → Encoded
  | none => read32 o
  | some v => write32 o v

/-- The regions cover the window: no offset of it is unmapped (47_mmio.md R300, R316). -/
theorem window_offset_cases {o : Nat} (h : o < Config.windowSize) :
    (∃ g : BitVec 12, o = Config.globalBase + g.toNat) ∨ (∃ (q : QId) (r : BitVec 12), o = queueRegOffset q r) ∨
      ∃ c : BitVec 12, o = Config.cfgBase + c.toNat := by
  simp only [Config.windowSize] at h
  rcases Nat.lt_or_ge o 0x1000 with hglobal | hglobal
  · exact .inl ⟨BitVec.ofNat 12 o, by simp only [Config.globalBase, BitVec.toNat_ofNat]; omega⟩
  rcases Nat.lt_or_ge o 0x6000 with hqueue | hqueue
  · refine .inr (.inl ⟨⟨(o - 0x1000) / 0x1000, by simp only [Config.nQueues]; omega⟩, BitVec.ofNat 12 o, ?_⟩)
    simp only [queueRegOffset, Config.qBase, Config.qStride, BitVec.toNat_ofNat]
    omega
  · exact .inr (.inr ⟨BitVec.ofNat 12 o, by simp only [Config.cfgBase, BitVec.toNat_ofNat]; omega⟩)

/-- Every whole word of a queue region is encoded by an instruction, register or not (47_mmio.md R305 to R315). -/
theorem exists_encode_eq_queue (q : QId) {r : BitVec 12} (halign : wordAligned r = true) (v : Option Word) :
    ∃ i : Instr, i.wellFormed = true ∧ descriptorOf i = none ∧ encode i = access32 (queueRegOffset q r) v := by
  cases hreg : isQueueReg r with
  | false => exact ⟨.queueUnknownReg q r v, by simp [Instr.wellFormed, halign, hreg], rfl, by cases v <;> rfl⟩
  | true =>
    cases v with
    | none =>
      rcases isQueueReg_iff.mp hreg with rfl | rfl | rfl | rfl
      · exact ⟨.ctrlRd q, rfl, rfl, rfl⟩
      · exact ⟨.tailRd q, rfl, rfl, rfl⟩
      · exact ⟨.headRd q, rfl, rfl, rfl⟩
      · exact ⟨.statusRd q, rfl, rfl, rfl⟩
    | some v =>
      rcases isQueueReg_iff.mp hreg with rfl | rfl | rfl | rfl
      · exact ⟨.ctrlWr q v, rfl, rfl, rfl⟩
      · exact ⟨.tailWr q v, rfl, rfl, rfl⟩
      · exact ⟨.headWr q v, rfl, rfl, rfl⟩
      · exact ⟨.statusWr q v, rfl, rfl, rfl⟩

/-- Every whole word of the window is encoded by an instruction, read or written. -/
theorem exists_encode_eq_access32 {o : Nat} (hin : o + 4 ≤ Config.windowSize) (halign : o % 4 = 0)
    (v : Option Word) : ∃ i : Instr, i.wellFormed = true ∧ descriptorOf i = none ∧ encode i = access32 o v := by
  rcases window_offset_cases (o := o) (by omega) with ⟨g, rfl⟩ | ⟨q, r, rfl⟩ | ⟨c, rfl⟩
  · have hg : wordAligned g = true := wordAligned_iff.mpr (by simpa [Config.globalBase] using halign)
    cases v with
    | none => exact ⟨.globalRd g, hg, rfl, rfl⟩
    | some v => exact ⟨.globalWr g v, hg, rfl, rfl⟩
  · have hbase := (queueRegion_base q).2
    exact exists_encode_eq_queue q (wordAligned_iff.mpr (by unfold queueRegOffset at halign; omega)) v
  · have hc : wordAligned c = true := wordAligned_iff.mpr (by simp only [Config.cfgBase] at halign; omega)
    cases v with
    | none => exact ⟨.cfgRd c, hc, rfl, rfl⟩
    | some v => exact ⟨.cfgWr c v, hc, rfl, rfl⟩

/-- A conforming access is a 4-byte access at an aligned offset; a write's bytes are those of its word (00_scope.md
R11). -/
theorem exists_access32_of_conforming {a : Access} (h : conforming a.offset a.size = true) :
    a.size = 4 ∧ a.offset % 4 = 0 ∧ ∃ v, .access a = access32 a.offset v := by
  simp only [conforming, Bool.and_eq_true, beq_iff_eq] at h
  obtain ⟨hsize, halign⟩ := h
  refine ⟨hsize, halign, ?_⟩
  cases a with
  | read o n => exact ⟨none, by cases hsize; rfl⟩
  | write o data =>
    match data, hsize with
    | [b0, b1, b2, b3], _ =>
      exact ⟨some (le32 [b0, b1, b2, b3]), by simp only [access32, write32, wordBytes_le32]; rfl⟩

/-- Settles O7: a conforming access is the encoding of an MMIO row, which decodes back; any other of the window is
MMIO_BAD_ACCESS. -/
theorem everyAccessInWindowDecodes : Obligations.EveryAccessInWindowDecodes := by
  unfold Obligations.EveryAccessInWindowDecodes
  intro a hin
  cases hconf : conforming a.offset a.size with
  | false => exact ⟨_, decode_badAccess hin hconf, by simp [Instr.wellFormed, hin, hconf], rfl, nofun⟩
  | true =>
    obtain ⟨hsize, halign, v, ha⟩ := exists_access32_of_conforming hconf
    obtain ⟨i, hwf, hrow, hencode⟩ := exists_encode_eq_access32 (by omega) halign v
    rw [ha, ← hencode]
    exact ⟨i, decode_encode_mmio hrow hwf, hwf, hrow, fun _ => rfl⟩

/-- Settles O8: each conjunct is one evaluation of the decoder. -/
theorem sampleWordsDecode : Obligations.SampleWordsDecode := by
  unfold Obligations.SampleWordsDecode
  refine ⟨?_, ?_, ?_, ?_, ?_, ?_, ?_, ?_, ?_⟩ <;> decide

end Sys2Proof.Machine

/-! The opcode table against the decoder's row (30_encoding.md R119): a row's `match` and `mask` are conditions on
fields of W0, and searching the rows in order tests the conditions in the order the decoder does. -/
namespace Sys2Proof.Machine

/-! ### A masked comparison as conditions on fields -/

/-- A word agrees with a pattern under a mask where it agrees in each of the fields, by first bit and width, that make
up the mask. -/
theorem and_eq_iff_fields {w : Nat} {m p : BitVec w} (fields : List (Nat × Nat))
    (hmask : ∀ k < w, m.getLsbD k = true ↔ ∃ f ∈ fields, f.1 ≤ k ∧ k < f.1 + f.2) (hpattern : p &&& m = p)
    (x : BitVec w) : x &&& m = p ↔ ∀ f ∈ fields, x.extractLsb' f.1 f.2 = p.extractLsb' f.1 f.2 := by
  constructor
  · rintro h f hf
    apply BitVec.eq_of_getLsbD_eq
    intro j hj
    rw [BitVec.getLsbD_extractLsb', BitVec.getLsbD_extractLsb']
    rcases Nat.lt_or_ge (f.1 + j) w with hlt | hge
    · have hbit := (hmask (f.1 + j) hlt).mpr ⟨f, hf, by omega, by omega⟩
      rw [getLsbD_eq_of_and_eq (h.trans hpattern.symm) hbit]
    · rw [BitVec.getLsbD_of_ge x _ hge, BitVec.getLsbD_of_ge p _ hge]
  · intro h
    rw [← hpattern]
    apply BitVec.eq_of_getLsbD_eq
    intro k hk
    rw [BitVec.getLsbD_and, BitVec.getLsbD_and]
    cases hbit : m.getLsbD k with
    | false => rw [Bool.and_false, Bool.and_false]
    | true =>
      obtain ⟨f, hf, hlo, hhi⟩ := (hmask k hk).mp hbit
      have hfield := congrArg (BitVec.getLsbD · (k - f.1)) (h f hf)
      simp only [BitVec.getLsbD_extractLsb', show f.1 + (k - f.1) = k by omega,
        show k - f.1 < f.2 by omega, decide_true, Bool.true_and] at hfield
      rw [hfield]

/-- A masked comparison with a pattern of the opcode table, as the comparison of the mask's fields. -/
theorem and_beq_eq_all_fields {m p : Word} (fields : List (Nat × Nat))
    (hmask : ∀ k < 32, m.getLsbD k = true ↔ ∃ f ∈ fields, f.1 ≤ k ∧ k < f.1 + f.2) (hpattern : p &&& m = p)
    (x : Word) : (x &&& m == p) = fields.all fun f => x.extractLsb' f.1 f.2 == p.extractLsb' f.1 f.2 := by
  rw [Bool.eq_iff_iff, beq_iff_eq, and_eq_iff_fields fields hmask hpattern x]
  simp

/-- One-bit fields are alike where the bits are. -/
theorem extractLsb'_one_beq {w : Nat} (x p : BitVec w) (k : Nat) :
    (x.extractLsb' k 1 == p.extractLsb' k 1) = (x.getLsbD k == p.getLsbD k) := by
  rw [Bool.eq_iff_iff, beq_iff_eq, beq_iff_eq]
  refine ⟨fun h => by simpa using congrArg (BitVec.getLsbD · 0) h, fun h => extractLsb'_eq_of_bits fun j hj => ?_⟩
  obtain rfl : j = 0 := by omega
  simpa using h

section
variable {p : Word} (x : Word)

/-- The mask of the engine alone. -/
theorem and_engineMask (h : p &&& 0x00F00000 = p) :
    (x &&& 0x00F00000 == p) = (x.extractLsb' 20 4 == p.extractLsb' 20 4) := by
  rw [and_beq_eq_all_fields [(20, 4)] (by decide) h]
  simp

/-- The mask of engine and hash type (30_encoding.md R106). -/
theorem and_shaMask (h : p &&& 0x00F78000 = p) :
    (x &&& 0x00F78000 == p) =
      (x.extractLsb' 20 4 == p.extractLsb' 20 4 && x.extractLsb' 15 4 == p.extractLsb' 15 4) := by
  rw [and_beq_eq_all_fields [(20, 4), (15, 4)] (by decide) h]
  simp

/-- The mask of engine, RSA mode and RSA size (30_encoding.md R107). -/
theorem and_rsaMask (h : p &&& 0x00FFFFE0 = p) :
    (x &&& 0x00FFFFE0 == p) = (x.extractLsb' 20 4 == p.extractLsb' 20 4 &&
      (x.extractLsb' 5 3 == p.extractLsb' 5 3 && x.extractLsb' 8 12 == p.extractLsb' 8 12)) := by
  rw [and_beq_eq_all_fields [(20, 4), (5, 3), (8, 12)] (by decide) h]
  simp

/-- The mask of engine, bitwise code and byteswap code (30_encoding.md R107). -/
theorem and_passthruMask (h : p &&& 0x00F003E0 = p) :
    (x &&& 0x00F003E0 == p) = (x.extractLsb' 20 4 == p.extractLsb' 20 4 &&
      (x.extractLsb' 7 3 == p.extractLsb' 7 3 && x.extractLsb' 5 2 == p.extractLsb' 5 2)) := by
  rw [and_beq_eq_all_fields [(20, 4), (7, 3), (5, 2)] (by decide) h]
  simp

/-- The mask of engine, bitwise code and the low bit of the byteswap code. -/
theorem and_swapUnimplMask (h : p &&& 0x00F003A0 = p) :
    (x &&& 0x00F003A0 == p) = (x.extractLsb' 20 4 == p.extractLsb' 20 4 &&
      (x.extractLsb' 7 3 == p.extractLsb' 7 3 && x.getLsbD 5 == p.getLsbD 5)) := by
  rw [and_beq_eq_all_fields [(20, 4), (7, 3), (5, 1)] (by decide) h]
  simp [extractLsb'_one_beq]

/-- The mask of engine, `init` and `eom` (30_encoding.md R101). -/
theorem and_zlibMask (h : p &&& 0x00F00018 = p) :
    (x &&& 0x00F00018 == p) = (x.extractLsb' 20 4 == p.extractLsb' 20 4 &&
      (x.getLsbD 3 == p.getLsbD 3 && x.getLsbD 4 == p.getLsbD 4)) := by
  rw [and_beq_eq_all_fields [(20, 4), (3, 1), (4, 1)] (by decide) h]
  simp [extractLsb'_one_beq]

/-- The mask of the engine's high bit. -/
theorem and_unknownMask (h : p &&& 0x00800000 = p) :
    (x &&& 0x00800000 == p) = (x.getLsbD 23 == p.getLsbD 23) := by
  rw [and_beq_eq_all_fields [(23, 1)] (by decide) h]
  simp [extractLsb'_one_beq]

end

/-! ### The rows as conditions on the decoded descriptor -/

/-- The rows of the opcode table over the fields of a descriptor, each with its mnemonic. -/
def fieldTable (d : Desc) : List (Bool × String) :=
  [ (d.engine == Config.engAes, "AES"),
    (d.engine == Config.engXts, "XTS_AES_128"),
    (d.engine == Config.engDes3, "DES3"),
    (d.engine == Config.engSha && d.shaType == Config.typeSha256, "SHA256"),
    (d.engine == Config.engSha && d.shaType == Config.typeSha384, "SHA384"),
    (d.engine == Config.engSha && (d.shaType != Config.typeSha256 && d.shaType != Config.typeSha384),
      "SHA_UNSUPPORTED"),
    (d.engine == Config.engRsa && d.isRsa2048, "RSA_2048"),
    (d.engine == Config.engRsa && d.isRsa4096, "RSA_4096"),
    (d.engine == Config.engRsa, "RSA_SKIP"),
    (d.engine == Config.engPassthru && d.bitwise != Config.bitwiseNoop, "PT_BITWISE_UNIMPL"),
    (d.engine == Config.engPassthru && (d.bitwise == Config.bitwiseNoop && d.byteswap == Config.swapNoop), "PT_COPY"),
    (d.engine == Config.engPassthru && (d.bitwise == Config.bitwiseNoop && d.byteswap == Config.swap256),
      "PT_SWAP256"),
    (d.engine == Config.engPassthru && (d.bitwise == Config.bitwiseNoop && d.byteswap.getLsbD 0), "PT_SWAP_UNIMPL"),
    (d.engine == Config.engZlib && (d.init && d.eom), "ZLIB_INFLATE"),
    (d.engine == Config.engZlib, "ZLIB_UNIMPL"),
    (d.engine == Config.engEcc, "ECC"),
    (d.engine.getLsbD 3, "UNKNOWN_ENGINE") ]

/-- The rows of spec/opcode_table.json hold of words where the conditions of `fieldTable` hold of their fields. -/
theorem opcodeTable_eq_fieldTable (w0 w1 w2 w3 w4 w5 w6 w7 : Word) :
    opcodeTable.map (fun r => (r.holds w0 w1, r.mnemonic)) = fieldTable (descOfWords w0 w1 w2 w3 w4 w5 w6 w7) := by
  simp (disch := decide) only [opcodeTable, plainRow, List.map_cons, List.map_nil, OpcodeRow.holds, Bool.and_true,
    and_engineMask, and_shaMask, and_rsaMask, and_passthruMask, and_swapUnimplMask, and_zlibMask, and_unknownMask]
  simp only [fieldTable, Desc.isRsa2048, Desc.isRsa4096, descOfWords_engine, descOfWords_shaType, descOfWords_rsaMode,
    descOfWords_rsaSize, descOfWords_bitwise, descOfWords_byteswap]
  simp [descOfWords, Bool.and_assoc]

/-- Searching the conditions in order finds the decoder's row. -/
theorem find?_fieldTable (d : Desc) :
    ((fieldTable d).find? Prod.fst).map Prod.snd = some (classify d).mnemonic := by
  rcases engine_cases d.engine with he | he | he | he | he | he | he | he | he
  · rw [classify_aes d he]; simp [fieldTable, he, Instr.mnemonic]
  · rw [classify_xts d he]; simp [fieldTable, he, Instr.mnemonic]
  · rw [classify_des3 d he]; simp [fieldTable, he, Instr.mnemonic]
  · rw [classify_sha d he]; split_ifs <;> simp_all [fieldTable, Instr.mnemonic]
  · rw [classify_rsa d he]; split_ifs <;> simp_all [fieldTable, Instr.mnemonic]
  · have hodd : ∀ b : BitVec 2, b ≠ 0 → b ≠ 2 → b.getLsbD 0 = true := by decide
    rw [classify_passthru d he]
    split_ifs <;> simp_all [fieldTable, Instr.mnemonic]
  · rw [classify_zlib d he]; cases hbits : d.init && d.eom <;> simp [fieldTable, he, hbits, Instr.mnemonic]
  · rw [classify_ecc d he]; simp [fieldTable, he, Instr.mnemonic]
  · have hnamed : ∀ e : BitVec 4, e.getLsbD 3 = true → ∀ c ∈ [0, 1, 2, 3, 4, 5, 6, 7], e ≠ c := by decide
    rw [classify_unknown d he]
    simp_all [fieldTable, Instr.mnemonic]

/-- Settles O6: the search of the table is the search of the conditions on the decoded fields. -/
theorem opcodeTableSelectsDecodedRow : Obligations.OpcodeTableSelectsDecodedRow := by
  unfold Obligations.OpcodeTableSelectsDecodedRow
  intro w0 w1 w2 w3 w4 w5 w6 w7
  rw [← find?_fieldTable, ← opcodeTable_eq_fieldTable, List.find?_map, Option.map_map]
  rfl

end Sys2Proof.Machine

/-! What a descriptor leaves alone, and what its label is good for (41_decode_dispatch.md R183, R184): its execution is
that of the bare state, put back into the frame it came from. -/
namespace Sys2Proof.Machine

/-- An operation that stays inside its frame is the operation on the bare state, put back into the frame. -/
theorem Framed.eq_reframe_bare {α : Type} {op : State → α × State} (h : Framed op) (s : State) :
    op s = ((op (bare s)).1, reframe s (op (bare s)).2) := by
  rw [← h, reframe_bare]

/-- A descriptor's next state is its effect on the bare state, put back into the frame. -/
theorem exec_descriptor_reframe {i : Instr} {d : Desc} (h : descriptorOf i = some d) (s : State) :
    exec i s = .next (reframe s (dispatch i (bare s)).2) := by
  rw [exec_descriptor h, (dispatch_framed i).eq_reframe_bare]

/-- Settles O17: the frame holds the four. -/
theorem descriptorsWriteNoRegister : Obligations.DescriptorsWriteNoRegister := by
  unfold Obligations.DescriptorsWriteNoRegister
  intro i d s t hrow hexec
  rw [exec_descriptor_reframe hrow] at hexec
  cases hexec
  exact ⟨rfl, rfl, rfl, rfl⟩

/-- The events that a frame gets are those of its own log, and then those of the operation in it. -/
theorem reframe_events (f s : State) :
    (reframe f s).diag.map DiagEntry.event = f.diag.map DiagEntry.event ++ s.diag.map DiagEntry.event := by
  simp [reframe]

/-- Settles O21: two marks are two frames around one effect. -/
theorem queueIdOnlyLabelsDiagnostics : Obligations.QueueIdOnlyLabelsDiagnostics := by
  unfold Obligations.QueueIdOnlyLabelsDiagnostics
  intro i d s t q p hrow hexec
  rw [exec_descriptor_reframe hrow] at hexec
  cases hexec
  refine ⟨_, exec_descriptor_reframe hrow _, rfl, ?_⟩
  rw [reframe_events, reframe_events]
  rfl

end Sys2Proof.Machine

/-! The step: an access of the window is `exec` of its instruction, which always answers, and a control read that
drains is `exec` of each descriptor in turn (00_scope.md R18, 46_queue.md R284, 60_exceptions.md R340). -/
namespace Sys2Proof.Machine

/-! ### Accesses -/

/-- An access that decodes is its instruction (47_mmio.md R318). -/
theorem serveAccess_of_decode {a : Access} {i : Instr} (h : decode (.access a) = .ok i) (s : State) :
    serveAccess a s = exec i s := by
  simp only [serveAccess, h]

/-- An access that does not lie in the window is the named fault (20_memory.md R61, decision D36). -/
theorem serveAccess_outside {a : Access} (h : Config.windowSize < a.offset + a.size) (s : State) :
    serveAccess a s = .fault (.accessOutsideWindow a.offset a.size) := by
  have hdecode : decode (.access a) = .error (.outsideWindow a.offset a.size) := if_pos h
  simp only [serveAccess, hdecode]

/-- No instruction stops the machine (60_exceptions.md R340). -/
theorem exec_next (i : Instr) (s : State) : ∃ t, exec i s = .next t := by
  cases i
  all_goals exact ⟨_, rfl⟩

/-- Settles O12: the step takes the event and serves it. -/
theorem stepRunsDecodedAccess : Obligations.StepRunsDecodedAccess := by
  unfold Obligations.StepRunsDecodedAccess
  intro s a rest i hhost hdecode
  rw [step_access hhost, serveAccess_of_decode hdecode]

/-- Settles O15: every access of the window decodes, and every instruction, reset and store answers a next state. -/
theorem stepStopsOnlyOutsideWindow : Obligations.StepStopsOnlyOutsideWindow := by
  unfold Obligations.StepStopsOnlyOutsideWindow
  refine fun s => ⟨fun a rest hhost hout => ?_, fun hin => ?_⟩
  · rw [step_access hhost, serveAccess_outside hout]
  · cases hhost : s.host with
    | nil => exact ⟨s, step_idle hhost⟩
    | cons e rest =>
      cases e with
      | access a =>
        obtain ⟨i, hdecode, -⟩ := everyAccessInWindowDecodes a (hin a rest hhost)
        rw [step_access hhost, serveAccess_of_decode hdecode]
        exact exec_next i _
      | reset => exact ⟨_, step_reset hhost⟩
      | guestStore a v => exact ⟨_, step_guestStore hhost⟩

/-! ### Control reads that drain -/

theorem queue_eq_of_queues_eq {s t : State} (h : t.queues = s.queues) (q : QId) : t.queue q = s.queue q := by
  simp only [State.queue, h]

theorem exec_ctrlRd (q : QId) (s : State) : exec (.ctrlRd q) s = .next (controlRead q s) := rfl

/-- A step on a control read (47_mmio.md R305). -/
theorem step_controlRead {s : State} {q : QId} {rest : List HostEvent} (h : s.host = controlReadEvent q :: rest) :
    step s = .next (controlRead q { s with host := rest }) := by
  rw [step_access h, serveAccess_of_decode (decode_ctrlRd q), exec_ctrlRd]

/-- Settles O13: the control read that drains one descriptor, from the state with the event taken. -/
theorem stepRunsDecodedDescriptor : Obligations.StepRunsDecodedDescriptor := by
  unfold Obligations.StepRunsDecodedDescriptor
  intro s t q rest i hhost hrun hcount hgrant hdecode hexec
  rw [step_controlRead hhost, controlRead_one (s := { s with host := rest }) hrun hcount hgrant hdecode hexec]
  rfl

/-- Settles O14: the first iteration is `exec` of the fetched row, and the rest is the drain of what it leaves. -/
theorem drainExecutesOneDescriptorAtATime : Obligations.DrainExecutesOneDescriptorAtATime := by
  unfold Obligations.DrainExecutesOneDescriptorAtATime
  intro s t q i hrun hmore hgrant hdecode hexec
  have hfetch := exec_eq_fetchExecute (s := { s with draining := some q }) hgrant hdecode
  obtain rfl : fetchExecute (s.queue q).tail.toNat { s with draining := some q } = t :=
    Host.Outcome.next.inj (hfetch.symm.trans hexec)
  obtain ⟨hqueues, -⟩ := fetchExecute_frame (s.queue q).tail.toNat { s with draining := some q }
  refine congrArg Host.Outcome.next (controlRead_congr hrun ?_ (drain_succ hmore))
  rw [State.setTail_queue_same, queue_eq_of_queues_eq hqueues]
  rfl

end Sys2Proof.Machine

/-! The invariant of a run (10_state.md sections 2 and 4, 20_memory.md R66, 40_shim_scratch.md R159): what a
descriptor, a drain and an access keep of it. -/
namespace Sys2Proof.Machine

/-! ### Descriptors and drains -/

/-- What a descriptor keeps: both memories canonical and in bounds, and no inflate context afterwards (10_state.md
R35). -/
structure StoresInvariant (s : State) : Prop where
  memories : MemoriesWf s
  zctx_none : s.zctx = none

@[simp] theorem writeGranted_zctx (mt : MemType) (a : Nat) (v : Bytes) (s : State) :
    (writeGranted mt a v s).zctx = s.zctx := by cases mt <;> rfl

theorem shaEngine_zctx (t : HashType) (d : Desc) (s : State) : (shaEngine t d s).2.zctx = s.zctx := by
  rcases shaEngine_cases t d s with ⟨-, r⟩ | ⟨-, r⟩ <;> rw [r]
  · rfl
  · rcases hashFinish_cases d { hashCtxOr t s with msg := (hashCtxOr t s).msg ++ sourceBytes s d }
        { afterRequests s (sourceRequests d) with hctx := some (hashCtxOr t s) } with ⟨-, r⟩ | ⟨-, -, r⟩ | ⟨-, -, r⟩ <;>
      rw [r] <;> rfl

theorem rsaEngine_zctx (size : Nat) (d : Desc) (s : State) : (rsaEngine size d s).2.zctx = s.zctx := by
  rcases rsaEngine_reads size d s with ⟨-, r⟩ | ⟨-, -, r⟩ | ⟨-, -, -, r⟩ | ⟨-, r⟩ <;> rw [r]
  · rfl
  · rfl
  · rfl
  · rcases rsaFinish_cases d size (spaceBytes s d.keyMem d.key.toNat size) (spaceBytes s d.srcMem d.src.toNat size)
        (spaceBytes s d.srcMem (d.src.toNat + size) size) (afterRequests s (rsaRequests d size)) with
      ⟨-, r⟩ | ⟨-, -, r⟩ | ⟨-, -, r⟩ <;> rw [r]
    · rfl
    · rfl
    · exact writeGranted_zctx ..

theorem ptTransfer_zctx (f : Bytes → Bytes) (d : Desc) (s : State) : (ptTransfer f d s).2.zctx = s.zctx := by
  rcases ptTransfer_cases f d s with ⟨-, r⟩ | ⟨-, -, r⟩ | ⟨-, -, r⟩ <;> rw [r]
  · rfl
  · rfl
  · exact writeGranted_zctx ..

/-- On every path the inflate state is torn down (45_zlib.md R262, decision D33). -/
theorem zlibInflateEffect_zctx (d : Desc) (s : State) : (zlibInflateEffect d s).2.zctx = none := by
  rcases zlibInflateEffect_cases d s with
    ⟨-, r⟩ | ⟨-, -, r⟩ | ⟨-, -, -, r⟩ | ⟨-, -, -, r⟩ | ⟨-, -, -, r⟩ | ⟨-, -, -, r⟩ <;> rw [r]

/-- Where no inflate context is alive, no descriptor leaves one: ZLIB_INFLATE tears its own down, and no other engine
touches it. -/
theorem dispatch_zctx (i : Instr) {s : State} (h : s.zctx = none) : (dispatch i s).2.zctx = none := by
  cases i with
  | sha256 d | sha384 d => exact (shaEngine_zctx _ d s).trans h
  | rsa2048 d | rsa4096 d => exact (rsaEngine_zctx _ d s).trans h
  | ptCopy d => exact (ptTransfer_zctx id d s).trans h
  | ptSwap256 d =>
    simp only [dispatch, ptSwap256Effect, ptSwap256With]
    split
    · exact h
    · exact (ptTransfer_zctx _ d s).trans h
  | zlibInflate d => exact zlibInflateEffect_zctx d s
  | _ => exact h

theorem dispatch_storesInvariant (i : Instr) {s : State} (h : StoresInvariant s) :
    StoresInvariant (dispatch i s).2 :=
  ⟨dispatch_memoriesWf i h.memories, dispatch_zctx i h.zctx_none⟩

theorem fetchExecute_storesInvariant (a : Nat) {s : State} (h : StoresInvariant s) :
    StoresInvariant (fetchExecute a s) := by
  unfold fetchExecute
  dsimp only
  rw [guestMap_snd]
  split
  · exact ⟨h.memories, h.zctx_none⟩
  · exact dispatch_storesInvariant _ ⟨h.memories, h.zctx_none⟩

theorem fetchLoop_storesInvariant (n a : Nat) {s : State} (h : StoresInvariant s) :
    StoresInvariant (fetchLoop n a s) := by
  induction n generalizing a s with
  | zero => exact h
  | succ n ih => exact ih _ (fetchExecute_storesInvariant a h)

/-- A drain is its fetches and executions, and then writes registers alone (46_queue.md R286). -/
theorem drain_storesInvariant (q : QId) {s : State} (h : StoresInvariant s) : StoresInvariant (drain q s) := by
  have hloop := fetchLoop_storesInvariant (drainCount (s.queue q).tail (s.queue q).head) (s.queue q).tail.toNat
    (s := { s with draining := some q }) ⟨h.memories, h.zctx_none⟩
  rw [drain_eq]
  exact ⟨hloop.memories, hloop.zctx_none⟩

/-! ### MMIO rows -/

/-- An MMIO row keeps what descriptors keep: outside a drain it changes no store (47_mmio.md R319). -/
theorem exec_mmio_storesInvariant {i : Instr} {s t : State} (hrow : descriptorOf i = none)
    (hexec : exec i s = .next t) (h : StoresInvariant s) : StoresInvariant t := by
  by_cases hdrain : ∃ q, i = .ctrlRd q ∧ runBit (s.queue q).control = true
  · obtain ⟨q, rfl, hrun⟩ := hdrain
    obtain rfl := Host.Outcome.next.inj ((exec_ctrlRd q s).symm.trans hexec)
    have hstores := drain_storesInvariant q h
    rw [controlRead_running hrun]
    exact ⟨hstores.memories, hstores.zctx_none⟩
  · obtain ⟨hlsb, hgm, -, hzctx⟩ := exec_mmio_sameStores hrow
      (fun q hq => Bool.eq_false_iff.mpr fun hrun => hdrain ⟨q, hq, hrun⟩) hexec
    obtain ⟨hgmWf, hlsbWf⟩ := h.memories
    exact ⟨⟨hgm ▸ hgmWf, hlsb ▸ hlsbWf⟩, hzctx.trans h.zctx_none⟩

theorem unknownAccess_draining (o : Nat) (v : Option Word) (s : State) :
    (unknownAccess o v s).draining = s.draining := by
  cases v <;> rfl

/-- A control read leaves no mark of a drain, its own included (10_state.md R27). -/
theorem controlRead_draining (q : QId) {s : State} (h : s.draining = none) : (controlRead q s).draining = none := by
  cases hrun : runBit (s.queue q).control with
  | true => rw [controlRead_running hrun, drain_eq]; rfl
  | false => rw [controlRead_halted hrun]; exact h

theorem exec_mmio_draining {i : Instr} {s t : State} (hrow : descriptorOf i = none)
    (hexec : exec i s = .next t) (h : s.draining = none) : t.draining = none := by
  cases i with
  | ctrlRd q => cases hexec; exact controlRead_draining q h
  | queueUnknownReg q r v => cases hexec; exact (unknownAccess_draining _ v s).trans h
  | mmioBadAccess _ _ _ | globalRd _ | globalWr _ _ | ctrlWr _ _ | tailRd _ | tailWr _ _ | headRd _ | headWr _ _
  | statusRd _ | statusWr _ _ | cfgRd _ | cfgWr _ _ => cases hexec; exact h
  | _ => cases hrow

/-- No update of a queue changes its id (10_state.md R26). -/
theorem QueueUpdate.id_eq {i : Instr} {q : QId} {r r' : Queue} (h : QueueUpdate i q r r') : r'.id = r.id := by
  cases h <;> rfl

/-! ### Steps -/

theorem exec_mmio_invariant {i : Instr} {s t : State} (hrow : descriptorOf i = none) (hexec : exec i s = .next t)
    (h : Invariant s) : Invariant t := by
  obtain ⟨⟨hgm, hlsb⟩, hzctx⟩ := exec_mmio_storesInvariant hrow hexec ⟨⟨h.gm_wf, h.lsb_wf⟩, h.zctx_none⟩
  exact ⟨hgm, hlsb, fun q => (exec_queueUpdate hexec q).id_eq.trans (h.ids q), hzctx,
    exec_mmio_draining hrow hexec h.draining_none⟩

/-- An access of the window is an MMIO row; one outside it has no next state. -/
theorem serveAccess_invariant {a : Access} {s t : State} (hserve : serveAccess a s = .next t) (h : Invariant s) :
    Invariant t := by
  rcases Nat.lt_or_ge Config.windowSize (a.offset + a.size) with hout | hin
  · rw [serveAccess_outside hout] at hserve
    cases hserve
  · obtain ⟨i, hdecode, -, hrow, -⟩ := everyAccessInWindowDecodes a hin
    rw [serveAccess_of_decode hdecode] at hserve
    exact exec_mmio_invariant hrow hserve h

/-- A device reset keeps guest memory, and the rest takes its reset values (70_reset_and_hazards.md R380, R382). -/
theorem deviceReset_invariant {s : State} (h : Invariant s) : Invariant (deviceReset s) :=
  ⟨h.gm_wf, rfl, fun q => congrArg Queue.id (deviceReset_queue s q), rfl, rfl⟩

/-- Settles O10: the memories are empty, and queue `q` is reset with the id `q`. -/
theorem resetMeetsRunInvariant : Obligations.ResetMeetsRunInvariant := by
  unfold Obligations.ResetMeetsRunInvariant
  exact ⟨rfl, rfl, fun q => congrArg Queue.id (deviceReset_queue State.reset q), rfl, rfl⟩

/-- Settles O11: each kind of event keeps the invariant; a store of the platform is below `2^48`. -/
theorem stepKeepsRunInvariant : Obligations.StepKeepsRunInvariant := by
  unfold Obligations.StepKeepsRunInvariant
  intro s t h hstep
  cases hhost : s.host with
  | nil =>
    rw [step_idle hhost] at hstep
    cases hstep
    exact h
  | cons e rest =>
    have htaken : Invariant { s with host := rest } := ⟨h.gm_wf, h.lsb_wf, h.ids, h.zctx_none, h.draining_none⟩
    cases e with
    | access a =>
      rw [step_access hhost] at hstep
      exact serveAccess_invariant hstep htaken
    | reset =>
      rw [step_reset hhost] at hstep
      cases hstep
      exact deviceReset_invariant htaken
    | guestStore a v =>
      rw [step_guestStore hhost] at hstep
      cases hstep
      exact ⟨Mem.wf_set a.isLt h.gm_wf, h.lsb_wf, h.ids, h.zctx_none, h.draining_none⟩

end Sys2Proof.Machine

/-! A control read of a queue (46_queue.md R281 to R290): what it leaves of the queue it reads, of the others, and under
either drain trigger. -/
namespace Sys2Proof.Machine

/-! ### Counting descriptors -/

/-- Settles O53: with `head` above `tail` the count is the distance in descriptors, rounded up. -/
theorem drainCountCoversPendingWork : Obligations.DrainCountCoversPendingWork := by
  unfold Obligations.DrainCountCoversPendingWork
  intro tail head n
  have hhead := head.isLt
  unfold drainCount
  split
  · exact ⟨by omega, by omega, by omega⟩
  · exact ⟨by omega, by omega, by omega⟩

/-- Nothing is pending where `tail` has reached or passed `head` (decision D14). -/
theorem drainCount_eq_zero {tail head : Word} (h : head.toNat ≤ tail.toNat) : drainCount tail head = 0 :=
  if_neg (Nat.not_lt.mpr h)

/-- Settles O51: no descriptor is fetched, and the queue completes. -/
theorem emptyDrainOnlyCompletes : Obligations.EmptyDrainOnlyCompletes := by
  unfold Obligations.EmptyDrainOnlyCompletes
  intro s q hrun hempty
  rw [exec_ctrlRd, controlRead_running hrun, drain_eq, drainCount_eq_zero hempty]
  rfl

/-! ### The queue that is read -/

theorem queuePhase_eq_running_iff {v : Word} : queuePhase v = .running ↔ runBit v = true := by
  unfold queuePhase
  split_ifs <;> simp [*]

theorem queuePhase_of_halted {v : Word} (hrun : runBit v = false) (hhalt : haltBit v = true) :
    queuePhase v = .halted := by
  simp [queuePhase, hrun, hhalt]

/-- A completion keeps control bits 31:2 (46_queue.md R286, decision D13). -/
theorem completedControl_bit (v : Word) {i : Nat} (h : 2 ≤ i) : (completedControl v).getLsbD i = v.getLsbD i := by
  rcases Nat.lt_or_ge i 32 with hlt | hge
  · have hmask : ∀ k < 32, 2 ≤ k → (0xFFFFFFFE : Word).getLsbD k = true ∧ (0x00000002 : Word).getLsbD k = false := by
      decide
    obtain ⟨hkeep, hset⟩ := hmask i hlt h
    rw [completedControl, BitVec.getLsbD_or, BitVec.getLsbD_and, hkeep, hset, Bool.and_true, Bool.or_false]
  · rw [BitVec.getLsbD_of_ge _ _ hge, BitVec.getLsbD_of_ge _ _ hge]

/-- A control read of a Running queue changes no other queue (46_queue.md R289). -/
theorem controlRead_queue_ne {q p : QId} {s : State} (hrun : runBit (s.queue q).control = true) (h : p ≠ q) :
    (controlRead q s).queue p = s.queue p := by
  rw [controlRead_running hrun, State.respond_queue, drain_queue, if_neg h]

/-- A drain takes no event. -/
theorem drain_host (q : QId) (s : State) : (drain q s).host = s.host := by
  obtain ⟨-, hhost, -⟩ := fetchLoop_frame (drainCount (s.queue q).tail (s.queue q).head) (s.queue q).tail.toNat
    { s with draining := some q }
  rw [drain_eq]
  exact hhost

/-- Settles O48: the queue read is completed, whatever was drained, and the others are as before. -/
theorem controlReadCompletesDrain : Obligations.ControlReadCompletesDrain := by
  unfold Obligations.ControlReadCompletesDrain
  intro s q hphase
  have hrun := queuePhase_eq_running_iff.mp hphase
  obtain ⟨hclear, hhalt⟩ := completedControl_flags (s.queue q).control
  refine ⟨controlRead q s, rfl, ?_⟩
  rw [controlRead_busData, controlRead_queue_same hrun]
  refine ⟨rfl, rfl, rfl, hclear, hhalt, queuePhase_of_halted hclear hhalt, fun _ => completedControl_bit _, rfl,
    fun _ => controlRead_queue_ne hrun, ?_, ?_⟩
  · rw [controlRead_running hrun]
    exact drain_host q s
  · rw [controlRead_running hrun, drain_eq]
    rfl

/-- Settles O49: a read of a queue that is not Running only answers. -/
theorem controlReadOfHaltedQueueHasNoEffect : Obligations.ControlReadOfHaltedQueueHasNoEffect := by
  unfold Obligations.ControlReadOfHaltedQueueHasNoEffect
  intro s q hrun
  exact ⟨s.respond (s.queue q).control, by rw [exec_ctrlRd, controlRead_halted hrun], rfl, le32_wordBytes _,
    wordBytes_length _⟩

/-! ### Registers and bus values a drain does not read -/

/-- The fetches and executions of a drain are those of the bare state, put back into the frame. -/
theorem fetchLoop_eq_reframe_bare (n a : Nat) (s : State) :
    fetchLoop n a s = reframe s (fetchLoop n a (bare s)) := by
  rw [← fetchLoop_reframe, reframe_bare]

/-- The label of a drain of `q` does not depend on the registers of another queue. -/
theorem diagQueue_setQueue_ne {s : State} {q p : QId} (r : Queue) (hdraining : s.draining = some q) (h : p ≠ q) :
    (s.setQueue p r).diagQueue = s.diagQueue := by
  simp [State.diagQueue, hdraining, State.setQueue_queue_ne s r h.symm]

theorem fetchLoop_setQueue_ne {s : State} {q p : QId} (r : Queue) (hdraining : s.draining = some q) (h : p ≠ q)
    (n a : Nat) : fetchLoop n a (s.setQueue p r) = (fetchLoop n a s).setQueue p r := by
  rw [fetchLoop_eq_reframe_bare, fetchLoop_eq_reframe_bare n a s]
  unfold reframe
  rw [diagQueue_setQueue_ne r hdraining h]
  rfl

theorem setQueue_comm (s : State) {q p : QId} (r r' : Queue) (h : p ≠ q) :
    (s.setQueue p r).setQueue q r' = (s.setQueue q r').setQueue p r := by
  have hval : p.val ≠ q.val := fun e => h (Fin.ext e)
  simp only [State.setQueue, Vector.set_comm r r' hval]

theorem drain_setQueue_ne (s : State) {q p : QId} (r : Queue) (h : p ≠ q) :
    drain q (s.setQueue p r) = (drain q s).setQueue p r := by
  have hloop := fetchLoop_setQueue_ne (s := { s with draining := some q }) r rfl h
  rw [drain_eq, drain_eq, State.setQueue_queue_ne s r h.symm]
  change { (fetchLoop _ _ (State.setQueue { s with draining := some q } p r)).setQueue q _ with draining := none } = _
  rw [hloop, setQueue_comm _ _ _ h]
  rfl

/-- Settles O54: drain or not, the read of `q` commutes with setting another queue. -/
theorem drainIgnoresOtherQueues : Obligations.DrainIgnoresOtherQueues := by
  unfold Obligations.DrainIgnoresOtherQueues
  intro s t q p r h hexec
  rw [exec_ctrlRd] at hexec ⊢
  cases hexec
  have hq : (s.setQueue p r).queue q = s.queue q := State.setQueue_queue_ne s r h.symm
  cases hrun : runBit (s.queue q).control with
  | true =>
    rw [controlRead_running hrun, controlRead_running (by rw [hq]; exact hrun), hq, drain_setQueue_ne s r h]
    rfl
  | false =>
    rw [controlRead_halted hrun, controlRead_halted (by rw [hq]; exact hrun), hq]
    rfl

/-- A drain does not read the bus value and leaves it. -/
theorem drain_acknowledge (q : QId) (s : State) : drain q s.acknowledge = (drain q s).acknowledge := by
  have hloop (n a : Nat) : fetchLoop n a { s.acknowledge with draining := some q } =
      (fetchLoop n a { s with draining := some q }).acknowledge := by
    rw [fetchLoop_eq_reframe_bare, fetchLoop_eq_reframe_bare n a { s with draining := some q }]
    rfl
  rw [drain_eq, drain_eq, State.acknowledge_queue, hloop]
  rfl

/-- A control write with `DRAIN_ON_CTRL_WRITE` true drains where the value's run bit is set (46_queue.md R290). -/
theorem controlWrite_true (q : QId) {v : Word} (s : State) (hrun : runBit v = true) :
    controlWrite true q v s = (drain q (s.setControl q v)).acknowledge := by
  simp [controlWrite, hrun]

theorem controlWrite_of_not_run (drainOnWrite : Bool) (q : QId) {v : Word} (s : State) (hrun : runBit v = false) :
    controlWrite drainOnWrite q v s = (s.setControl q v).acknowledge := by
  simp [controlWrite, hrun]

/-- Settles O55: with run set, one of the write and the read drains; with run clear, neither does. -/
theorem writeThenReadAgreesUnderBothReadings : Obligations.WriteThenReadAgreesUnderBothReadings := by
  unfold Obligations.WriteThenReadAgreesUnderBothReadings
  intro s q v
  cases hrun : runBit v with
  | false => rw [controlWrite_of_not_run true q s hrun, controlWrite_of_not_run false q s hrun]
  | true =>
    obtain ⟨hclear, -⟩ := completedControl_flags v
    have hwritten : (s.setControl q v).acknowledge.queue q = { s.queue q with control := v } := by simp
    have hdrained : (drain q (s.setControl q v)).acknowledge.queue q =
        completedQueue { s.queue q with control := v } := by
      rw [State.acknowledge_queue, drain_queue, if_pos rfl, State.setControl_queue_same]
    rw [controlWrite_true q s hrun, controlWrite_false, controlRead_halted (by rw [hdrained]; exact hclear),
      controlRead_running (by rw [hwritten]; exact hrun), hdrained, hwritten, drain_acknowledge]
    rfl

end Sys2Proof.Machine

/-! The accesses that reach no queue register (47_mmio.md R301 to R303, R313 to R315). -/
namespace Sys2Proof.Machine

/-- Settles O57: such an access does not conform, and its row only logs. -/
theorem badAccessOnlyLogs : Obligations.BadAccessOnlyLogs := by
  unfold Obligations.BadAccessOnlyLogs
  intro s a rest hhost hin hbad
  have hconf : conforming a.offset a.size = false := by
    rw [← Bool.not_eq_true, conforming, Bool.and_eq_true, beq_iff_eq, beq_iff_eq]
    omega
  refine ⟨_, ?_, rfl, rfl⟩
  rw [step_access hhost, serveAccess_of_decode (decode_badAccess hin hconf)]
  rfl

/-- Settles O58: the region starts at offset 0 of the window. -/
theorem globalRegionIsInert : Obligations.GlobalRegionIsInert := by
  unfold Obligations.GlobalRegionIsInert
  intro s o v
  have hoffset : Config.globalBase + o.toNat = o.toNat := Nat.zero_add _
  refine ⟨?_, globalAccess (Config.globalBase + o.toNat) none s, rfl, le32_wordBytes 0, rfl, ?_⟩
  · change Host.Outcome.next (globalAccess (Config.globalBase + o.toNat) (some v) s) = _
    rw [hoffset]
    rfl
  · rw [hoffset]
    rfl

/-- The window offset of a register, from 47_mmio.md R300 and R305. -/
theorem queueRegOffset_eq (q : QId) (r : BitVec 12) : queueRegOffset q r = 0x1000 * (q.val + 1) + r.toNat := by
  simp only [queueRegOffset, Config.qBase, Config.qStride]
  omega

/-- Settles O59: the row logs the window offset it is at. -/
theorem unknownRegisterOnlyLogs : Obligations.UnknownRegisterOnlyLogs := by
  unfold Obligations.UnknownRegisterOnlyLogs
  intro s q r v
  rw [← queueRegOffset_eq]
  exact ⟨rfl, unknownAccess (queueRegOffset q r) none s, rfl, le32_wordBytes 0, rfl, rfl⟩

/-- Settles O60: a read answers with the ready word or 0, a write with nothing. -/
theorem configRegionIsConstant : Obligations.ConfigRegionIsConstant := by
  unfold Obligations.ConfigRegionIsConstant
  intro s o v
  refine ⟨rfl, configRead o s, rfl, rfl, rfl, fun hready => ?_, fun hother => ?_⟩
  · rw [configRead, if_pos hready, State.respond_busData, le32_wordBytes]
  · rw [configRead, if_neg hother, State.respond_busData, le32_wordBytes]

end Sys2Proof.Machine

/-! Stores seen from a state that differs outside the memories, and the SHA rows of a supported type (42_hash.md R202 to
R207, R213). -/
namespace Sys2Proof.Machine

/-! ### Stores -/

/-- A store is one from any state with the same memories. -/
theorem StoredOnly.of_sameMemories {r s t : State} {mt : MemType} {a : Nat} {v : Bytes} (h : SameMemories s r)
    (hstored : StoredOnly r t mt a v) : StoredOnly s t mt a v := by
  obtain ⟨hgm, hlsb⟩ := h
  obtain ⟨hinside, houtside⟩ := hstored
  exact ⟨hinside, fun m c hc => (houtside m c hc).trans (spaceByte_congr hlsb hgm m c)⟩

/-- A store is one to any state with the same memories. -/
theorem StoredOnly.to_sameMemories {s t u : State} {mt : MemType} {a : Nat} {v : Bytes} (h : SameMemories t u)
    (hstored : StoredOnly s t mt a v) : StoredOnly s u mt a v := by
  obtain ⟨hgm, hlsb⟩ := h
  obtain ⟨hinside, houtside⟩ := hstored
  exact ⟨fun i hi => (spaceByte_congr hlsb hgm mt (a + i)).trans (hinside i hi),
    fun m c hc => (spaceByte_congr hlsb hgm m c).trans (houtside m c hc)⟩

/-- The stored range reads as the bytes stored. -/
theorem StoredOnly.spaceBytes_eq {s t : State} {mt : MemType} {a : Nat} {v : Bytes} (h : StoredOnly s t mt a v) :
    spaceBytes t mt a v.length = v := by
  obtain ⟨hinside, -⟩ := h
  refine List.ext_getElem (spaceBytes_length ..) fun i _ hi => ?_
  simpa [spaceBytes] using hinside i hi

/-- What differs in the memories and the platform's answers alone has the same log and registers. -/
theorem SameButMemory.diag_queues_eq {s t : State} (h : SameButMemory s t) : t.diag = s.diag ∧ t.queues = s.queues := by
  unfold SameButMemory at h
  rw [h]
  exact ⟨rfl, rfl⟩

/-! ### The source -/

theorem shaEngine_of_accessible {d : Desc} {s : State} (h : sourceAccessible s 0 d = true) (ty : HashType) :
    shaEngine ty d s = hashFinish d { hashCtxOr ty s with msg := (hashCtxOr ty s).msg ++ sourceBytes s d }
      { afterRequests s (sourceRequests d) with hctx := some (hashCtxOr ty s) } := by
  rcases shaEngine_cases ty d s with ⟨hfail, -⟩ | ⟨-, hfeed⟩
  · exact absurd (h.symm.trans hfail) Bool.false_ne_true.symm
  · exact hfeed

theorem shaEngine_of_not_accessible {d : Desc} {s : State} (h : sourceAccessible s 0 d = false) (ty : HashType) :
    shaEngine ty d s = (.ofEvent (accessFailure s 0 d.srcMem d.src.toNat d.length.toNat false),
      { failedAccess s 0 d.srcMem d.src.toNat d.length.toNat false with hctx := some (hashCtxOr ty s) }) := by
  rcases shaEngine_cases ty d s with ⟨-, hfail⟩ | ⟨hok, -⟩
  · exact hfail
  · exact absurd (h.symm.trans hok) Bool.false_ne_true

/-- Settles O28: the context of step 1 stays. -/
theorem shaFailedReadKeepsContext : Obligations.ShaFailedReadKeepsContext := by
  unfold Obligations.ShaFailedReadKeepsContext
  intro ty d s hsource
  rw [exec_hashInstr, shaEngine_of_not_accessible hsource]
  rfl

/-- A feed without `eom`: the context of step 1 with the source bytes appended (42_hash.md R204, R206). -/
theorem exec_hashInstr_feed {ty cty : HashType} {msg : Bytes} {d : Desc} {s : State} (heom : d.eom = false)
    (hsource : sourceAccessible s 0 d = true) (hctx : s.hctx.getD ⟨ty, []⟩ = ⟨cty, msg⟩) :
    exec (hashInstr ty d) s = .next { afterRequests s (sourceRequests d) with
      hctx := some ⟨cty, msg ++ sourceBytes s d⟩ } := by
  have hctx' : hashCtxOr ty s = ⟨cty, msg⟩ := hctx
  rw [exec_hashInstr, shaEngine_of_accessible hsource, hashFinish_of_not_eom heom, hctx']

/-- Settles O24: a live context keeps its type and message, a new one has the descriptor's type and no message. -/
theorem shaFeedAppendsSource : Obligations.ShaFeedAppendsSource := by
  unfold Obligations.ShaFeedAppendsSource
  intro ty d s heom hsource
  refine exec_hashInstr_feed heom hsource ?_
  cases s.hctx with
  | none => rfl
  | some ctx => rfl

/-! ### The digest -/

theorem oneShot_eq_digest (ty : HashType) (msg : Bytes) : oneShot ty msg = digest ty msg := by
  cases ty <;> rfl

theorem length_digest (ty : HashType) (msg : Bytes) : (digest ty msg).length = digestSize ty := by
  cases ty <;> exact digest_length _ msg

/-- A digest that fits the store is written reversed at its slot, as any store, and the context is destroyed
(42_hash.md R205). -/
theorem hashFinish_fits {d : Desc} {ctx : HashCtx} {s : State} (heom : d.eom = true)
    (hfits : d.ctxId.toNat * 32 + digestSize ctx.type ≤ Config.lsbSize) :
    hashFinish d ctx s = (.applied, writeGranted .scratch (d.ctxId.toNat * 32) (oneShot ctx.type ctx.msg).reverse
      { s with hctx := none }) := by
  rw [← slotOffset_eq, ← length_digest ctx.type ctx.msg] at hfits
  rcases hashFinish_cases d ctx s with ⟨hnot, -⟩ | ⟨-, -, hwrite⟩ | ⟨-, hout, -⟩
  · exact absurd (heom.symm.trans hnot) Bool.false_ne_true.symm
  · rw [hwrite, oneShot_eq_digest]
    rfl
  · exact absurd hfits hout

/-- A digest that does not fit is logged and not written; the context is destroyed (42_hash.md R205, decision D23). -/
theorem hashFinish_outside {d : Desc} {ctx : HashCtx} {s : State} (heom : d.eom = true)
    (hout : Config.lsbSize < d.ctxId.toNat * 32 + digestSize ctx.type) :
    hashFinish d ctx s = (.ofEvent (.scratchBounds (d.ctxId.toNat * 32) (digestSize ctx.type)), { s with
      hctx := none
      diag := s.diag ++ [⟨s.diagQueue, .scratchBounds (d.ctxId.toNat * 32) (digestSize ctx.type)⟩] }) := by
  rw [← slotOffset_eq, ← length_digest ctx.type ctx.msg] at hout ⊢
  rcases hashFinish_cases d ctx s with ⟨hnot, -⟩ | ⟨-, hin, -⟩ | ⟨-, -, hlog⟩
  · exact absurd (heom.symm.trans hnot) Bool.false_ne_true.symm
  · omega
  · exact hlog

/-- Settles O26: the digest is one store of the scratch memory. -/
theorem shaEomWritesReversedDigest : Obligations.ShaEomWritesReversedDigest := by
  unfold Obligations.ShaEomWritesReversedDigest
  intro ty cty msg d s hwf heom hsource hctx hfits
  have hctx' : hashCtxOr ty s = ⟨cty, msg⟩ := hctx
  have hlen : (oneShot cty (msg ++ sourceBytes s d)).reverse.length = digestSize cty := by
    rw [List.length_reverse, oneShot_eq_digest, length_digest]
  have hstored : StoredOnly s _ .scratch (d.ctxId.toNat * 32) (oneShot cty (msg ++ sourceBytes s d)).reverse :=
    storedOnly_writeGranted hwf (fun _ => by rw [hlen]; exact hfits) nofun (fun _ => .inl rfl)
  refine ⟨_, exec_hashInstr ty d s, ?_⟩
  rw [shaEngine_of_accessible hsource, hctx', hashFinish_fits heom hfits]
  exact ⟨rfl, hstored.to_sameMemories ⟨rfl, rfl⟩, rfl⟩

/-- Settles O27: the bounds failure at the slot, after the source's requests. -/
theorem shaDigestOutOfBoundsDestroysContext : Obligations.ShaDigestOutOfBoundsDestroysContext := by
  unfold Obligations.ShaDigestOutOfBoundsDestroysContext
  intro ty cty msg d s heom hsource hctx hout
  have hctx' : hashCtxOr ty s = ⟨cty, msg⟩ := hctx
  refine ⟨_, exec_hashInstr ty d s, ?_⟩
  rw [shaEngine_of_accessible hsource, hctx', hashFinish_outside heom hout]
  rfl

/-! ### A message in chunks -/

/-- Requests made before the chunks only move the count from which their grants are taken. -/
theorem chunksAccessible_afterRequests (s : State) (x : Option HashCtx) (ds : List Desc) (j k : Nat) :
    chunksAccessible { afterRequests s j with hctx := x } k ds = chunksAccessible s (j + k) ds := by
  induction ds generalizing k with
  | nil => rfl
  | cons d ds ih =>
    have hd : sourceAccessible { afterRequests s j with hctx := x } k d = sourceAccessible s (j + k) d :=
      (accessible_congr (s := afterRequests s j) rfl rfl ..).trans (accessible_afterRequests ..)
    rw [chunksAccessible, chunksAccessible, hd, ih, Nat.add_assoc]

/-- What the feeds of a message in chunks end in, from a context with the message `msg` or a new one: the digest of that
message and all the chunks (42_hash.md R213). -/
theorem execList_chunks {ty : HashType} {last : Desc} (hlast : last.eom = true)
    (hfits : last.ctxId.toNat * 32 + digestSize ty ≤ Config.lsbSize) (chunks : List Desc)
    (hchunks : ∀ d ∈ chunks, d.eom = false) {s : State} {msg : Bytes} (hwf : MemoriesWf s)
    (hctx : s.hctx.getD ⟨ty, []⟩ = ⟨ty, msg⟩) (hsources : chunksAccessible s 0 (chunks ++ [last]) = true) :
    ∃ t, execList ((chunks ++ [last]).map (hashInstr ty)) s = .next t ∧ t.hctx = none ∧
      StoredOnly s t .scratch (last.ctxId.toNat * 32)
        (oneShot ty (msg ++ ((chunks ++ [last]).map (sourceBytes s)).flatten)).reverse ∧
      SameButMemory { s with hctx := none } t := by
  induction chunks generalizing s msg with
  | nil =>
    simp only [List.nil_append, chunksAccessible, Bool.and_true] at hsources
    obtain ⟨t, hexec, hnone, hstored, hsame⟩ :=
      shaEomWritesReversedDigest ty ty msg last s hwf hlast hsources hctx hfits
    refine ⟨t, ?_, hnone, ?_, hsame⟩
    · simp only [List.nil_append, List.map_cons, List.map_nil, execList, hexec]
    · simpa using hstored
  | cons d ds ih =>
    simp only [List.cons_append, chunksAccessible, Bool.and_eq_true] at hsources
    obtain ⟨hd, hds⟩ := hsources
    have hexec := exec_hashInstr_feed (hchunks d List.mem_cons_self) hd hctx
    obtain ⟨t, hrest, hnone, hstored, hsame⟩ := ih (fun e he => hchunks e (List.mem_cons_of_mem d he))
      (s := { afterRequests s (sourceRequests d) with hctx := some ⟨ty, msg ++ sourceBytes s d⟩ })
      (msg := msg ++ sourceBytes s d) hwf rfl
      (by rw [chunksAccessible_afterRequests, Nat.add_comm]; exact hds)
    refine ⟨t, ?_, hnone, ?_, hsame⟩
    · simp only [List.cons_append, List.map_cons, execList, hexec]
      exact hrest
    · have hstored' := hstored.of_sameMemories (s := s) ⟨rfl, rfl⟩
      simp only [List.cons_append, List.map_cons, List.flatten_cons, ← List.append_assoc]
      exact hstored'

/-- Settles O30: the chunks start from a new context, whose message is empty. -/
theorem chunkedHashEqualsOneShotHash : Obligations.ChunkedHashEqualsOneShotHash := by
  unfold Obligations.ChunkedHashEqualsOneShotHash
  intro ty chunks last s hwf hnew hchunks hlast hsources hfits
  obtain ⟨t, hexec, hnone, hstored, hsame⟩ :=
    execList_chunks hlast hfits chunks hchunks (msg := []) hwf (by rw [hnew]; rfl) hsources
  obtain ⟨hdiag, hqueues⟩ := hsame.diag_queues_eq
  exact ⟨t, hexec, hnone, hdiag, hqueues, hstored⟩

end Sys2Proof.Machine

/-! The RSA rows (43_rsa.md R220 to R229): what the engine does where its ranges can be accessed, where the modulus is
zero, and at the first range that cannot be accessed. -/
namespace Sys2Proof.Machine

/-! ### The reads -/

/-- Both RSA rows run the one engine, each with its operand size (43_rsa.md R220, R221). -/
theorem exec_rsaForm {i : Instr} {d : Desc} {size : Nat} (h : RsaForm i d size) (s : State) :
    exec i s = .next (rsaEngine size d s).2 := by
  cases h with
  | rsa2048 => rfl
  | rsa4096 => rfl

theorem rsaReadable_iff {s : State} {d : Desc} {size : Nat} : rsaReadable s d size = true ↔
    accessible s 0 d.keyMem d.key.toNat size false = true ∧
      accessible s (mapRequests d.keyMem size) d.srcMem d.src.toNat size false = true ∧
      accessible s (mapRequests d.keyMem size + mapRequests d.srcMem size) d.srcMem (d.src.toNat + size) size false =
        true := by
  simp only [rsaReadable, Bool.and_eq_true, and_assoc]

section
variable {s : State} {d : Desc} {size : Nat}

theorem rsaEngine_of_key_not_accessible (hkey : accessible s 0 d.keyMem d.key.toNat size false = false) :
    (rsaEngine size d s).2 = failedAccess s 0 d.keyMem d.key.toNat size false := by
  rcases rsaEngine_reads size d s with ⟨-, r⟩ | ⟨hok, -⟩ | ⟨hok, -⟩ | ⟨hall, -⟩
  · rw [r]
  · simp [hkey] at hok
  · simp [hkey] at hok
  · simp [rsaReadable_iff, hkey] at hall

theorem rsaEngine_of_modulus_not_accessible (hkey : accessible s 0 d.keyMem d.key.toNat size false = true)
    (hmod : accessible s (mapRequests d.keyMem size) d.srcMem d.src.toNat size false = false) :
    (rsaEngine size d s).2 = failedAccess s (mapRequests d.keyMem size) d.srcMem d.src.toNat size false := by
  rcases rsaEngine_reads size d s with ⟨hno, -⟩ | ⟨-, -, r⟩ | ⟨-, hok, -⟩ | ⟨hall, -⟩
  · simp [hkey] at hno
  · rw [r]
  · simp [hmod] at hok
  · simp [rsaReadable_iff, hmod] at hall

theorem rsaEngine_of_message_not_accessible (hkey : accessible s 0 d.keyMem d.key.toNat size false = true)
    (hmod : accessible s (mapRequests d.keyMem size) d.srcMem d.src.toNat size false = true)
    (hmsg : accessible s (mapRequests d.keyMem size + mapRequests d.srcMem size) d.srcMem (d.src.toNat + size) size
      false = false) :
    (rsaEngine size d s).2 = failedAccess s (mapRequests d.keyMem size + mapRequests d.srcMem size) d.srcMem
      (d.src.toNat + size) size false := by
  rcases rsaEngine_reads size d s with ⟨hno, -⟩ | ⟨-, hno, -⟩ | ⟨-, -, -, r⟩ | ⟨hall, -⟩
  · simp [hkey] at hno
  · simp [hmod] at hno
  · rw [r]
  · simp [rsaReadable_iff, hmsg] at hall

theorem rsaEngine_of_readable (h : rsaReadable s d size = true) :
    rsaEngine size d s = rsaFinish d size (spaceBytes s d.keyMem d.key.toNat size)
      (spaceBytes s d.srcMem d.src.toNat size) (spaceBytes s d.srcMem (d.src.toNat + size) size)
      (afterRequests s (rsaRequests d size)) := by
  obtain ⟨hkey, hmod, hmsg⟩ := rsaReadable_iff.mp h
  rcases rsaEngine_reads size d s with ⟨hno, -⟩ | ⟨-, hno, -⟩ | ⟨-, -, hno, -⟩ | ⟨-, r⟩
  · simp [hkey] at hno
  · simp [hmod] at hno
  · simp [hmsg] at hno
  · exact r

/-! ### The computation and the write -/

theorem rsaWritable_iff {w : Bool} :
    accessible (afterRequests s (rsaRequests d size)) 0 d.dstMem d.dst.toNat size true = w ↔
      rsaWritable s d size = w := by
  rw [accessible_afterRequests, Nat.add_zero]
  rfl

theorem rsaEngine_of_zero_modulus (hread : rsaReadable s d size = true) (hzero : rsaModulus s d size = 0) :
    (rsaEngine size d s).2 =
      (afterRequests s (rsaRequests d size)).diagnose (.unimplementedFunction .rsaModulusZero) := by
  have hmodulus : natLe (spaceBytes s d.srcMem d.src.toNat size) = 0 := hzero
  rw [rsaEngine_of_readable hread, rsaFinish, if_pos hmodulus]
  rfl

theorem rsaEngine_of_not_writable (hread : rsaReadable s d size = true) (hmod : rsaModulus s d size ≠ 0)
    (hwrite : rsaWritable s d size = false) :
    (rsaEngine size d s).2 = failedAccess s (rsaRequests d size) d.dstMem d.dst.toNat size true := by
  rw [rsaEngine_of_readable hread]
  rcases rsaFinish_cases d size (spaceBytes s d.keyMem d.key.toNat size) (spaceBytes s d.srcMem d.src.toNat size)
      (spaceBytes s d.srcMem (d.src.toNat + size) size) (afterRequests s (rsaRequests d size)) with
    ⟨hzero, -⟩ | ⟨-, -, r⟩ | ⟨-, hok, -⟩
  · exact absurd hzero hmod
  · rw [r]
    exact failedAccess_afterRequests ..
  · simp [rsaWritable_iff.mp hok] at hwrite

theorem rsaEngine_of_writable (hread : rsaReadable s d size = true) (hmod : rsaModulus s d size ≠ 0)
    (hwrite : rsaWritable s d size = true) :
    (rsaEngine size d s).2 = writeGranted d.dstMem d.dst.toNat
      (bytesLe (rsaMessage s d size ^ rsaExponent s d size % rsaModulus s d size) size)
      (afterRequests s (rsaRequests d size + mapRequests d.dstMem size)) := by
  rw [rsaEngine_of_readable hread]
  rcases rsaFinish_cases d size (spaceBytes s d.keyMem d.key.toNat size) (spaceBytes s d.srcMem d.src.toNat size)
      (spaceBytes s d.srcMem (d.src.toNat + size) size) (afterRequests s (rsaRequests d size)) with
    ⟨hzero, -⟩ | ⟨-, hno, -⟩ | ⟨-, -, r⟩
  · exact absurd hzero hmod
  · simp [rsaWritable_iff.mp hno] at hwrite
  · rw [r, afterRequests_add]
    rfl

/-- The result is stored in the destination's range, and nothing else is (43_rsa.md R225). -/
theorem rsaEngine_storedOnly (hwf : MemoriesWf s) (hread : rsaReadable s d size = true)
    (hmod : rsaModulus s d size ≠ 0) (hwrite : rsaWritable s d size = true) :
    StoredOnly s (rsaEngine size d s).2 d.dstMem d.dst.toNat
      (bytesLe (rsaMessage s d size ^ rsaExponent s d size % rsaModulus s d size) size) := by
  have hacc : accessible s (rsaRequests d size) d.dstMem d.dst.toNat
      (bytesLe (rsaMessage s d size ^ rsaExponent s d size % rsaModulus s d size) size).length true = true := by
    rw [bytesLe_length]
    exact hwrite
  rw [rsaEngine_of_writable hread hmod hwrite]
  exact (storedOnly_of_accessible (r := afterRequests s (rsaRequests d size + mapRequests d.dstMem size)) hwf
    hacc).of_sameMemories ⟨rfl, rfl⟩

end

/-- A number is below `256^n` for the `n` bytes it is read from (00_scope.md R11). -/
theorem natLe_lt (bs : Bytes) : natLe bs < 256 ^ bs.length := by
  induction bs with
  | nil => exact Nat.one_pos
  | cons b bs ih =>
    have hb : b.toNat < 256 := b.isLt
    rw [natLe, List.length_cons, pow_succ]
    omega

/-! ### The obligations -/

/-- Settles O31: the power is below the modulus, which has the operand's size, so its bytes give it back. -/
theorem rsaWritesModularPower : Obligations.RsaWritesModularPower := by
  unfold Obligations.RsaWritesModularPower
  intro i d size s hform hwf hread hwrite hmod
  have hstored := rsaEngine_storedOnly hwf hread hmod hwrite
  have hread_back := hstored.spaceBytes_eq
  obtain ⟨-, houtside⟩ := hstored
  rw [bytesLe_length] at hread_back houtside
  refine ⟨_, exec_rsaForm hform s, ?_, ?_, houtside⟩
  · rw [rsaEngine_of_writable hread hmod hwrite]
    exact writeGranted_memories _ _ _ (afterRequests s _)
  · have hfits : rsaModulus s d size < 256 ^ size := by
      have hlt := natLe_lt (spaceBytes s d.srcMem d.src.toNat size)
      rwa [spaceBytes_length] at hlt
    rw [hread_back, natLe_bytesLe _ _ ((Nat.mod_lt _ (Nat.pos_of_ne_zero hmod)).trans hfits)]

/-- Settles O32: the operands are read, and the computation only logs. -/
theorem rsaZeroModulusWritesNothing : Obligations.RsaZeroModulusWritesNothing := by
  unfold Obligations.RsaZeroModulusWritesNothing
  intro i d size s hform hread hzero
  rw [exec_rsaForm hform, rsaEngine_of_zero_modulus hread hzero]
  rfl

/-- Settles O33: the three reads in their order, then the write. -/
theorem rsaFailureChangesNoMemory : Obligations.RsaFailureChangesNoMemory := by
  unfold Obligations.RsaFailureChangesNoMemory
  intro i d size s hform
  simp only [exec_rsaForm hform]
  exact ⟨fun hkey => congrArg Host.Outcome.next (rsaEngine_of_key_not_accessible hkey),
    fun hkey hmod => congrArg Host.Outcome.next (rsaEngine_of_modulus_not_accessible hkey hmod),
    fun hkey hmod hmsg => congrArg Host.Outcome.next (rsaEngine_of_message_not_accessible hkey hmod hmsg),
    fun hread hmod hwrite => congrArg Host.Outcome.next (rsaEngine_of_not_writable hread hmod hwrite)⟩

/-- Settles O34: each unsupported form fails a test of both sizes. -/
theorem rsaUnsupportedIsSkippedSilently : Obligations.RsaUnsupportedIsSkippedSilently := by
  unfold Obligations.RsaUnsupportedIsSkippedSilently
  intro d s hengine hunsupported
  have h2048 : ¬ d.isRsa2048 = true := by
    simp only [Desc.isRsa2048, Bool.and_eq_true, beq_iff_eq]
    rintro ⟨⟨hmode, hsize⟩, hlen⟩
    simp [hmode, hsize, hlen] at hunsupported
  have h4096 : ¬ d.isRsa4096 = true := by
    simp only [Desc.isRsa4096, Bool.and_eq_true, beq_iff_eq]
    rintro ⟨⟨hmode, hsize⟩, hlen⟩
    simp [hmode, hsize, hlen] at hunsupported
  exact ⟨by rw [classify_rsa d hengine, if_neg h2048, if_neg h4096], rfl⟩

/-- Settles O35: the second power is of the first result, and the keys invert each other on the message. -/
theorem rsaDecryptsWhatItEncrypted : Obligations.RsaDecryptsWhatItEncrypted := by
  unfold Obligations.RsaDecryptsWhatItEncrypted
  intro i j d d' size s t hform hform' hwf hread hwrite hmod hexec hread' hwrite' hmem haddr hmodulus hinverse
  obtain ⟨t', hexec', -, hresult, -⟩ := rsaWritesModularPower i d size s hform hwf hread hwrite hmod
  obtain rfl : t' = t := Host.Outcome.next.inj (hexec'.symm.trans hexec)
  have hwf' : MemoriesWf t' := by
    obtain rfl := Host.Outcome.next.inj ((exec_rsaForm hform s).symm.trans hexec)
    exact rsaEngine_memoriesWf size d hwf
  have hmessage : rsaMessage t' d' size = rsaMessage s d size ^ rsaExponent s d size % rsaModulus s d size := by
    rw [← hresult, rsaMessage, hmem, haddr]
  obtain ⟨u, hexec_u, -, hplain, -⟩ :=
    rsaWritesModularPower j d' size t' hform' hwf' hread' hwrite' (by rw [hmodulus]; exact hmod)
  refine ⟨u, hexec_u, ?_⟩
  rw [hplain, hmessage, hmodulus, ← Nat.pow_mod, ← pow_mul, hinverse]

end Sys2Proof.Machine

/-! The PASSTHRU rows that transfer bytes (44_passthru.md R241 to R248): the source read in full, transformed, and
written in full. -/
namespace Sys2Proof.Machine

/-! ### Transfers -/

section
variable {f : Bytes → Bytes} {d : Desc} {s : State}

theorem ptTransfer_of_source_not_accessible (f : Bytes → Bytes) (hsource : sourceAccessible s 0 d = false) :
    (ptTransfer f d s).2 = failedAccess s 0 d.srcMem d.src.toNat d.length.toNat false := by
  rcases ptTransfer_cases f d s with ⟨-, r⟩ | ⟨hok, -⟩ | ⟨hok, -⟩
  · rw [r]
  · simp [hsource] at hok
  · simp [hsource] at hok

/-- A transfer that keeps the length of what it transforms writes as many bytes as it reads. -/
theorem ptTransfer_of_destination_not_accessible (hlen : ∀ bs, (f bs).length = bs.length)
    (hsource : sourceAccessible s 0 d = true)
    (hdest : accessible s (sourceRequests d) d.dstMem d.dst.toNat d.length.toNat true = false) :
    (ptTransfer f d s).2 = failedAccess s (sourceRequests d) d.dstMem d.dst.toNat d.length.toNat true := by
  rcases ptTransfer_cases f d s with ⟨hno, -⟩ | ⟨-, -, r⟩ | ⟨-, hok, -⟩
  · simp [hsource] at hno
  · rw [r, hlen, sourceBytes_length]
  · rw [hlen, sourceBytes_length] at hok
    simp [hdest] at hok

/-- Where both ranges can be accessed the destination holds the transformed source, and nothing else changes. -/
theorem ptTransfer_storedOnly (hlen : ∀ bs, (f bs).length = bs.length) (hwf : MemoriesWf s)
    (hsource : sourceAccessible s 0 d = true)
    (hdest : accessible s (sourceRequests d) d.dstMem d.dst.toNat d.length.toNat true = true) :
    SameButMemory s (ptTransfer f d s).2 ∧
      StoredOnly s (ptTransfer f d s).2 d.dstMem d.dst.toNat (f (sourceBytes s d)) := by
  rcases ptTransfer_cases f d s with ⟨hno, -⟩ | ⟨-, hno, -⟩ | ⟨-, hacc, r⟩
  · simp [hsource] at hno
  · rw [hlen, sourceBytes_length] at hno
    simp [hdest] at hno
  · rw [r]
    exact ⟨writeGranted_memories _ _ _ (afterRequests s _),
      (storedOnly_of_accessible (r := afterRequests s _) hwf hacc).of_sameMemories ⟨rfl, rfl⟩⟩

/-- Only the bytes read are transformed. -/
theorem ptTransfer_congr_of_source {g : Bytes → Bytes} (h : f (sourceBytes s d) = g (sourceBytes s d)) :
    ptTransfer f d s = ptTransfer g d s := by
  have hsource : spaceBytes s d.srcMem d.src.toNat d.length.toNat = sourceBytes s d := rfl
  rcases memRead_cases d.srcMem d.src.toNat d.length.toNat s with ⟨-, hok⟩ | ⟨-, hfail⟩
  · simp only [ptTransfer, hok, hsource, h]
  · simp only [ptTransfer, hfail]

end

theorem exec_ptCopy (d : Desc) (s : State) : exec (.ptCopy d) s = .next (ptTransfer id d s).2 := rfl

/-- A swap of a multiple of 32 bytes is the transfer of the whole buffer reversed (44_passthru.md R244, decision D44).
-/
theorem exec_ptSwap256 {d : Desc} (h : d.length.toNat % 32 = 0) (s : State) :
    exec (.ptSwap256 d) s = .next (ptTransfer List.reverse d s).2 := by
  change Host.Outcome.next (ptSwap256With true d s).2 = _
  rw [ptSwap256With, if_neg (not_not.mpr h)]
  rfl

/-- Both rows are transfers that keep the length. -/
theorem exec_transfer {i : Instr} {d : Desc} (h : i = .ptCopy d ∨ (i = .ptSwap256 d ∧ d.length.toNat % 32 = 0)) :
    ∃ f : Bytes → Bytes, (∀ bs, (f bs).length = bs.length) ∧ ∀ s, exec i s = .next (ptTransfer f d s).2 := by
  rcases h with rfl | ⟨rfl, hlen⟩
  · exact ⟨id, fun _ => rfl, exec_ptCopy d⟩
  · exact ⟨List.reverse, fun _ => List.length_reverse, exec_ptSwap256 hlen⟩

/-- Settles O36: the transfer that changes no byte. -/
theorem passthruCopiesBytes : Obligations.PassthruCopiesBytes := by
  unfold Obligations.PassthruCopiesBytes
  intro d s hwf hsource hdest
  obtain ⟨hsame, hstored⟩ := ptTransfer_storedOnly (f := id) (fun _ => rfl) hwf hsource hdest
  exact ⟨_, exec_ptCopy d s, hsame, hstored⟩

/-- Settles O37: the transfer that reverses the whole buffer. -/
theorem passthruSwapReversesBytes : Obligations.PassthruSwapReversesBytes := by
  unfold Obligations.PassthruSwapReversesBytes
  intro d s hwf hlen hsource hdest
  obtain ⟨hsame, hstored⟩ := ptTransfer_storedOnly (f := List.reverse) (fun _ => List.length_reverse) hwf hsource hdest
  exact ⟨_, exec_ptSwap256 hlen s, hsame, hstored⟩

/-- Settles O39: the source fails first, then the destination. -/
theorem passthruFailureChangesNoMemory : Obligations.PassthruFailureChangesNoMemory := by
  unfold Obligations.PassthruFailureChangesNoMemory
  intro i d s hrow
  obtain ⟨f, hlen, hexec⟩ := exec_transfer hrow
  rw [hexec]
  exact ⟨fun hsource => congrArg Host.Outcome.next (ptTransfer_of_source_not_accessible f hsource),
    fun hsource hdest => congrArg Host.Outcome.next (ptTransfer_of_destination_not_accessible hlen hsource hdest)⟩

/-- A scratch range that passes the end of the store cannot be accessed (40_shim_scratch.md R150). -/
theorem accessible_scratch_outside {a n : Nat} (h : Config.lsbSize < a + n) (s : State) (k : Nat) (w : Bool) :
    accessible s k .scratch a n w = false :=
  decide_eq_false (Nat.not_le.mpr h)

/-- A failed scratch access makes no mapping request of its own (40_shim_scratch.md R152, R153). -/
theorem failedAccess_scratch (s : State) (k a n : Nat) (w : Bool) :
    failedAccess s k .scratch a n w =
      { afterRequests s k with diag := s.diag ++ [⟨s.diagQueue, .scratchBounds a n⟩] } := rfl

/-- Settles O40: the failures of O39 for scratch ranges. -/
theorem passthruScratchOverflowIsFlagged : Obligations.PassthruScratchOverflowIsFlagged := by
  unfold Obligations.PassthruScratchOverflowIsFlagged
  intro i d s hrow
  obtain ⟨hsourceFails, hdestFails⟩ := passthruFailureChangesNoMemory i d s hrow
  refine ⟨fun hmem hout => ?_, fun hsource hmem hout => ?_⟩
  · rw [sourceAccessible, hmem] at hsourceFails
    rw [hsourceFails (accessible_scratch_outside hout s 0 false), failedAccess_scratch, afterRequests_zero]
  · rw [hmem] at hdestFails
    rw [hdestFails hsource (accessible_scratch_outside hout s _ true), failedAccess_scratch]

/-- Settles O42: the length is tested before any access, and both codes are left to the row that logs them. -/
theorem passthruUnsupportedSwapsOnlyLog : Obligations.PassthruUnsupportedSwapsOnlyLog := by
  unfold Obligations.PassthruUnsupportedSwapsOnlyLog
  refine fun d s => ⟨fun hlen => ⟨s.diagnose (.unimplementedFunction (.ptUnalignedSwap d.length)), ?_, rfl⟩,
    fun hengine hbitwise hcode => ⟨?_, s.diagnose (.unimplementedFunction (.ptByteswap d.byteswap)), rfl, rfl⟩⟩
  · change Host.Outcome.next (ptSwap256With true d s).2 = _
    rw [ptSwap256With, if_pos hlen]
    rfl
  · have hcodes : ∀ b : BitVec 2, b = 1 ∨ b = 3 → b ≠ Config.swapNoop ∧ b ≠ Config.swap256 := by decide
    obtain ⟨hcopy, h256⟩ := hcodes d.byteswap hcode
    exact classify_passthru_swapUnimpl hengine hbitwise hcopy h256

/-! ### The two readings of the swap -/

/-- Byte `i` of the per-block reversal is byte `31 - i mod 32` of its block (90_conflicts.md C2). -/
theorem swapBlocks_getElem? {n : Nat} {data : Bytes} (hlen : data.length = 32 * n) {i : Nat} (h : i < data.length) :
    (swapBlocks n data)[i]? = data[32 * (i / 32) + (31 - i % 32)]? := by
  induction n generalizing data i with
  | zero => omega
  | succ n ih =>
    have htake : (data.take 32).length = 32 := by rw [List.length_take]; omega
    have hblock : (data.take 32).reverse.length = 32 := List.length_reverse.trans htake
    rw [swapBlocks]
    rcases Nat.lt_or_ge i 32 with hfirst | hrest
    · rw [List.getElem?_append_left (by omega), List.getElem?_reverse (by omega), htake,
        List.getElem?_take_of_lt (by omega)]
      congr 1
      omega
    · rw [List.getElem?_append_right (by omega), hblock,
        ih (data := data.drop 32) (by rw [List.length_drop]; omega) (by rw [List.length_drop]; omega),
        List.getElem?_drop]
      congr 1
      omega

/-- On one block the two readings are the same reversal. -/
theorem swap256_one_block (data : Bytes) (h : data.length = 32) : swap256 true data = swap256 false data := by
  have hdiv : data.length / 32 = 1 := by omega
  have htake : data.take 32 = data := List.take_of_length_le (by omega)
  simp [swap256, hdiv, swapBlocks, htake]

/-- Settles O38: the two reversals byte by byte, and one block, which is all the transfer of a descriptor of 32 bytes
transforms. -/
theorem swapReadingsAgreeOnOneBlock : Obligations.SwapReadingsAgreeOnOneBlock := by
  unfold Obligations.SwapReadingsAgreeOnOneBlock
  refine ⟨fun data i h haligned => ⟨?_, ?_⟩, fun d s hlen => ?_⟩
  · change data.reverse[i]? = _
    rw [List.getElem?_reverse h, List.getElem?_eq_getElem (by omega)]
  · exact swapBlocks_getElem? (by omega) h
  · have hblock : (sourceBytes s d).length = 32 := by rw [sourceBytes_length, hlen]; rfl
    simp only [ptSwap256With, ptTransfer_congr_of_source (swap256_one_block _ hblock)]

end Sys2Proof.Machine

/-! The ZLIB row of one complete stream (45_zlib.md R260 to R266): the inflate step, its destinations and its failures.
-/
namespace Sys2Proof.Machine

/-! ### The inflate step -/

theorem inflateAs_length_le (c : Container) (input : Bytes) (cap : Nat) : (inflateAs c input cap).length ≤ cap := by
  unfold inflateAs
  split
  · exact Nat.zero_le cap
  · split <;> exact List.length_take_le ..

theorem inflateAs_of_plaintext {c : Container} {input p : Bytes} (cap : Nat) (hne : input ≠ [])
    (hp : plaintextOf c input = some p) : inflateAs c input cap = p.take cap := by
  simp only [inflateAs, if_neg hne, hp]

/-- Settles O43: the container's plaintext cut to the buffer; the stream of V-ZL1 is decoded by evaluation. -/
theorem inflateStepGivesPlaintext : Obligations.InflateStepGivesPlaintext := by
  unfold Obligations.InflateStepGivesPlaintext
  refine ⟨fun c input cap => ⟨inflateAs_length_le c input cap, rfl, fun p => inflateAs_of_plaintext cap, rfl⟩, ?_⟩
  decide +kernel

/-! ### The engine -/

section
variable {d : Desc} {s : State}

theorem exec_zlibInflate (d : Desc) (s : State) : exec (.zlibInflate d) s = .next (zlibInflateEffect d s).2 := rfl

theorem zlibInflate_of_source_not_accessible (h : sourceAccessible s 0 d = false) :
    (zlibInflateEffect d s).2 = { failedAccess s 0 d.srcMem d.src.toNat d.length.toNat false with zctx := none } := by
  rcases zlibInflateEffect_cases d s with ⟨-, r⟩ | ⟨hok, -⟩ | ⟨hok, -⟩ | ⟨hok, -⟩ | ⟨hok, -⟩ | ⟨hok, -⟩
  · exact r
  all_goals simp [h] at hok

/-- A destination that no engine can reach (40_shim_scratch.md R151, decision D25). -/
theorem zlibInflate_of_no_destination (h : sourceAccessible s 0 d = true)
    (hmem : d.dstMem = .system ∨ d.dstMem = .unnamed) :
    (zlibInflateEffect d s).2 =
      { failedAccess s (sourceRequests d) d.dstMem d.dst.toNat Config.zlibChunk true with zctx := none } := by
  rcases zlibInflateEffect_cases d s with ⟨hno, -⟩ | ⟨-, -, r⟩ | ⟨-, hm, -⟩ | ⟨-, hm, -⟩ | ⟨-, hm, -⟩ | ⟨-, hm, -⟩
  · simp [h] at hno
  · exact r
  all_goals simp [hm] at hmem

/-- A scratch destination with room for the whole chunk. -/
theorem zlibInflate_scratch_fits (h : sourceAccessible s 0 d = true) (hmem : d.dstMem = .scratch)
    (hfits : d.dst.toNat + Config.zlibChunk ≤ Config.lsbSize) :
    (zlibInflateEffect d s).2 = { writeGranted .scratch d.dst.toNat (inflate (sourceBytes s d) Config.zlibChunk)
      (afterRequests s (sourceRequests d)) with zctx := none } := by
  rcases zlibInflateEffect_cases d s with
    ⟨hno, -⟩ | ⟨-, hm, -⟩ | ⟨-, -, -, r⟩ | ⟨-, -, hout, -⟩ | ⟨-, hm, -⟩ | ⟨-, hm, -⟩
  · simp [h] at hno
  · simp [hmem] at hm
  · exact r
  · exact absurd hfits hout
  all_goals simp [hmem] at hm

/-- Any other scratch destination is granted nothing, and warns (40_shim_scratch.md R154, decision D32). -/
theorem zlibInflate_scratch_outside (h : sourceAccessible s 0 d = true) (hmem : d.dstMem = .scratch)
    (hout : ¬ d.dst.toNat + Config.zlibChunk ≤ Config.lsbSize) :
    (zlibInflateEffect d s).2 = { (afterRequests s (sourceRequests d)).diagnose
      (.scratchBounds d.dst.toNat Config.zlibChunk) with zctx := none } := by
  rcases zlibInflateEffect_cases d s with
    ⟨hno, -⟩ | ⟨-, hm, -⟩ | ⟨-, -, hin, -⟩ | ⟨-, -, -, r⟩ | ⟨-, hm, -⟩ | ⟨-, hm, -⟩
  · simp [h] at hno
  · simp [hmem] at hm
  · exact absurd hin hout
  · exact r
  all_goals simp [hmem] at hm

/-- The log after a mapping of guest memory granted `g` bytes of the chunk: a warning where the grant is short. -/
def logAfterGrant (s : State) (d : Desc) (g : Nat) : List DiagEntry :=
  if g = Config.zlibChunk then s.diag
  else s.diag ++ [⟨s.diagQueue, .partialOutput d.dst.toNat Config.zlibChunk g⟩]

/-- A guest destination receives the output of the inflate step for the bytes granted (45_zlib.md R262, R265). -/
theorem zlibInflate_loc {g : Nat} (h : sourceAccessible s 0 d = true) (hmem : d.dstMem = .loc)
    (hgrant : grantAt s (sourceRequests d) d.dst.toNat Config.zlibChunk true = g) :
    (zlibInflateEffect d s).2 = writeGranted .loc d.dst.toNat (inflate (sourceBytes s d) g)
      { afterRequests s (sourceRequests d + 1) with zctx := none, diag := logAfterGrant s d g } := by
  subst hgrant
  rcases zlibInflateEffect_cases d s with
    ⟨hno, -⟩ | ⟨-, hm, -⟩ | ⟨-, hm, -⟩ | ⟨-, hm, -⟩ | ⟨-, -, hfull, r⟩ | ⟨-, -, hshort, r⟩
  · simp [h] at hno
  · simp [hmem] at hm
  · simp [hmem] at hm
  · simp [hmem] at hm
  · rw [r, logAfterGrant, if_pos hfull, hfull]
    rfl
  · rw [r, logAfterGrant, if_neg (Nat.ne_of_lt hshort)]
    rfl

end

/-! ### The obligations -/

/-- Settles O44: what is granted of guest memory ends at `2^48` at most, and the output fits what is granted. -/
theorem zlibInflatesIntoGuestMemory : Obligations.ZlibInflatesIntoGuestMemory := by
  unfold Obligations.ZlibInflatesIntoGuestMemory
  intro d s g hwf hzctx hsource hmem hgrant
  have hlen := inflate_length_le (sourceBytes s d) g
  have hbound := (grantAt_le s (sourceRequests d) d.dst.toNat 4096 true).2
  have hdst : d.dst.toNat < 0x1000000000000 := d.dst.isLt
  have hstored : StoredOnly s _ .loc d.dst.toNat (inflate (sourceBytes s d) g) :=
    storedOnly_writeGranted hwf nofun (fun _ => by simp only [Config.guestLimit] at hbound ⊢; omega) (fun _ => .inr rfl)
  refine ⟨_, exec_zlibInflate d s, ?_⟩
  rw [zlibInflate_loc hsource hmem hgrant]
  refine ⟨hstored.to_sameMemories ⟨rfl, rfl⟩, ?_⟩
  rw [← hzctx]
  rfl

/-- Settles O45: only at offset 0 the whole chunk fits the store. -/
theorem zlibScratchDestinationIsAllOrNothing : Obligations.ZlibScratchDestinationIsAllOrNothing := by
  unfold Obligations.ZlibScratchDestinationIsAllOrNothing
  intro d s hwf hzctx hsource hmem
  refine ⟨fun hzero => ?_, fun hne => ?_⟩
  · have hoffset : d.dst.toNat = 0 := by rw [hzero]; rfl
    have hlen := inflate_length_le (sourceBytes s d) 4096
    have hstored : StoredOnly s _ .scratch 0 (inflate (sourceBytes s d) 4096) :=
      storedOnly_writeGranted hwf (fun _ => by simp only [Config.lsbSize]; omega) nofun (fun _ => .inl rfl)
    refine ⟨_, exec_zlibInflate d s, ?_⟩
    rw [zlibInflate_scratch_fits hsource hmem (by rw [hoffset]; decide), hoffset]
    refine ⟨hstored.to_sameMemories ⟨rfl, rfl⟩, ?_⟩
    rw [← hzctx]
    rfl
  · have hpos : d.dst.toNat ≠ 0 := fun h => hne (BitVec.eq_of_toNat_eq h)
    rw [exec_zlibInflate, zlibInflate_scratch_outside hsource hmem
      (by simp only [Config.zlibChunk, Config.lsbSize]; omega), ← hzctx]
    rfl

/-- Settles O46: the source fails first, then a destination that is no memory. -/
theorem zlibFailureLeavesNoContext : Obligations.ZlibFailureLeavesNoContext := by
  unfold Obligations.ZlibFailureLeavesNoContext
  refine fun d s => ⟨fun hsource => ?_, fun hsource hmem => ?_⟩
  · rw [exec_zlibInflate, zlibInflate_of_source_not_accessible hsource]
  · rw [exec_zlibInflate, zlibInflate_of_no_destination hsource hmem]
    rcases hmem with hmem | hmem
    · rw [hmem]
      rfl
    · rw [hmem]
      rfl

end Sys2Proof.Machine
